-- ==== Sys2Proof/Word.lean ====
section
/-! DEFINITION. The words of the SmolBit dispatcher: the widths that `10_state.md` and `20_memory.md` fix.
Only what the spec treats as bits is a bit vector; addresses of image bits, counts and characters are plain
numbers. -/

namespace Sys2Proof

/-- A register value: an unsigned 32-bit integer (R5, R8, R21). -/
abbrev Word := BitVec 32

/-- Eight consecutive bits of the stream read as one field (R51, R55). -/
abbrev Byte := BitVec 8

/-- The 4-bit address field of a register of the active page (R5, R85). -/
abbrev RegAddr := BitVec 4

/-- The 3-bit page field (R5, R26). -/
abbrev PageNo := BitVec 3

/-- The 4-bit index of a function-table entry (R5, R28). -/
abbrev FuncId := BitVec 4

/-- A stretch of the program image in stream order, the first bit first (R7). -/
abbrev Bits := List Bool

/-- A character of the output or input channel, as the number of its Unicode scalar value (R34, R35). -/
abbrev Scalar := Nat

end Sys2Proof
end

