-- ==== Sys2Proof/Syntax.lean ====
section
/-! DEFINITION. The instructions of the SmolBit ISA: one constructor for each of the 39 rows of
`spec/opcode_table.json`, with the operand fields of `30_encoding.md` rules R72 to R80. A body-bearing BLOCK is
its header: its body is no operand, it is found in the image by the capture (R83, R171). -/

namespace Sys2Proof

/-- The 2-bit condition code of IF and WHILE (R79): `00` EQ, `01` LE, `10` GE, `11` NE. -/
inductive Cond where
  | eq
  | le
  | ge
  | ne
deriving DecidableEq, Repr

inductive Instr where
  -- class NOP (R72)
  | nop
  -- class MANIPULATE (R73)
  | inc (a : RegAddr)
  | dec (a : RegAddr)
  | clr (a : RegAddr)
  | rst (a : RegAddr)
  | push (a : RegAddr)
  | pop (a : RegAddr)
  | mres6 (a : RegAddr)
  | mres7 (a : RegAddr)
  -- class PAGE-SELECT (R74)
  | page (p : PageNo)
  -- class ARITHMETIC (R75, R76)
  | add (a1 a2 : RegAddr)
  | sub (a1 a2 : RegAddr)
  | mul (a1 a2 : RegAddr)
  | div (a1 a2 : RegAddr)
  | mov (a1 a2 : RegAddr)
  | ldi8 (d : RegAddr) (imm : BitVec 8)
  | ldi16 (d : RegAddr) (imm : BitVec 16)
  | ldi24 (d : RegAddr) (imm : BitVec 24)
  | ldi32 (d : RegAddr) (imm : BitVec 32)
  | pow (a1 a2 : RegAddr)
  | root (a1 a2 : RegAddr)
  -- class DISPLAY (R77)
  | pchr (a : RegAddr)
  | pdec (a : RegAddr)
  | phex (a : RegAddr)
  | plit (lit : Byte)
  -- class BLOCK (R78)
  | ifBlock (a1 : RegAddr) (c : Cond) (a2 : RegAddr)
  | repeatBlock (a : RegAddr)
  | funcDef (id : FuncId)
  | funcUndef (id : FuncId)
  | call (id : FuncId)
  | forImm (a : RegAddr) (n : BitVec 8)
  | forReg (a a2 : RegAddr)
  | whileBlock (a1 : RegAddr) (c : Cond) (a2 : RegAddr)
  | dpm (payload : List Byte)
  -- class BLOCK-END (R72)
  | blockEnd
  -- class IO (R80)
  | halt
  | fail
  | inHex (a : RegAddr)
  | inDec (a : RegAddr)
deriving DecidableEq, Repr

end Sys2Proof
end

