-- ==== Sys2Proof/Machine/Flags.lean ====
section
/-! DEFINITION. The machine has no flags, no condition codes and no predicate registers (R37): no instruction
leaves a carry, an overflow, a zero or a comparison behind. What stands in their place is the comparison of two
registers at the moment IF or WHILE evaluates it. -/

namespace Sys2Proof.Machine

/-- `cond(c, u, v)` of R186: unsigned, over all 32 bits, the first-named operand on the left. -/
def condHolds : Cond → Word → Word → Bool
  | .eq, u, v => decide (u.toNat = v.toNat)
  | .le, u, v => decide (u.toNat ≤ v.toNat)
  | .ge, u, v => decide (u.toNat ≥ v.toNat)
  | .ne, u, v => decide (u.toNat ≠ v.toNat)

end Sys2Proof.Machine
end

