-- ==== Sys2Proof/WellFormed.lean ====
section
/-! DEFINITION. Which instructions have an encoding. Every operand field but one is exactly as wide as its field of
the stream, and every value of every field is allowed (R86), so the one check left is DPM's: its 16-bit length
field counts the payload bytes, 0 to 65535 (R78, R84). -/

namespace Sys2Proof

/-- R84: the payload of a DPM has at most 65535 bytes; every other operand fits its field by its type (R86). -/
def Instr.wf : Instr → Bool
  | .dpm payload => decide (payload.length ≤ 65535)
  | .nop => true
  | .inc _ => true
  | .dec _ => true
  | .clr _ => true
  | .rst _ => true
  | .push _ => true
  | .pop _ => true
  | .mres6 _ => true
  | .mres7 _ => true
  | .page _ => true
  | .add _ _ => true
  | .sub _ _ => true
  | .mul _ _ => true
  | .div _ _ => true
  | .mov _ _ => true
  | .ldi8 _ _ => true
  | .ldi16 _ _ => true
  | .ldi24 _ _ => true
  | .ldi32 _ _ => true
  | .pow _ _ => true
  | .root _ _ => true
  | .pchr _ => true
  | .pdec _ => true
  | .phex _ => true
  | .plit _ => true
  | .ifBlock _ _ _ => true
  | .repeatBlock _ => true
  | .funcDef _ => true
  | .funcUndef _ => true
  | .call _ => true
  | .forImm _ _ => true
  | .forReg _ _ => true
  | .whileBlock _ _ _ => true
  | .blockEnd => true
  | .halt => true
  | .fail => true
  | .inHex _ => true
  | .inDec _ => true

end Sys2Proof
end

