-- ==== Sys2Proof/Decode.lean ====
section
/-! DEFINITION. The encoding of `30_encoding.md`: the field read of the bit cursor, the decoder, the encoder and the
lengths. `decode` is the one operand-width table of R82: the executing engine (Machine/Step.lean) and the skip
engine (Machine/Capture.lean) both read an instruction by it and by nothing else. Bits stand in stream order,
the first bit first. -/

namespace Sys2Proof

/-! ## Fields -/

/-- Why a decoding fails. There is no reserved or illegal encoding (R86), so one name is all. -/
inductive DecodeError where
  /-- A field does not fit in the bits that are left (R56, R100). -/
  | unexpectedEnd
deriving DecidableEq, Repr

/-- The `n`-bit field that holds `v`, its most significant bit first (R52). -/
def bitsOf : Nat → Nat → Bits
  | 0, _ => []
  | n + 1, v => v.testBit n :: bitsOf n v

/-- `readBits` with the value of the bits already read in front: the first bit is the most significant (R52). -/
def readBitsFrom : Nat → Nat → Bits → Except DecodeError (Nat × Bits)
  | 0, v, bs => .ok (v, bs)
  | _ + 1, _, [] => .error .unexpectedEnd
  | n + 1, v, b :: bs => readBitsFrom n (2 * v + b.toNat) bs

/-- `read(n)` of R100 on the bits that are left in the frame: the next `n` bits as an unsigned integer, and the
bits after them. -/
def readBits (n : Nat) (bs : Bits) : Except DecodeError (Nat × Bits) :=
  readBitsFrom n 0 bs

/-- `peek(n)` of R101: what `read(n)` would give, with the same fault, and nothing moves. -/
def peekBits (n : Nat) (bs : Bits) : Except DecodeError Nat :=
  match readBits n bs with
  | .ok (v, _) => .ok v
  | .error e => .error e

/-- A field of `n` bits kept as `n` bits. -/
def readField (n : Nat) (bs : Bits) : Except DecodeError (BitVec n × Bits) :=
  match readBits n bs with
  | .ok (v, rest) => .ok (BitVec.ofNat n v, rest)
  | .error e => .error e

/-- `k` consecutive 8-bit fields: the payload of a DPM, in stream order (R196). -/
def readBytes : Nat → Bits → Except DecodeError (List Byte × Bits)
  | 0, bs => .ok ([], bs)
  | k + 1, bs => do
    let (b, bs) ← readField 8 bs
    let (payload, bs) ← readBytes k bs
    pure (b :: payload, bs)

/-- The 2-bit condition field (R79). -/
def readCond (bs : Bits) : Except DecodeError (Cond × Bits) := do
  let (c, bs) ← readBits 2 bs
  match c with
  | 0 => pure (.eq, bs)
  | 1 => pure (.le, bs)
  | 2 => pure (.ge, bs)
  | _ => pure (.ne, bs)

/-- The code of a condition (R79). -/
def Cond.code : Cond → Nat
  | .eq => 0
  | .le => 1
  | .ge => 2
  | .ne => 3

/-! ## The decoder, class by class

In each `match` on a selector of `k` bits the last arm is the selector `2 ^ k - 1`: a field of `k` bits has no
greater value, and R86 leaves no selector value undefined. -/

/-- After tag `001`: mode and address, for every mode (R73, R120). -/
def decodeManipulate (bs : Bits) : Except DecodeError (Instr × Bits) := do
  let (mode, bs) ← readBits 3 bs
  let (a, bs) ← readField 4 bs
  match mode with
  | 0 => pure (.inc a, bs)
  | 1 => pure (.dec a, bs)
  | 2 => pure (.clr a, bs)
  | 3 => pure (.rst a, bs)
  | 4 => pure (.push a, bs)
  | 5 => pure (.pop a, bs)
  | 6 => pure (.mres6 a, bs)
  | _ => pure (.mres7 a, bs)

/-- After tag `010` (R74, R128). -/
def decodePage (bs : Bits) : Except DecodeError (Instr × Bits) := do
  let (p, bs) ← readField 3 bs
  pure (.page p, bs)

/-- ARITHMETIC mode 5 after its mode: the selector `w`, the destination, then `8 (w + 1)` immediate bits (R76). -/
def decodeLoadImmediate (bs : Bits) : Except DecodeError (Instr × Bits) := do
  let (w, bs) ← readBits 2 bs
  let (d, bs) ← readField 4 bs
  match w with
  | 0 => do
    let (imm, bs) ← readField 8 bs
    pure (.ldi8 d imm, bs)
  | 1 => do
    let (imm, bs) ← readField 16 bs
    pure (.ldi16 d imm, bs)
  | 2 => do
    let (imm, bs) ← readField 24 bs
    pure (.ldi24 d imm, bs)
  | _ => do
    let (imm, bs) ← readField 32 bs
    pure (.ldi32 d imm, bs)

/-- ARITHMETIC modes other than 5 after their mode: `a1`, then `a2` (R75). -/
def decodeTwoRegisters (mk : RegAddr → RegAddr → Instr) (bs : Bits) : Except DecodeError (Instr × Bits) := do
  let (a1, bs) ← readField 4 bs
  let (a2, bs) ← readField 4 bs
  pure (mk a1 a2, bs)

/-- After tag `011` (R140). -/
def decodeArithmetic (bs : Bits) : Except DecodeError (Instr × Bits) := do
  let (mode, bs) ← readBits 3 bs
  match mode with
  | 0 => decodeTwoRegisters .add bs
  | 1 => decodeTwoRegisters .sub bs
  | 2 => decodeTwoRegisters .mul bs
  | 3 => decodeTwoRegisters .div bs
  | 4 => decodeTwoRegisters .mov bs
  | 5 => decodeLoadImmediate bs
  | 6 => decodeTwoRegisters .pow bs
  | _ => decodeTwoRegisters .root bs

/-- One 4-bit operand: a register address, or the id of a function. -/
def decodeOneField (mk : BitVec 4 → Instr) (bs : Bits) : Except DecodeError (Instr × Bits) := do
  let (a, bs) ← readField 4 bs
  pure (mk a, bs)

/-- After tag `100`: modes 0 to 2 read an address, mode 3 an 8-bit literal (R77, R160). -/
def decodeDisplay (bs : Bits) : Except DecodeError (Instr × Bits) := do
  let (mode, bs) ← readBits 2 bs
  match mode with
  | 0 => decodeOneField .pchr bs
  | 1 => decodeOneField .pdec bs
  | 2 => decodeOneField .phex bs
  | _ => do
    let (lit, bs) ← readField 8 bs
    pure (.plit lit, bs)

/-- The header of IF and WHILE after the sub-type: `a1`, `c`, `a2` (R78). -/
def decodeCondHeader (mk : RegAddr → Cond → RegAddr → Instr) (bs : Bits) :
    Except DecodeError (Instr × Bits) := do
  let (a1, bs) ← readField 4 bs
  let (c, bs) ← readCond bs
  let (a2, bs) ← readField 4 bs
  pure (mk a1 c a2, bs)

/-- The header of FOR after the sub-type: the mode bit, the index register, then an 8-bit count or a count
register (R78). -/
def decodeForHeader (bs : Bits) : Except DecodeError (Instr × Bits) := do
  let (m, bs) ← readBits 1 bs
  let (a, bs) ← readField 4 bs
  match m with
  | 0 => do
    let (n, bs) ← readField 8 bs
    pure (.forImm a n, bs)
  | _ => do
    let (a2, bs) ← readField 4 bs
    pure (.forReg a a2, bs)

/-- DPM after the sub-type: a 16-bit count of bytes, then the bytes, which are data (R78, R174). -/
def decodeLiteralPrint (bs : Bits) : Except DecodeError (Instr × Bits) := do
  let (len, bs) ← readBits 16 bs
  let (payload, bs) ← readBytes len bs
  pure (.dpm payload, bs)

/-- After tag `101`: the header of the sub-type (R78, R185). -/
def decodeBlock (bs : Bits) : Except DecodeError (Instr × Bits) := do
  let (st, bs) ← readBits 3 bs
  match st with
  | 0 => decodeCondHeader .ifBlock bs
  | 1 => decodeOneField .repeatBlock bs
  | 2 => decodeOneField .funcDef bs
  | 3 => decodeOneField .funcUndef bs
  | 4 => decodeOneField .call bs
  | 5 => decodeForHeader bs
  | 6 => decodeCondHeader .whileBlock bs
  | _ => decodeLiteralPrint bs

/-- After tag `111`: the halts have no operand, the inputs an address (R80, R215). -/
def decodeIo (bs : Bits) : Except DecodeError (Instr × Bits) := do
  let (s, bs) ← readBits 2 bs
  match s with
  | 0 => pure (.halt, bs)
  | 1 => pure (.fail, bs)
  | 2 => decodeOneField .inHex bs
  | _ => decodeOneField .inDec bs

/-- The instruction at the front of `bs` (for a body-bearing BLOCK, its header) and the bits after it: the class
tag first, then the fields of the class (R70, R71, R82, R83, R104). -/
def decode (bs : Bits) : Except DecodeError (Instr × Bits) := do
  let (tag, bs) ← readBits 3 bs
  match tag with
  | 0 => pure (.nop, bs)
  | 1 => decodeManipulate bs
  | 2 => decodePage bs
  | 3 => decodeArithmetic bs
  | 4 => decodeDisplay bs
  | 5 => decodeBlock bs
  | 6 => pure (.blockEnd, bs)
  | _ => decodeIo bs

/-! ## The encoder -/

/-- A field with all of its bits, the first in the stream most significant (R52). -/
def fieldBits {n : Nat} (v : BitVec n) : Bits := bitsOf n v.toNat

/-- Tag `001`, mode, address (R73). -/
def encodeManipulate (mode : Nat) (a : RegAddr) : Bits := bitsOf 3 1 ++ bitsOf 3 mode ++ fieldBits a

/-- Tag `011`, mode, `a1`, `a2` (R75). -/
def encodeTwoRegisters (mode : Nat) (a1 a2 : RegAddr) : Bits :=
  bitsOf 3 3 ++ bitsOf 3 mode ++ fieldBits a1 ++ fieldBits a2

/-- Tag `011`, mode 5, the selector `w`, the destination, the immediate (R76). -/
def encodeLoadImmediate {n : Nat} (w : Nat) (d : RegAddr) (imm : BitVec n) : Bits :=
  bitsOf 3 3 ++ bitsOf 3 5 ++ bitsOf 2 w ++ fieldBits d ++ fieldBits imm

/-- Tag `100`, mode, address (R77). -/
def encodeDisplay (mode : Nat) (a : RegAddr) : Bits := bitsOf 3 4 ++ bitsOf 2 mode ++ fieldBits a

/-- Tag `101`, sub-type, `a1`, `c`, `a2` (R78). -/
def encodeCondHeader (st : Nat) (a1 : RegAddr) (c : Cond) (a2 : RegAddr) : Bits :=
  bitsOf 3 5 ++ bitsOf 3 st ++ fieldBits a1 ++ bitsOf 2 c.code ++ fieldBits a2

/-- Tag `101`, sub-type, one 4-bit field (R78). -/
def encodeOneFieldBlock (st : Nat) (a : BitVec 4) : Bits := bitsOf 3 5 ++ bitsOf 3 st ++ fieldBits a

/-- The bits of an instruction: for a body-bearing BLOCK those of its header, for a DPM those of its header and
its payload (R71 to R80). -/
def encode : Instr → Bits
  | .nop => bitsOf 3 0
  | .inc a => encodeManipulate 0 a
  | .dec a => encodeManipulate 1 a
  | .clr a => encodeManipulate 2 a
  | .rst a => encodeManipulate 3 a
  | .push a => encodeManipulate 4 a
  | .pop a => encodeManipulate 5 a
  | .mres6 a => encodeManipulate 6 a
  | .mres7 a => encodeManipulate 7 a
  | .page p => bitsOf 3 2 ++ fieldBits p
  | .add a1 a2 => encodeTwoRegisters 0 a1 a2
  | .sub a1 a2 => encodeTwoRegisters 1 a1 a2
  | .mul a1 a2 => encodeTwoRegisters 2 a1 a2
  | .div a1 a2 => encodeTwoRegisters 3 a1 a2
  | .mov a1 a2 => encodeTwoRegisters 4 a1 a2
  | .ldi8 d imm => encodeLoadImmediate 0 d imm
  | .ldi16 d imm => encodeLoadImmediate 1 d imm
  | .ldi24 d imm => encodeLoadImmediate 2 d imm
  | .ldi32 d imm => encodeLoadImmediate 3 d imm
  | .pow a1 a2 => encodeTwoRegisters 6 a1 a2
  | .root a1 a2 => encodeTwoRegisters 7 a1 a2
  | .pchr a => encodeDisplay 0 a
  | .pdec a => encodeDisplay 1 a
  | .phex a => encodeDisplay 2 a
  | .plit lit => bitsOf 3 4 ++ bitsOf 2 3 ++ fieldBits lit
  | .ifBlock a1 c a2 => encodeCondHeader 0 a1 c a2
  | .repeatBlock a => encodeOneFieldBlock 1 a
  | .funcDef id => encodeOneFieldBlock 2 id
  | .funcUndef id => encodeOneFieldBlock 3 id
  | .call id => encodeOneFieldBlock 4 id
  | .forImm a n => bitsOf 3 5 ++ bitsOf 3 5 ++ bitsOf 1 0 ++ fieldBits a ++ fieldBits n
  | .forReg a a2 => bitsOf 3 5 ++ bitsOf 3 5 ++ bitsOf 1 1 ++ fieldBits a ++ fieldBits a2
  | .whileBlock a1 c a2 => encodeCondHeader 6 a1 c a2
  | .dpm payload => bitsOf 3 5 ++ bitsOf 3 7 ++ bitsOf 16 payload.length ++ payload.flatMap fieldBits
  | .blockEnd => bitsOf 3 6
  | .halt => bitsOf 3 7 ++ bitsOf 2 0
  | .fail => bitsOf 3 7 ++ bitsOf 2 1
  | .inHex a => bitsOf 3 7 ++ bitsOf 2 2 ++ fieldBits a
  | .inDec a => bitsOf 3 7 ++ bitsOf 2 3 ++ fieldBits a

/-! ## Lengths and nesting -/

/-- The length in bits of an instruction's row in the opcode table, the tag included: for a body-bearing BLOCK and
for DPM, of its header (R78, R82, R90). -/
def Instr.headerBits : Instr → Nat
  | .nop => 3
  | .inc _ => 10
  | .dec _ => 10
  | .clr _ => 10
  | .rst _ => 10
  | .push _ => 10
  | .pop _ => 10
  | .mres6 _ => 10
  | .mres7 _ => 10
  | .page _ => 6
  | .add _ _ => 14
  | .sub _ _ => 14
  | .mul _ _ => 14
  | .div _ _ => 14
  | .mov _ _ => 14
  | .ldi8 _ _ => 20
  | .ldi16 _ _ => 28
  | .ldi24 _ _ => 36
  | .ldi32 _ _ => 44
  | .pow _ _ => 14
  | .root _ _ => 14
  | .pchr _ => 9
  | .pdec _ => 9
  | .phex _ => 9
  | .plit _ => 13
  | .ifBlock _ _ _ => 16
  | .repeatBlock _ => 10
  | .funcDef _ => 10
  | .funcUndef _ => 10
  | .call _ => 10
  | .forImm _ _ => 19
  | .forReg _ _ => 15
  | .whileBlock _ _ _ => 16
  | .dpm _ => 22
  | .blockEnd => 3
  | .halt => 5
  | .fail => 5
  | .inHex _ => 9
  | .inDec _ => 9

/-- The payload bytes that follow an instruction's header: DPM's, and none for the others (R78). -/
def Instr.payload : Instr → List Byte
  | .dpm payload => payload
  | .nop => []
  | .inc _ => []
  | .dec _ => []
  | .clr _ => []
  | .rst _ => []
  | .push _ => []
  | .pop _ => []
  | .mres6 _ => []
  | .mres7 _ => []
  | .page _ => []
  | .add _ _ => []
  | .sub _ _ => []
  | .mul _ _ => []
  | .div _ _ => []
  | .mov _ _ => []
  | .ldi8 _ _ => []
  | .ldi16 _ _ => []
  | .ldi24 _ _ => []
  | .ldi32 _ _ => []
  | .pow _ _ => []
  | .root _ _ => []
  | .pchr _ => []
  | .pdec _ => []
  | .phex _ => []
  | .plit _ => []
  | .ifBlock _ _ _ => []
  | .repeatBlock _ => []
  | .funcDef _ => []
  | .funcUndef _ => []
  | .call _ => []
  | .forImm _ _ => []
  | .forReg _ _ => []
  | .whileBlock _ _ _ => []
  | .blockEnd => []
  | .halt => []
  | .fail => []
  | .inHex _ => []
  | .inDec _ => []

/-- How many bits reading an instruction consumes: `22 + 8 len` for DPM; for a body-bearing BLOCK its header, the
body being the capture's business (R70, R82). -/
def Instr.width (i : Instr) : Nat := i.headerBits + 8 * i.payload.length

/-- What an instruction is to the block structure (R87, column "opens" of R78). -/
inductive Nesting where
  /-- A body-bearing BLOCK: a BLOCK-END tag closes it. -/
  | opens
  /-- The BLOCK-END tag. -/
  | closes
  /-- Everything else, the immediate sub-types FUNCUNDEF, CALL and DPM among them (R173). -/
  | flat
deriving DecidableEq, Repr

/-- Which instructions open a block and which closes one (R78, R87, R173). -/
def Instr.nesting : Instr → Nesting
  | .ifBlock _ _ _ => .opens
  | .repeatBlock _ => .opens
  | .funcDef _ => .opens
  | .forImm _ _ => .opens
  | .forReg _ _ => .opens
  | .whileBlock _ _ _ => .opens
  | .blockEnd => .closes
  | .nop => .flat
  | .inc _ => .flat
  | .dec _ => .flat
  | .clr _ => .flat
  | .rst _ => .flat
  | .push _ => .flat
  | .pop _ => .flat
  | .mres6 _ => .flat
  | .mres7 _ => .flat
  | .page _ => .flat
  | .add _ _ => .flat
  | .sub _ _ => .flat
  | .mul _ _ => .flat
  | .div _ _ => .flat
  | .mov _ _ => .flat
  | .ldi8 _ _ => .flat
  | .ldi16 _ _ => .flat
  | .ldi24 _ _ => .flat
  | .ldi32 _ _ => .flat
  | .pow _ _ => .flat
  | .root _ _ => .flat
  | .pchr _ => .flat
  | .pdec _ => .flat
  | .phex _ => .flat
  | .plit _ => .flat
  | .funcUndef _ => .flat
  | .call _ => .flat
  | .dpm _ => .flat
  | .halt => .flat
  | .fail => .flat
  | .inHex _ => .flat
  | .inDec _ => .flat

/-! ## The words of the opcode table

`spec/opcode_table.json` numbers a row's bits as one unsigned integer of the row's `length` bits, the first bit of
the stream most significant. A word `w` given with a count of whole bytes stands for a row of 0 to 7 bits fewer;
the row is the one length at which `w` decodes to an instruction whose header is exactly that long (assumption 7). -/

/-- The row of the opcode table, its length and the instruction, that the word `w` of at most `nbits` bits is. A
DPM row's word ends with the 16-bit length field, and the payload it announces has no bits in the table: it reads
as zeros. -/
def tableRow (nbits w : Nat) : Option (Nat × Instr) :=
  (List.range 8).findSome? fun k =>
    let n := nbits - k
    if w < 2 ^ n then
      match decode (bitsOf n w ++ List.replicate (8 * (w % 2 ^ 16)) false) with
      | .ok (i, _) => if i.headerBits = n then some (n, i) else none
      | .error _ => none
    else none

/-- The instruction the decoder reads from the word `w` of the opcode table. -/
def decodeTableWord (nbits w : Nat) : Option Instr := (tableRow nbits w).map Prod.snd

/-- The image bits that hold the table's word `w` as one whole instruction: the row's bits, a payload of zeros for
a DPM, and, for a body-bearing BLOCK, the matching END of an empty body, since header, body and END are the
instruction (R32, R70). A word that is no row stands as its `nbits` bits. -/
def tableImage (nbits w : Nat) : Bits :=
  match tableRow nbits w with
  | none => bitsOf nbits w
  | some (n, i) =>
    let row := bitsOf n w ++ List.replicate (8 * i.payload.length) false
    match i.nesting with
    | .opens => row ++ bitsOf 3 6
    | .closes => row
    | .flat => row

end Sys2Proof
end

