-- ==== Sys2Proof/Config.lean ====
section
/-! DEFINITION. The implementation parameters the spec leaves open (R6, decisions D5, D10, D20). They are plain
data carried by the state and changed by no instruction, so that every statement about a state holds for every
value of them. `L` is the length of the image (Machine/State.lean), `ADDR_BITS` is unbounded (bit addresses are
natural numbers, which R6 allows), and `INPUT_GRAMMAR` is `strict_digits`, the one grammar the spec gives. -/

namespace Sys2Proof

/-- `POP_MASK` of R6 and R126: how many low bits of a popped entry a POP keeps. -/
inductive PopMask where
  /-- 8 bits, the spec's decision D5 and the default. -/
  | low8
  /-- 32 bits, the recorded alternative. -/
  | full32
deriving DecidableEq, Repr

/-- `TAIL_POLICY` of R6 and R103: what 1 or 2 bits left where a class tag is due do in the root frame. -/
inductive TailPolicy where
  /-- All-zero residue ends the stream normally: the spec's decision D10 and the default. -/
  | zeroPad
  /-- Every residue is an `UnexpectedEnd`: the recorded alternative. -/
  | strict
deriving DecidableEq, Repr

/-- The open parameters of R6. A depth of `none` is `infinity`. -/
structure Params where
  /-- `FRAME_DEPTH`: the greatest number of frames, the root frame included (at least 1). -/
  frameDepth : Option Nat
  /-- `STACK_DEPTH`: the greatest number of entries of the evaluation stack. -/
  stackDepth : Option Nat
  popMask : PopMask
  tailPolicy : TailPolicy
deriving DecidableEq, Repr

/-- The parameters of the machine after reset. `POP_MASK` and `TAIL_POLICY` are the spec's defaults.
DESIGN CHOICE (assumption 1): both depths are infinite, which R6 allows and leaves open; unsafe. -/
def Params.initial : Params :=
  { frameDepth := none, stackDepth := none, popMask := .low8, tailPolicy := .zeroPad }

/-- R6: `FRAME_DEPTH` is at least 1 (the root frame counts) and `STACK_DEPTH` is a positive integer, where
either is finite (D20). -/
abbrev Params.wf (p : Params) : Prop :=
  (∀ d ∈ p.frameDepth, 1 ≤ d) ∧ (∀ d ∈ p.stackDepth, 1 ≤ d)

end Sys2Proof
end

