-- ==== Sys2Proof/Machine/State.lean ====
section
/-! DEFINITION. The state of the dispatcher (`10_state.md`), as plain data, and its value after reset. Beside the
spec's own state it holds what R38 calls the environment and the parameters of a run: the image, the input lines
not yet delivered, and the open parameters. -/

namespace Sys2Proof.Machine

/-- `Span(s, e)` of R29: the image bits at addresses `start` to `stop - 1`. -/
structure Span where
  start : Nat
  stop : Nat
deriving DecidableEq, Repr

/-- The kinds of frames of R30, with the loop state R33 lists. Counts and iteration numbers are plain numbers,
sampled from a register or an immediate once, when the loop is entered. -/
inductive FrameKind where
  /-- The whole image. -/
  | root
  /-- The body of an IF whose condition held. -/
  | once
  /-- A function body entered by CALL. -/
  | call
  /-- The body of a REPEAT: `remaining` executions still to run, this one included. -/
  | repeats (remaining : Nat)
  /-- The body of a FOR: iteration `i` of `count`, the index register at address `a`. -/
  | counts (a : RegAddr) (i count : Nat)
  /-- The body of a WHILE, with the fields of its condition. -/
  | loops (a1 : RegAddr) (c : Cond) (a2 : RegAddr)
deriving DecidableEq, Repr

/-- A frame of R30: `pc` is the bit address of the next unread bit, `body` the span the frame executes. -/
structure Frame where
  pc : Nat
  body : Span
  kind : FrameKind
deriving DecidableEq, Repr

/-- The program image of R20 and R50: `len` is `L`, and the cell at byte address `j` holds the bits `8j` to
`8j + 7`, the first of them its most significant bit (R51). A byte that no cell lists is zero; the image is
supplied whole, so that this is a way of writing it down and no assumption about its contents (assumption 2). -/
structure Memory where
  len : Nat
  cells : List Host.Cell
deriving DecidableEq, Repr

/-- The one form of an image: byte addresses strictly rise, no listed byte is the zero that an unlisted one reads
as, and no bit at or past `len` is set, so that equal images are equal data. -/
abbrev Memory.wf (m : Memory) : Prop :=
  m.cells.Pairwise (fun c d => c.1 < d.1) ∧ (∀ c ∈ m.cells, c.2 ≠ 0) ∧
    ∀ c ∈ m.cells, ∀ t < 8, c.2.getLsbD (7 - t) = true → 8 * c.1 + t < m.len

/-- `RES.class` of R36, with the code of each class. -/
inductive RunClass where
  /-- Code 0: the run is in progress. -/
  | running
  /-- Code 1: a deliberate or normal end. -/
  | halted
  /-- Code 2: an ISA fault. -/
  | isaFault
  /-- Code 3: resource exhaustion. -/
  | resource
deriving DecidableEq, Repr

/-- The result register `RES` of R36. Its third field, `RES.success`, is derived from these two
(`Result.success` in Machine/Ops.lean). -/
structure Result where
  cls : RunClass
  code : BitVec 2
deriving DecidableEq, Repr

/-- The events that end a run: the ten rows of R230. -/
inductive Event where
  | haltSuccess
  | haltFailure
  | endOfStream
  | rootBlockEnd
  | unexpectedEnd
  | stackUnderflow
  | malformedInput
  | invalidCharacter
  | framesExhausted
  | stackExhausted
deriving DecidableEq, Repr

/-- The machine. -/
structure State where
  /-- `R` of R21: page, then register. -/
  regs : Vector (Vector Word 16) 8
  /-- `PG` of R26. -/
  page : PageNo
  /-- `STK` of R27, the newest entry first. -/
  stack : List Word
  /-- `FT` of R28; `none` is `Empty`. -/
  funcs : Vector (Option Span) 16
  /-- `FS` of R30, the current (top) frame first; the program counter is the top frame's `pc` (R31). It is
  empty once the run has ended (R238). -/
  frames : List Frame
  /-- `OUT` of R34, in the order of emission. -/
  out : List Scalar
  /-- `RES` of R36. -/
  res : Result
  /-- `IMG` and `L` of R20, an input of the run (R38). -/
  mem : Memory
  /-- The lines the input channel of R35 still has to deliver, the next one first; the environment's (R38). -/
  input : List (List Scalar)
  /-- The parameters of R6 (R38). -/
  params : Params
deriving DecidableEq, Repr

/-- Why a step has no next state. Every fault of the spec is an event that writes `RES` (R238) and is a next
state; this stop is the model's own. -/
inductive Fault where
  /-- Raised by the step, by a frame's end and by a body-bearing BLOCK when the run is in progress and there is no
  frame. R30 says there is always one, and no state that a run reaches is without; safe (assumption 5). -/
  | noCurrentFrame
deriving DecidableEq, Repr

/-- Why an instruction is turned away. -/
inductive Refusal where
  /-- Raised by the arms of `exec` that have no meaning; there is none left. Safe. -/
  | notModelled (mnemonic : String)
deriving DecidableEq, Repr

/-- A page at reset: register `i` holds `i` (R22). -/
def identityPage : Vector Word 16 := #v[0, 1, 2, 3, 4, 5, 6, 7, 8, 9, 10, 11, 12, 13, 14, 15]

/-- The machine right after reset with the image `m` and the input lines `lines` supplied by the host (R260,
R262): the reset values of R41. -/
def State.start (p : Params) (m : Memory) (lines : List (List Scalar)) : State :=
  { regs := Vector.replicate 8 identityPage
    page := 0
    stack := []
    funcs := Vector.replicate 16 none
    frames := [{ pc := 0, body := { start := 0, stop := m.len }, kind := .root }]
    out := []
    res := { cls := .running, code := 0 }
    mem := m
    input := lines
    params := p }

/-- The machine right after reset. The image and the lines are the host's to supply and there are none yet (R41:
"not reset"); the parameters are those of `Params.initial`. -/
def State.reset : State := State.start Params.initial { len := 0, cells := [] } []

end Sys2Proof.Machine
end

