-- ==== Sys2Proof/Machine/Memory.lean ====
section
/-! DEFINITION. Reading the program image, and how the host supplies it (`20_memory.md`). The image is read-only:
there is no write (R57). -/

namespace Sys2Proof.Machine

/-- The byte at byte address `j`: what its cell holds, or zero. -/
def byteAt : List Host.Cell → Nat → Byte
  | [], _ => 0
  | c :: cs, j => if c.1 = j then c.2 else byteAt cs j

/-- `IMG[a]` of R20, with R51's order inside a byte: the first bit is the most significant. -/
def Memory.bitAt (m : Memory) (a : Nat) : Bool := (byteAt m.cells (a / 8)).getLsbD (7 - a % 8)

/-- `MemRead(a, n)` of R52: the bits at `a` to `a + n - 1` as an unsigned integer, `IMG[a + t]` weighing
`2 ^ (n - 1 - t)`. -/
def Memory.read (m : Memory) (a : Nat) : Nat → Nat
  | 0 => 0
  | n + 1 => 2 * m.read a n + (m.bitAt (a + n)).toNat

/-- The `n` bits of the image from address `a` on, in stream order (R29). -/
def Memory.bits (m : Memory) : Nat → Nat → Bits
  | _, 0 => []
  | a, n + 1 => m.bitAt a :: m.bits (a + 1) n

/-- The cells of the bytes `B[j]`, `B[j+1]`, …: the zero bytes are not listed. -/
def cellsFrom : Nat → List Byte → List Host.Cell
  | _, [] => []
  | j, b :: bs => if b = 0 then cellsFrom (j + 1) bs else (j, b) :: cellsFrom (j + 1) bs

/-- The image supplied as bytes (R51): `L = 8k`. -/
def Memory.ofBytes (bytes : List Byte) : Memory :=
  { len := 8 * bytes.length, cells := cellsFrom 0 bytes }

/-- The first `n` bits as a number, most significant first, with 0 bits where the bits have run out. -/
def paddedValue : Nat → Nat → Bits → Nat
  | 0, v, _ => v
  | n + 1, v, [] => paddedValue n (2 * v) []
  | n + 1, v, b :: bs => paddedValue n (2 * v + b.toNat) bs

/-- The first `k` bytes of the wire format of R65: packed first bit to bit 7 of the first byte, 0 bits behind the
last bit. -/
def packBytes : Nat → Bits → List Byte
  | 0, _ => []
  | k + 1, bs => BitVec.ofNat 8 (paddedValue 8 0 bs) :: packBytes k (bs.drop 8)

/-- The image supplied as a bit string (R51): `IMG[j]` is its `j`-th bit and `L` its length, any number. -/
def Memory.ofBits (bs : Bits) : Memory :=
  { len := bs.length, cells := cellsFrom 0 (packBytes ((bs.length + 7) / 8) bs) }

end Sys2Proof.Machine
end

