-- ==== Sys2Proof/Machine/Operands.lean ====
section
/-! DEFINITION. The values instructions compute from their operands: the reductions of R25, the immediates of R84
and the arithmetic of `42_arithmetic.md`. Each takes its operands to exact integers, computes there, and reduces
at the end. -/

namespace Sys2Proof.Machine

/-- `v mod 2^32` as a register value: the reduction of the ARITHMETIC writes and of the inputs (R25, R141). -/
def toWord (v : Nat) : Word := BitVec.ofNat 32 v

/-- `v mod 256` as a register value, bits 31 to 8 zero: the reduction of the MANIPULATE writes (R25). -/
def lowByte (v : Nat) : Word := toWord (v % 256)

/-- An immediate or an address field zero-extended to a register value (R84). -/
def zext {n : Nat} (v : BitVec n) : Word := toWord v.toNat

/-- INC: one more, `mod 256` (R121). -/
def incValue (u : Word) : Word := lowByte (u.toNat + 1)

/-- DEC: one less as an integer, its least non-negative residue `mod 256` (R122). -/
def decValue (u : Word) : Word := lowByte (((u.toNat : Int) - 1) % 256).toNat

/-- POP: the popped entry `mod 2 ^ POP_MASK` (R126). -/
def popValue : PopMask → Word → Word
  | .low8, v => lowByte v.toNat
  | .full32, v => v

/-- ADD (R142). -/
def addValue (u v : Word) : Word := toWord (u.toNat + v.toNat)

/-- SUB: the integer difference, its least non-negative residue `mod 2^32` (R143). -/
def subValue (u v : Word) : Word := toWord (((u.toNat : Int) - (v.toNat : Int)) % (2 ^ 32 : Int)).toNat

/-- MUL (R144). -/
def mulValue (u v : Word) : Word := toWord (u.toNat * v.toNat)

/-- DIV: the floor of the unsigned quotient; a divisor of 0 gives 0 and is no fault (R145). -/
def divValue (u v : Word) : Word := if v.toNat = 0 then 0 else toWord (u.toNat / v.toNat)

/-- POW: the exact integer power `mod 2^32`, but 0 when the exponent is 16 or more (R148). -/
def powValue (u v : Word) : Word := if 16 ≤ v.toNat then 0 else toWord (u.toNat ^ v.toNat)

/-- The greatest `r'` that is `r` plus a number of `k` bits and has `r' ^ v ≤ u`, found from the top bit down,
given `r ^ v ≤ u`. -/
def rootSearch (u v : Nat) : Nat → Nat → Nat
  | 0, r => r
  | k + 1, r => if (r + 2 ^ k) ^ v ≤ u then rootSearch u v k (r + 2 ^ k) else rootSearch u v k r

/-- The greatest `r` with `r ^ v ≤ u`, for `v ≥ 1` and `u < 2^32` (R149). From degree 32 on it is 0 or 1, since
`2 ^ 32 > u`, and no large power is computed. -/
def integerRoot (u v : Nat) : Nat := if 32 ≤ v then min u 1 else rootSearch u v 32 0

/-- ROOT: the exact integer root; a degree of 0 gives 0 and is no fault (R149). -/
def rootValue (u v : Word) : Word := if v.toNat = 0 then 0 else toWord (integerRoot u.toNat v.toNat)

end Sys2Proof.Machine
end

