-- ==== Sys2Proof/Machine/Text.lean ====
section
/-! DEFINITION. Characters: the scalar values of R34, the numerals PDEC and PHEX print (R162, R163), the UTF-8 of
DPM (R200), and the input grammar `strict_digits` (R220). -/

namespace Sys2Proof.Machine

/-- A Unicode scalar value: 0 to 0x10FFFF without 0xD800 to 0xDFFF (R34, R161). -/
def isScalar (v : Nat) : Bool := decide (v ≤ 0x10FFFF) && !(decide (0xD800 ≤ v) && decide (v ≤ 0xDFFF))

/-! ## Numerals -/

/-- The digits of `v` in the base, most significant first, in front of `acc`; `fuel` bounds their number. -/
def digitsFrom (base : Nat) : Nat → Nat → List Nat → List Nat
  | 0, _, acc => acc
  | fuel + 1, v, acc => if v < base then v :: acc else digitsFrom base fuel (v / base) (v % base :: acc)

/-- The character of a digit: `0` to `9` are U+0030 to U+0039, ten on are `A` (U+0041) on (R162, R163). -/
def digitScalar (d : Nat) : Nat := if d < 10 then 0x30 + d else 0x41 + (d - 10)

/-- The shortest numeral of a register value in the base: no sign, no prefix, no leading zero, "0" for 0. A
32-bit value has at most 32 digits. -/
def numeral (base : Nat) (v : Word) : List Scalar := (digitsFrom base 32 v.toNat []).map digitScalar

/-- `dec(v)` of R162. -/
def decText (v : Word) : List Scalar := numeral 10 v

/-- `hex(v)` of R163. -/
def hexText (v : Word) : List Scalar := numeral 16 v

/-! ## UTF-8 -/

/-- A byte in a closed range. -/
def within (lo hi : Nat) (b : Byte) : Bool := decide (lo ≤ b.toNat) && decide (b.toNat ≤ hi)

/-- The second-byte range that a first byte of a three-byte unit allows (R200, third row). -/
def secondOfThree (b0 b1 : Byte) : Bool :=
  if b0.toNat = 0xE0 then within 0xA0 0xBF b1
  else if b0.toNat = 0xED then within 0x80 0x9F b1
  else within 0x80 0xBF b1

/-- The second-byte range that a first byte of a four-byte unit allows (R200, fourth row). -/
def secondOfFour (b0 b1 : Byte) : Bool :=
  if b0.toNat = 0xF0 then within 0x90 0xBF b1
  else if b0.toNat = 0xF4 then within 0x80 0x8F b1
  else within 0x80 0xBF b1

/-- `utf8_decode` of R200: the scalar values of a well-formed byte sequence, none when it is ill-formed. -/
def utf8Decode : List Byte → Option (List Scalar)
  | [] => some []
  | b0 :: r0 =>
    if within 0x00 0x7F b0 then (utf8Decode r0).map (b0.toNat :: ·)
    else match r0 with
    | [] => none
    | b1 :: r1 =>
      if within 0xC2 0xDF b0 then
        if within 0x80 0xBF b1 then
          (utf8Decode r1).map (((b0.toNat - 0xC0) * 64 + (b1.toNat - 0x80)) :: ·)
        else none
      else match r1 with
      | [] => none
      | b2 :: r2 =>
        if within 0xE0 0xEF b0 then
          if secondOfThree b0 b1 && within 0x80 0xBF b2 then
            (utf8Decode r2).map
              (((b0.toNat - 0xE0) * 4096 + (b1.toNat - 0x80) * 64 + (b2.toNat - 0x80)) :: ·)
          else none
        else match r2 with
        | [] => none
        | b3 :: r3 =>
          if within 0xF0 0xF4 b0 then
            if secondOfFour b0 b1 && within 0x80 0xBF b2 && within 0x80 0xBF b3 then
              (utf8Decode r3).map
                (((b0.toNat - 0xF0) * 262144 + (b1.toNat - 0x80) * 4096 + (b2.toNat - 0x80) * 64
                  + (b3.toNat - 0x80)) :: ·)
            else none
          else none

/-! ## Input numerals -/

/-- The value of a digit in the radix: `0` to `9` in both, `A` to `F` and `a` to `f` in radix 16 (R220). -/
def digitValue (radix c : Nat) : Option Nat :=
  if 0x30 ≤ c ∧ c ≤ 0x39 then some (c - 0x30)
  else if radix = 16 ∧ 0x41 ≤ c ∧ c ≤ 0x46 then some (c - 0x41 + 10)
  else if radix = 16 ∧ 0x61 ≤ c ∧ c ≤ 0x66 then some (c - 0x61 + 10)
  else none

/-- The number that digits spell behind the value `v` of the digits before them, most significant first. -/
def digitsValueFrom (radix : Nat) : Nat → List Scalar → Option Nat
  | v, [] => some v
  | v, c :: cs => match digitValue radix c with
    | some d => digitsValueFrom radix (v * radix + d) cs
    | none => none

/-- `value(line, radix)` of R220 where `parses(line, radix)`, and none where it does not: one or more digits and
nothing else, of any length. -/
def parseLine (radix : Nat) : List Scalar → Option Nat
  | [] => none
  | c :: cs => digitsValueFrom radix 0 (c :: cs)

end Sys2Proof.Machine
end

