-- ==== Sys2Proof/Machine/Ops.lean ====
section
/-! DEFINITION. The named operations over the state: the primitives of R9, each written once and used by every
instruction. -/

namespace Sys2Proof.Machine

/-- What a step or an instruction gives. -/
abbrev StepResult := Host.Outcome State Fault Refusal

/-! ## Registers -/

/-- `R[p][i]` of R21. -/
def State.regAt (s : State) (p : PageNo) (i : RegAddr) : Word := (s.regs[p.toNat]'p.isLt)[i.toNat]'i.isLt

/-- `x[i]` of R23: register `i` of the active page. -/
def State.reg (s : State) (i : RegAddr) : Word := s.regAt s.page i

/-- The mirror rule of R24: register 15 of every page takes the value `m`. -/
def mirror15 (m : Word) (regs : Vector (Vector Word 16) 8) : Vector (Vector Word 16) 8 :=
  ([0, 1, 2, 3, 4, 5, 6, 7] : List (Fin 8)).foldl (fun R (q : Fin 8) => R.set q (R[q].set 15 m)) regs

/-- `x[i] <- v` of R24: the store on the active page, then that page's register 15, read after the store, is
copied to register 15 of all pages. -/
def State.setReg (s : State) (i : RegAddr) (v : Word) : State :=
  let stored := s.regs.set s.page.toNat ((s.regs[s.page.toNat]'s.page.isLt).set i.toNat v i.isLt) s.page.isLt
  { s with regs := mirror15 ((stored[s.page.toNat]'s.page.isLt)[15]) stored }

/-- `PG <- p` of R26. -/
def State.setPage (s : State) (p : PageNo) : State := { s with page := p }

/-! ## Ending a run -/

/-- The code of a class in `RES.class` (R36). -/
def RunClass.bits : RunClass → BitVec 2
  | .running => 0
  | .halted => 1
  | .isaFault => 2
  | .resource => 3

/-- What `RES` records of an event (R230). -/
def Event.result : Event → Result
  | .haltSuccess => { cls := .halted, code := 0 }
  | .haltFailure => { cls := .halted, code := 1 }
  | .endOfStream => { cls := .halted, code := 2 }
  | .rootBlockEnd => { cls := .halted, code := 3 }
  | .unexpectedEnd => { cls := .isaFault, code := 0 }
  | .stackUnderflow => { cls := .isaFault, code := 1 }
  | .malformedInput => { cls := .isaFault, code := 2 }
  | .invalidCharacter => { cls := .isaFault, code := 3 }
  | .framesExhausted => { cls := .resource, code := 0 }
  | .stackExhausted => { cls := .resource, code := 1 }

/-- `RES.success` of R36: 1 when the class is `HALTED` and the code is 0, 2 or 3. -/
def Result.success (r : Result) : Bool :=
  decide (r.cls = .halted) && (decide (r.code = 0) || decide (r.code = 2) || decide (r.code = 3))

/-- What happens when any event of R230 occurs, `raise Fault(kind)` and `halt(code)` among them (R238): `RES` is
written with the event's class and code and every frame is discarded. Nothing is saved, nothing is rolled back
(R239), and there is no return from it (R243). -/
def State.endRun (s : State) (ev : Event) : State := { s with res := ev.result, frames := [] }

/-! ## The evaluation stack -/

/-- A capacity of R6 is used up by `n` entries (assumption 8); an infinite one never is. -/
def exhausted (capacity : Option Nat) (n : Nat) : Bool :=
  match capacity with
  | none => false
  | some d => decide (d ≤ n)

/-- `push(v)` of R27: `v` becomes the newest entry, unless the stack already holds `STACK_DEPTH` entries. -/
def State.pushEntry (s : State) (v : Word) : State :=
  if exhausted s.params.stackDepth s.stack.length then s.endRun .stackExhausted
  else { s with stack := v :: s.stack }

/-! ## The function table -/

/-- `FT[id]` of R28. -/
def State.func (s : State) (id : FuncId) : Option Span := s.funcs[id.toNat]'id.isLt

/-- `FT[id] <- f` of R28. -/
def State.setFunc (s : State) (id : FuncId) (f : Option Span) : State :=
  { s with funcs := s.funcs.set id.toNat f id.isLt }

/-! ## The output channel -/

/-- `emit_text` of R34: append the characters, in order. -/
def State.emit (s : State) (text : List Scalar) : State := { s with out := s.out ++ text }

/-! ## The current frame -/

/-- Move the top frame's cursor `n` bits on. -/
def advanceTop (n : Nat) : List Frame → List Frame
  | [] => []
  | f :: fs => { f with pc := f.pc + n } :: fs

/-- Advance the current frame's `pc` by `n` bits (R32). -/
def State.advance (s : State) (n : Nat) : State := { s with frames := advanceTop n s.frames }

/-- The bits the frame has left, from its `pc` to the end of its body (R56, R100). -/
def State.remaining (s : State) (f : Frame) : Bits := s.mem.bits f.pc (f.body.stop - f.pc)

/-- `enter(kind, span)` of R107: a new frame over the span, unless the frame stack already holds `FRAME_DEPTH`
frames. -/
def State.enter (s : State) (kind : FrameKind) (body : Span) : State :=
  if exhausted s.params.frameDepth s.frames.length then s.endRun .framesExhausted
  else { s with frames := { pc := body.start, body := body, kind := kind } :: s.frames }

/-- Replace the top frame by `f`, whose body is executed again from its first bit (R106). -/
def State.restart (s : State) (f : Frame) (kind : FrameKind) (below : List Frame) : State :=
  { s with frames := { f with pc := f.body.start, kind := kind } :: below }

/-- "pop F" of R106: the frame below becomes current. -/
def State.popFrame (s : State) (below : List Frame) : State := { s with frames := below }

/-- `frame_end()` of R106: the current frame has executed its body once more. -/
def State.frameEnd (s : State) : StepResult :=
  match s.frames with
  | [] => .fault .noCurrentFrame
  | f :: below =>
    match f.kind with
    | .root => .next (s.endRun .endOfStream)
    | .once => .next (s.popFrame below)
    | .call => .next (s.popFrame below)
    | .repeats k => if 1 < k then .next (s.restart f (.repeats (k - 1)) below) else .next (s.popFrame below)
    | .counts a i n =>
      if i < n then .next ((s.restart f (.counts a (i + 1) n) below).setReg a (toWord (i + 1)))
      else .next (s.popFrame below)
    | .loops a1 c a2 =>
      if condHolds c (s.reg a1) (s.reg a2) then .next (s.restart f (.loops a1 c a2) below)
      else .next (s.popFrame below)

/-- The tail rule of R103: 1 or 2 bits are left where a class tag is due. All-zero bits end the root frame under
`zero_pad`; anything else is `UnexpectedEnd`. -/
def State.tail (s : State) (f : Frame) : StepResult :=
  if s.params.tailPolicy = .zeroPad ∧ f.kind = .root ∧
      peekBits (f.body.stop - f.pc) (s.remaining f) = .ok 0 then s.frameEnd
  else .next (s.endRun .unexpectedEnd)

/-! ## The start of a run -/

/-- The host supplies the image as bits and starts it (R262): the root frame stands at bit 0 of the whole image
and the run is in progress. The rest of the state is left as it is. -/
def State.loadImage (s : State) (image : Bits) : State :=
  { s with
    mem := Memory.ofBits image
    frames := [{ pc := 0, body := { start := 0, stop := image.length }, kind := .root }]
    res := { cls := .running, code := 0 } }

end Sys2Proof.Machine
end

