-- ==== Sys2Proof/Machine/Arithmetic.lean ====
section
/-! DEFINITION. The class ARITHMETIC (R140 to R149). No instruction of it can fault once it is decoded. -/

namespace Sys2Proof.Machine

/-- The law common to the two-register modes (R141): both operands are read on the active page before the write,
`a1` is the destination and the left operand, and there is exactly one register write. -/
def arithmetic (f : Word → Word → Word) (a1 a2 : RegAddr) (s : State) : StepResult :=
  .next ((s.advance 14).setReg a1 (f (s.reg a1) (s.reg a2)))

/-- ADD (R142). -/
def execAdd (a1 a2 : RegAddr) (s : State) : StepResult := arithmetic addValue a1 a2 s

/-- SUB (R143). -/
def execSub (a1 a2 : RegAddr) (s : State) : StepResult := arithmetic subValue a1 a2 s

/-- MUL (R144). -/
def execMul (a1 a2 : RegAddr) (s : State) : StepResult := arithmetic mulValue a1 a2 s

/-- DIV (R145). -/
def execDiv (a1 a2 : RegAddr) (s : State) : StepResult := arithmetic divValue a1 a2 s

/-- MOV: all 32 bits of `a2` (R146). -/
def execMov (a1 a2 : RegAddr) (s : State) : StepResult := arithmetic (fun _ v => v) a1 a2 s

/-- POW (R148). -/
def execPow (a1 a2 : RegAddr) (s : State) : StepResult := arithmetic powValue a1 a2 s

/-- ROOT (R149). -/
def execRoot (a1 a2 : RegAddr) (s : State) : StepResult := arithmetic rootValue a1 a2 s

/-- Load immediate, `n` bits of it: zero-extended into the destination (R147), the instruction being `12 + n` bits
long (R76). -/
def loadImmediate {n : Nat} (d : RegAddr) (imm : BitVec n) (s : State) : StepResult :=
  .next ((s.advance (12 + n)).setReg d (zext imm))

/-- LDI8 (R147). -/
def execLdi8 (d : RegAddr) (imm : BitVec 8) (s : State) : StepResult := loadImmediate d imm s

/-- LDI16 (R147). -/
def execLdi16 (d : RegAddr) (imm : BitVec 16) (s : State) : StepResult := loadImmediate d imm s

/-- LDI24 (R147). -/
def execLdi24 (d : RegAddr) (imm : BitVec 24) (s : State) : StepResult := loadImmediate d imm s

/-- LDI32 (R147). -/
def execLdi32 (d : RegAddr) (imm : BitVec 32) (s : State) : StepResult := loadImmediate d imm s

end Sys2Proof.Machine
end

