-- ==== Sys2Proof/Machine/Capture.lean ====
section
/-! DEFINITION. The skip engine of `44_block_capture.md`: walking over instructions without executing them to find
the end of a body. It reads every instruction by `decode`, the one operand-width table (R82), so that it cannot
disagree with the executing engine. -/

namespace Sys2Proof.Machine

/-- The loop of R171 from the tag at address `pos`, whose bits are the first of `bs`: the address of the
BLOCK-END tag that brings the nesting counter to 0. `fuel` bounds the instructions walked over. -/
def captureLoop : Nat → Nat → Nat → Bits → Except DecodeError Nat
  | 0, _, _, _ => .error .unexpectedEnd
  | fuel + 1, depth, pos, bs =>
    match decode bs with
    | .error e => .error e
    | .ok (i, rest) =>
      match i.nesting with
      | .opens => captureLoop fuel (depth + 1) (pos + i.width) rest
      | .flat => captureLoop fuel depth (pos + i.width) rest
      | .closes => if depth - 1 = 0 then .ok pos else captureLoop fuel (depth - 1) (pos + i.width) rest

/-- `capture()` of R171 with `pc` at address `start` in a frame that ends at `stop`: the body's span. The nesting
counter starts at 1 (R172). Every instruction is at least 3 bits long, so that one walk per bit is enough. -/
def State.capture (s : State) (start stop : Nat) : Except DecodeError Span :=
  match captureLoop (stop - start + 1) 1 start (s.mem.bits start (stop - start)) with
  | .ok t => .ok { start := start, stop := t }
  | .error e => .error e

/-- Set the current frame's cursor to bit address `target`. -/
def State.moveTo (s : State) (target : Nat) : State :=
  { s with frames := match s.frames with
      | [] => []
      | f :: below => { f with pc := target } :: below }

/-- A body-bearing BLOCK whose header is `header` bits long (R105, R185): its body is captured first; when the
capture runs off the frame's end the run ends with `UnexpectedEnd` (R176); else `act` has the body, and the `pc`
is past the matching END (R170). -/
def State.withBody (s : State) (header : Nat) (act : Span → State → State) : StepResult :=
  match s.frames with
  | [] => .fault .noCurrentFrame
  | f :: _ =>
    match s.capture (f.pc + header) f.body.stop with
    | .error .unexpectedEnd => .next (s.endRun .unexpectedEnd)
    | .ok body => .next (act body (s.moveTo (body.stop + 3)))

end Sys2Proof.Machine
end

