-- ==== Sys2Proof/Machine/Block.lean ====
section
/-! DEFINITION. The classes BLOCK and BLOCK-END (R185 to R200): the whole of the machine's control transfer. -/

namespace Sys2Proof.Machine

/-- IF: the condition is evaluated once, at entry (R187). -/
def execIf (a1 : RegAddr) (c : Cond) (a2 : RegAddr) (s : State) : StepResult :=
  s.withBody 16 fun body t => if condHolds c (s.reg a1) (s.reg a2) then t.enter .once body else t

/-- REPEAT: the count is sampled once, at entry; a count of 0 skips the body (R188). -/
def execRepeat (a : RegAddr) (s : State) : StepResult :=
  s.withBody 10 fun body t => if 1 ≤ (s.reg a).toNat then t.enter (.repeats (s.reg a).toNat) body else t

/-- FUNCDEF: the body is stored, overwriting what was there, and not executed (R189); an empty one is stored as the
empty span (R28, assumption 12). -/
def execFuncDef (id : FuncId) (s : State) : StepResult :=
  s.withBody 10 fun body t => t.setFunc id (some body)

/-- FUNCUNDEF (R190). -/
def execFuncUndef (id : FuncId) (s : State) : StepResult := .next ((s.advance 10).setFunc id none)

/-- CALL: a non-empty stored body is entered; an absent or empty one is a silent no-operation (R191). -/
def execCall (id : FuncId) (s : State) : StepResult :=
  match s.func id with
  | none => .next (s.advance 10)
  | some body => if body.start < body.stop then .next ((s.advance 10).enter .call body) else .next (s.advance 10)

/-- `for_start` of R194: the first index write precedes the entry of the frame. -/
def State.forStart (t : State) (a : RegAddr) (n : Nat) (body : Span) : State :=
  if 1 ≤ n then (t.setReg a (toWord 1)).enter (.counts a 1 n) body else t

/-- FOR with an immediate count (R192). -/
def execForImm (a : RegAddr) (n : BitVec 8) (s : State) : StepResult :=
  s.withBody 19 fun body t => t.forStart a n.toNat body

/-- FOR with its count in a register, sampled once at entry, before the first index write (R193). -/
def execForReg (a a2 : RegAddr) (s : State) : StepResult :=
  s.withBody 15 fun body t => t.forStart a (s.reg a2).toNat body

/-- WHILE: the condition is evaluated before every execution of the body, the first time here and then at each
end of the frame (R195). -/
def execWhile (a1 : RegAddr) (c : Cond) (a2 : RegAddr) (s : State) : StepResult :=
  s.withBody 16 fun body t => if condHolds c (s.reg a1) (s.reg a2) then t.enter (.loops a1 c a2) body else t

/-- DPM: the payload, decoded as UTF-8, is emitted verbatim; one that is not well-formed faults and emits
nothing (R196). -/
def execDpm (payload : List Byte) (s : State) : StepResult :=
  match utf8Decode payload with
  | none => .next ((s.advance (22 + 8 * payload.length)).endRun .invalidCharacter)
  | some text => .next ((s.advance (22 + 8 * payload.length)).emit text)

/-- END: in the root frame the run ends, in any other the frame has executed its body once more (R197). -/
def execBlockEnd (s : State) : StepResult :=
  match s.frames with
  | [] => .fault .noCurrentFrame
  | f :: _ =>
    match f.kind with
    | .root => .next ((s.advance 3).endRun .rootBlockEnd)
    | .once => (s.advance 3).frameEnd
    | .call => (s.advance 3).frameEnd
    | .repeats _ => (s.advance 3).frameEnd
    | .counts _ _ _ => (s.advance 3).frameEnd
    | .loops _ _ _ => (s.advance 3).frameEnd

end Sys2Proof.Machine
end

