-- ==== Sys2Proof/Machine/Display.lean ====
section
/-! DEFINITION. The class DISPLAY (R160 to R165). Each instruction appends to the output exactly the characters its
rule names, with no separator (R165), and changes nothing else but the `pc`. -/

namespace Sys2Proof.Machine

/-- PCHR: the register's value as a character; a value that is no scalar value faults and emits nothing (R161). -/
def execPchr (a : RegAddr) (s : State) : StepResult :=
  if isScalar (s.reg a).toNat then .next ((s.advance 9).emit [(s.reg a).toNat])
  else .next ((s.advance 9).endRun .invalidCharacter)

/-- PDEC (R162). -/
def execPdec (a : RegAddr) (s : State) : StepResult := .next ((s.advance 9).emit (decText (s.reg a)))

/-- PHEX (R163). -/
def execPhex (a : RegAddr) (s : State) : StepResult := .next ((s.advance 9).emit (hexText (s.reg a)))

/-- PLIT: the literal itself is the scalar value (R164). -/
def execPlit (lit : Byte) (s : State) : StepResult := .next ((s.advance 13).emit [lit.toNat])

end Sys2Proof.Machine
end

