-- ==== Sys2Proof/Machine/Io.lean ====
section
/-! DEFINITION. The class IO (R215 to R221): the deliberate halts and the console input. -/

namespace Sys2Proof.Machine

/-- HALT: the whole run ends with success (R216, R236). -/
def execHalt (s : State) : StepResult := .next ((s.advance 5).endRun .haltSuccess)

/-- FAIL: the whole run ends with failure, which is no fault (R217, R236). -/
def execFail (s : State) : StepResult := .next ((s.advance 5).endRun .haltFailure)

/-- The input instructions (R218 to R220): one line is taken; a line that does not parse is consumed and the run
ends; else its value goes to the register. With no line available the machine waits inside the instruction with
all its state preserved (R221, R250): the next state is this one, so that the instruction is taken up again when
a line has arrived (DEDUCED, assumption 4). -/
def inputNumber (radix : Nat) (a : RegAddr) (s : State) : StepResult :=
  match s.input with
  | [] => .next s
  | line :: later =>
    match parseLine radix line with
    | none => .next (({ s with input := later }.advance 9).endRun .malformedInput)
    | some v => .next (({ s with input := later }.advance 9).setReg a (toWord v))

/-- INHEX (R218). -/
def execInHex (a : RegAddr) (s : State) : StepResult := inputNumber 16 a s

/-- INDEC (R219). -/
def execInDec (a : RegAddr) (s : State) : StepResult := inputNumber 10 a s

end Sys2Proof.Machine
end

