-- ==== Sys2Proof/Machine/Manipulate.lean ====
section
/-! DEFINITION. NOP (R109), the class MANIPULATE (R120 to R127) and PAGE-SELECT (R128). A meaning is given the state
at the instruction's first bit; it moves the current frame's `pc` past the instruction (R32) and performs it. -/

namespace Sys2Proof.Machine

/-- NOP: nothing but the advance of `pc` (R109). -/
def execNop (s : State) : StepResult := .next (s.advance 3)

/-- The MANIPULATE writes of R121 to R124: register `a` takes `f` of its value. -/
def manipulateRegister (a : RegAddr) (f : Word → Word) (s : State) : StepResult :=
  .next ((s.advance 10).setReg a (f (s.reg a)))

/-- INC (R121). -/
def execInc (a : RegAddr) (s : State) : StepResult := manipulateRegister a incValue s

/-- DEC (R122). -/
def execDec (a : RegAddr) (s : State) : StepResult := manipulateRegister a decValue s

/-- CLR (R123). -/
def execClr (a : RegAddr) (s : State) : StepResult := manipulateRegister a (fun _ => 0) s

/-- RST: the value is the address field itself (R124). -/
def execRst (a : RegAddr) (s : State) : StepResult := manipulateRegister a (fun _ => zext a) s

/-- PUSH: the register's whole value is pushed and the register is not written (R125). -/
def execPush (a : RegAddr) (s : State) : StepResult := .next ((s.advance 10).pushEntry (s.reg a))

/-- POP: the newest entry leaves the stack and its low bits reach the register; underflow writes nothing (R126). -/
def execPop (a : RegAddr) (s : State) : StepResult :=
  match s.stack with
  | [] => .next ((s.advance 10).endRun .stackUnderflow)
  | v :: below => .next (({ s with stack := below }.advance 10).setReg a (popValue s.params.popMask v))

/-- MRES6, a reserved mode: 10 bits, the address ignored, no effect (R127). -/
def execMres6 (_a : RegAddr) (s : State) : StepResult := .next (s.advance 10)

/-- MRES7, a reserved mode: 10 bits, the address ignored, no effect (R127). -/
def execMres7 (_a : RegAddr) (s : State) : StepResult := .next (s.advance 10)

/-- PAGE: the active page; no register is written (R128). -/
def execPage (p : PageNo) (s : State) : StepResult := .next ((s.advance 6).setPage p)

end Sys2Proof.Machine
end

