-- ==== Sys2Proof/Machine/Dispatch.lean ====
section
/-! DEFINITION. The dispatch of R104: one arm for each instruction. The state is the one at the instruction's first
bit, and each meaning moves the `pc` itself. -/

namespace Sys2Proof.Machine

def exec (i : Instr) (s : State) : Host.Outcome State Fault Refusal :=
  match i with
  | .nop => Sys2Proof.Machine.execNop s
  | .inc a => Sys2Proof.Machine.execInc a s
  | .dec a => Sys2Proof.Machine.execDec a s
  | .clr a => Sys2Proof.Machine.execClr a s
  | .rst a => Sys2Proof.Machine.execRst a s
  | .push a => Sys2Proof.Machine.execPush a s
  | .pop a => Sys2Proof.Machine.execPop a s
  | .mres6 a => Sys2Proof.Machine.execMres6 a s
  | .mres7 a => Sys2Proof.Machine.execMres7 a s
  | .page p => Sys2Proof.Machine.execPage p s
  | .add a1 a2 => Sys2Proof.Machine.execAdd a1 a2 s
  | .sub a1 a2 => Sys2Proof.Machine.execSub a1 a2 s
  | .mul a1 a2 => Sys2Proof.Machine.execMul a1 a2 s
  | .div a1 a2 => Sys2Proof.Machine.execDiv a1 a2 s
  | .mov a1 a2 => Sys2Proof.Machine.execMov a1 a2 s
  | .ldi8 d imm => Sys2Proof.Machine.execLdi8 d imm s
  | .ldi16 d imm => Sys2Proof.Machine.execLdi16 d imm s
  | .ldi24 d imm => Sys2Proof.Machine.execLdi24 d imm s
  | .ldi32 d imm => Sys2Proof.Machine.execLdi32 d imm s
  | .pow a1 a2 => Sys2Proof.Machine.execPow a1 a2 s
  | .root a1 a2 => Sys2Proof.Machine.execRoot a1 a2 s
  | .pchr a => Sys2Proof.Machine.execPchr a s
  | .pdec a => Sys2Proof.Machine.execPdec a s
  | .phex a => Sys2Proof.Machine.execPhex a s
  | .plit lit => Sys2Proof.Machine.execPlit lit s
  | .ifBlock a1 c a2 => Sys2Proof.Machine.execIf a1 c a2 s
  | .repeatBlock a => Sys2Proof.Machine.execRepeat a s
  | .funcDef id => Sys2Proof.Machine.execFuncDef id s
  | .funcUndef id => Sys2Proof.Machine.execFuncUndef id s
  | .call id => Sys2Proof.Machine.execCall id s
  | .forImm a n => Sys2Proof.Machine.execForImm a n s
  | .forReg a a2 => Sys2Proof.Machine.execForReg a a2 s
  | .whileBlock a1 c a2 => Sys2Proof.Machine.execWhile a1 c a2 s
  | .dpm payload => Sys2Proof.Machine.execDpm payload s
  | .blockEnd => Sys2Proof.Machine.execBlockEnd s
  | .halt => Sys2Proof.Machine.execHalt s
  | .fail => Sys2Proof.Machine.execFail s
  | .inHex a => Sys2Proof.Machine.execInHex a s
  | .inDec a => Sys2Proof.Machine.execInDec a s

end Sys2Proof.Machine
end

