-- ==== Sys2Proof/Machine/Fetch.lean ====
section
/-! DEFINITION. What the next step is (R102, R103): the end of the frame, the tail rule, or the instruction that the
current frame's bits decode to. -/

namespace Sys2Proof.Machine

/-- What a step has to do. -/
inductive Pending where
  /-- No instruction is due, and this is the step's result. -/
  | settled (r : StepResult)
  /-- The instruction at the current frame's `pc`. -/
  | instruction (i : Instr)

/-- R102. Once the run has ended nothing executes and no state changes until reset (R36, R264; DEDUCED, assumption
3). While it is in progress the step acts on the current frame, by how many bits that frame has left: none, the
end of the frame; 1 or 2, the tail rule; else an instruction, whose tag and fields are read before any effect, so
that a field that does not fit raises `UnexpectedEnd` (R105). -/
def State.fetch (s : State) : Pending :=
  match s.res.cls with
  | .halted => .settled (.next s)
  | .isaFault => .settled (.next s)
  | .resource => .settled (.next s)
  | .running =>
    match s.frames with
    | [] => .settled (.fault .noCurrentFrame)
    | f :: _ =>
      if f.body.stop - f.pc = 0 then .settled s.frameEnd
      else if f.body.stop - f.pc < 3 then .settled (s.tail f)
      else
        match decode (s.remaining f) with
        | .error .unexpectedEnd => .settled (.next (s.endRun .unexpectedEnd))
        | .ok (i, _) => .instruction i

end Sys2Proof.Machine
end

