-- ==== Sys2Proof/Machine/Step.lean ====
section
/-! DEFINITION. One step of the machine (R102), and how the host's word comes to stand where the step fetches. -/

namespace Sys2Proof.Machine

/-- One step: what `State.fetch` finds due (R102), an instruction being executed whole (R104). -/
def step (s : State) : Host.Outcome State Fault Refusal :=
  match s.fetch with
  | .settled r => r
  | .instruction i => exec i s

/-- `s` with the opcode table's word `w` loaded as the whole image and the run started on it (assumption 6): the
next step decodes the instruction at bit 0. Registers, page, stack, function table, output, input lines and
parameters are those of `s`. -/
def State.withFetchWord (s : State) (nbits w : Nat) : State := s.loadImage (tableImage nbits w)

end Sys2Proof.Machine
end

