-- ==== Sys2Proof/Machine/SkipEngine.lean ====
section
/-! DEFINITION. The skip engine as R171 writes it, with every field width spelled out a second time. The machine
does not run it: `State.capture` (Machine/Capture.lean) walks by the decoder itself. It stands here so that the
agreement of the two, which R178 calls the most dangerous obligation of a model with two tables, can be stated. -/

namespace Sys2Proof.Machine

/-- A cursor of R100: the address of the next unread bit and the bits that are left from there on. -/
structure SkipCursor where
  pos : Nat
  left : Bits
deriving DecidableEq, Repr

/-- `read(n)` of R100. -/
def skipRead (n : Nat) (k : SkipCursor) : Except DecodeError (Nat × SkipCursor) :=
  match readBits n k.left with
  | .ok (v, rest) => .ok (v, { pos := k.pos + n, left := rest })
  | .error e => .error e

/-- A field whose value does not matter. -/
def skipField (n : Nat) (k : SkipCursor) : Except DecodeError SkipCursor := do
  let (_, k) ← skipRead n k
  pure k

/-- "repeat n times: read(8)" of R171. -/
def skipPayload : Nat → SkipCursor → Except DecodeError SkipCursor
  | 0, k => .ok k
  | n + 1, k => do
    let k ← skipField 8 k
    skipPayload n k

/-- The BLOCK arm of R171 after the tag: whether `depth` goes up, and the cursor. -/
def skipBlock (k : SkipCursor) : Except DecodeError (Nesting × SkipCursor) := do
  let (st, k) ← skipRead 3 k
  if st = 0 ∨ st = 6 then
    let k ← skipField 4 k
    let k ← skipField 2 k
    let k ← skipField 4 k
    pure (.opens, k)
  else if st = 1 ∨ st = 2 then
    let k ← skipField 4 k
    pure (.opens, k)
  else if st = 3 ∨ st = 4 then
    let k ← skipField 4 k
    pure (.flat, k)
  else if st = 5 then
    let (m, k) ← skipRead 1 k
    let k ← skipField 4 k
    let k ← skipField (if m = 0 then 8 else 4) k
    pure (.opens, k)
  else
    let (n, k) ← skipRead 16 k
    let k ← skipPayload n k
    pure (.flat, k)

/-- One instruction of R171's loop, its tag included. -/
def skipInstruction (k : SkipCursor) : Except DecodeError (Nesting × SkipCursor) := do
  let (tag, k) ← skipRead 3 k
  if tag = 0 then pure (.flat, k)
  else if tag = 1 then
    let k ← skipField 3 k
    let k ← skipField 4 k
    pure (.flat, k)
  else if tag = 2 then
    let k ← skipField 3 k
    pure (.flat, k)
  else if tag = 3 then
    let (m, k) ← skipRead 3 k
    if m = 5 then
      let (w, k) ← skipRead 2 k
      let k ← skipField 4 k
      let k ← skipField (8 * (w + 1)) k
      pure (.flat, k)
    else
      let k ← skipField 4 k
      let k ← skipField 4 k
      pure (.flat, k)
  else if tag = 4 then
    let (m, k) ← skipRead 2 k
    let k ← skipField (if m = 3 then 8 else 4) k
    pure (.flat, k)
  else if tag = 5 then skipBlock k
  else if tag = 6 then pure (.closes, k)
  else
    let (sc, k) ← skipRead 2 k
    if 2 ≤ sc then
      let k ← skipField 4 k
      pure (.flat, k)
    else pure (.flat, k)

/-- The loop of R171: the address `t` of the tag that brings `depth` to 0. `fuel` bounds the instructions. -/
def skipLoop : Nat → Nat → SkipCursor → Except DecodeError Nat
  | 0, _, _ => .error .unexpectedEnd
  | fuel + 1, depth, k =>
    let t := k.pos
    match skipInstruction k with
    | .error e => .error e
    | .ok (.opens, k) => skipLoop fuel (depth + 1) k
    | .ok (.flat, k) => skipLoop fuel depth k
    | .ok (.closes, k) => if depth - 1 = 0 then .ok t else skipLoop fuel (depth - 1) k

end Sys2Proof.Machine
end

