-- ==== Sys2Proof/Safety.lean ====
section
/-! DEFINITION. The terms the statements are written in: what a good state is, what an instruction writes and what
it leaves alone, and the spec's own tables (conditions, UTF-8 units, numerals, sources of events) as predicates. -/

namespace Sys2Proof.Machine

/-! ## Bits and encodings -/

/-- A bit string as the spec writes it, a digit a bit. -/
def stream (digits : List Nat) : Bits := digits.map fun d => decide (d = 1)

/-- `row` is the encoding of `i`: whatever follows it in the frame, it decodes to `i` and is consumed exactly; and
cut anywhere it is an `UnexpectedEnd` (R100, R105). -/
def EncodedAs (row : Bits) (i : Instr) : Prop :=
  (∀ rest, decode (row ++ rest) = .ok (i, rest)) ∧
    ∀ k < row.length, decode (row.take k) = .error .unexpectedEnd

/-! ## What an instruction writes, and its frame -/

/-- From `s` to `t` the registers change as by `x[a] <- v` of R24: register `a` of the active page takes `v`, then
register 15 of every page takes what register 15 of the active page holds, and no other register changes. -/
def WritesRegister (s t : State) (a : RegAddr) (v : Word) : Prop :=
  ∀ p j, t.regAt p j =
    if j = 15 then (if a = 15 then v else s.reg 15)
    else if p = s.page ∧ j = a then v
    else s.regAt p j

/-- The image is the same, and so is every bit read from it. -/
def SameImage (s t : State) : Prop := t.mem = s.mem ∧ ∀ x, t.mem.bitAt x = s.mem.bitAt x

/-- Nothing but registers has changed, and the current frame's `pc` is `n` bits further on. -/
def SameButRegisters (n : Nat) (s t : State) : Prop :=
  t.page = s.page ∧ t.stack = s.stack ∧ t.funcs = s.funcs ∧ t.frames = advanceTop n s.frames ∧
    t.out = s.out ∧ t.res = s.res ∧ SameImage s t ∧ t.input = s.input ∧ t.params = s.params

/-- No register has changed either. -/
def SameState (n : Nat) (s t : State) : Prop := t.regs = s.regs ∧ SameButRegisters n s t

/-- The run has ended with this result: every frame is gone, and all other state is as it was (R238, R239). -/
def Ended (cls : RunClass) (code : BitVec 2) (s t : State) : Prop :=
  t.res = { cls := cls, code := code } ∧ t.frames = [] ∧ t.regs = s.regs ∧ t.page = s.page ∧
    t.stack = s.stack ∧ t.funcs = s.funcs ∧ t.out = s.out ∧ SameImage s t ∧ t.input = s.input ∧
    t.params = s.params

/-! ## Conditions -/

/-- The table of R186. -/
def Comparison : Cond → Nat → Nat → Prop
  | .eq, u, v => u = v
  | .le, u, v => u ≤ v
  | .ge, u, v => u ≥ v
  | .ne, u, v => u ≠ v

/-- The condition field of R79, as the spec writes it. -/
def conditionBits : Cond → Bits
  | .eq => stream [0,0]
  | .le => stream [0,1]
  | .ge => stream [1,0]
  | .ne => stream [1,1]

/-! ## Blocks -/

/-- There is room for one more frame (R107). -/
def FrameRoom (s : State) : Prop := ∀ d, s.params.frameDepth = some d → s.frames.length < d

/-- The frame stack holds exactly `FRAME_DEPTH` frames, the test of R107. -/
def FrameFull (s : State) : Prop := s.params.frameDepth = some s.frames.length

/-- The same state with an infinite `FRAME_DEPTH`. -/
def State.withoutFrameDepth (s : State) : State := { s with params := { s.params with frameDepth := none } }

/-- When the capture runs off the frame's end, the block ends the run with `UnexpectedEnd` (R105, R176). -/
def FailsUncaptured (header : Nat) (i : Instr) (s : State) (f : Frame) : Prop :=
  s.capture (f.pc + header) f.body.stop = .error .unexpectedEnd →
    ∃ t, exec i s = .next t ∧ Ended .isaFault 0 s t

/-- The block does nothing but move the `pc` past its END. -/
def Skipped (i : Instr) (s : State) (f : Frame) (below : List Frame) (body : Span) : Prop :=
  exec i s = .next { s with frames := { f with pc := body.stop + 3 } :: below }

/-- The block enters its body in a new frame of the kind, the frame under it standing past the block's END, or,
on a full frame stack, ends the run (R107). `r` is the state with the block's own register write. -/
def Entered (i : Instr) (s r : State) (f : Frame) (below : List Frame) (body : Span) (kind : FrameKind) : Prop :=
  (FrameRoom s → exec i s = .next { r with
    frames := { pc := body.start, body := body, kind := kind } :: { f with pc := body.stop + 3 } :: below }) ∧
  (FrameFull s → ∃ t, exec i s = .next t ∧ Ended .resource 0 r t)

/-- A FOR of `n` iterations with index register `a` (R194): with none the body is skipped and nothing is written;
else the index takes 1 and the body is entered. -/
def ForStarts (i : Instr) (a : RegAddr) (n : Nat) (s : State) (f : Frame) (below : List Frame) (body : Span) :
    Prop :=
  (n = 0 → Skipped i s f below body) ∧
  (1 ≤ n → ∃ r, WritesRegister s r a 1 ∧ SameButRegisters 0 s r ∧
    Entered i s r f below body (.counts a 1 n))

/-! ## Characters -/

/-- The characters of the digits 0 to 15: U+0030 to U+0039, then U+0041 to U+0046 (R162, R163). -/
def digitCharacters : List Scalar :=
  [0x30, 0x31, 0x32, 0x33, 0x34, 0x35, 0x36, 0x37, 0x38, 0x39, 0x41, 0x42, 0x43, 0x44, 0x45, 0x46]

/-- `text` is the shortest numeral of `v` in the base (R162, R163): the characters of at least one digit, most
significant first, which spell `v`, with no leading zero but in the numeral of zero. -/
def IsNumeral (base v : Nat) (text : List Scalar) : Prop :=
  ∃ ds : List Nat, text = ds.map (fun d => digitCharacters.getD d 0) ∧ ds ≠ [] ∧ (∀ d ∈ ds, d < base) ∧
    ds.foldl (fun n d => n * base + d) 0 = v ∧ (ds.head? = some 0 → ds = [0])

/-- A byte in a closed range. -/
def InRange (lo hi : Nat) (b : Byte) : Prop := lo ≤ b.toNat ∧ b.toNat ≤ hi

/-- The table of R200: a unit of well-formed UTF-8 and its scalar value. -/
def Utf8Unit : List Byte → Nat → Prop
  | [b0], c => InRange 0x00 0x7F b0 ∧ c = b0.toNat
  | [b0, b1], c => InRange 0xC2 0xDF b0 ∧ InRange 0x80 0xBF b1 ∧
      c = (b0.toNat - 0xC0) * 64 + (b1.toNat - 0x80)
  | [b0, b1, b2], c =>
      (InRange 0xE0 0xE0 b0 ∧ InRange 0xA0 0xBF b1 ∨ InRange 0xE1 0xEC b0 ∧ InRange 0x80 0xBF b1 ∨
        InRange 0xED 0xED b0 ∧ InRange 0x80 0x9F b1 ∨ InRange 0xEE 0xEF b0 ∧ InRange 0x80 0xBF b1) ∧
      InRange 0x80 0xBF b2 ∧
      c = (b0.toNat - 0xE0) * 4096 + (b1.toNat - 0x80) * 64 + (b2.toNat - 0x80)
  | [b0, b1, b2, b3], c =>
      (InRange 0xF0 0xF0 b0 ∧ InRange 0x90 0xBF b1 ∨ InRange 0xF1 0xF3 b0 ∧ InRange 0x80 0xBF b1 ∨
        InRange 0xF4 0xF4 b0 ∧ InRange 0x80 0x8F b1) ∧
      InRange 0x80 0xBF b2 ∧ InRange 0x80 0xBF b3 ∧
      c = (b0.toNat - 0xF0) * 262144 + (b1.toNat - 0x80) * 4096 + (b2.toNat - 0x80) * 64 + (b3.toNat - 0x80)
  | _, _ => False

/-- A character that R220 takes for the digit `d` of radix 10 or 16. -/
def IsDigit (radix c d : Nat) : Prop :=
  0x30 ≤ c ∧ c ≤ 0x39 ∧ d = c - 0x30 ∨
  radix = 16 ∧ 0x61 ≤ c ∧ c ≤ 0x66 ∧ d = c - 0x61 + 10 ∨
  radix = 16 ∧ 0x41 ≤ c ∧ c ≤ 0x46 ∧ d = c - 0x41 + 10

/-! ## Sources of events -/

/-- The column "raised by" of R230, for the instructions (the end of the root frame, the tail rule and a field
that does not fit are no instruction's): a body-bearing BLOCK raises `UnexpectedEnd` in its capture. -/
def MayRaise : Event → Instr → Prop
  | .haltSuccess, i => i = .halt
  | .haltFailure, i => i = .fail
  | .endOfStream, _ => False
  | .rootBlockEnd, i => i = .blockEnd
  | .unexpectedEnd, i => i.nesting = .opens
  | .stackUnderflow, i => ∃ a, i = .pop a
  | .malformedInput, i => ∃ a, i = .inHex a ∨ i = .inDec a
  | .invalidCharacter, i => (∃ a, i = .pchr a) ∨ ∃ payload, i = .dpm payload
  | .framesExhausted, i => (i.nesting = .opens ∧ ∀ id, i ≠ .funcDef id) ∨ ∃ id, i = .call id
  | .stackExhausted, i => ∃ a, i = .push a

/-- The instruction that a running state's current frame decodes next. -/
def NextInstr (s : State) (i : Instr) : Prop :=
  s.res.cls = .running ∧ ∃ f below rest, s.frames = f :: below ∧ decode (s.remaining f) = .ok (i, rest)

/-! ## Good states -/

/-- The mirror invariant of R39. -/
def State.Mirrored (s : State) : Prop := ∀ p, s.regAt p 15 = s.regAt 0 15

/-- A span of R29 in an image of `len` bits. -/
def Span.Within (len : Nat) (sp : Span) : Prop := sp.start ≤ sp.stop ∧ sp.stop ≤ len

/-- The bounds R30 puts on a frame's kind; the counts are sampled from 32-bit registers (R33). -/
def FrameKind.Good (len : Nat) (body : Span) : FrameKind → Prop
  | .root => body = { start := 0, stop := len }
  | .once => True
  | .call => True
  | .repeats k => 1 ≤ k ∧ k < 2 ^ 32
  | .counts _ i n => 1 ≤ i ∧ i ≤ n ∧ n < 2 ^ 32
  | .loops _ _ _ => True

/-- A frame of R30: `body.s <= pc <= body.e`, its body a span of the image. -/
def Frame.Good (len : Nat) (f : Frame) : Prop :=
  f.body.Within len ∧ f.body.start ≤ f.pc ∧ f.pc ≤ f.body.stop ∧ f.kind.Good len f.body

/-- R30: the first (here the last listed) frame is the root frame, and no other is. -/
def Rooted : List Frame → Prop
  | [] => False
  | [f] => f.kind = .root
  | f :: g :: fs => f.kind ≠ .root ∧ Rooted (g :: fs)

/-- What holds of every state a run can reach (R27 to R41, R230, R238). -/
structure State.Inv (s : State) : Prop where
  /-- The image has its one form. -/
  image : s.mem.wf
  /-- R6. -/
  params : s.params.wf
  /-- R39. -/
  mirror : s.Mirrored
  /-- R29. -/
  funcs : ∀ id sp, s.func id = some sp → sp.Within s.mem.len
  /-- R30, R31. -/
  frames : ∀ f ∈ s.frames, f.Good s.mem.len
  /-- While the run is in progress its code is 0 (R36) and there is a root frame (R30). -/
  running : s.res.cls = .running → s.res.code = 0 ∧ Rooted s.frames
  /-- After it there is no frame, and the result is one of R230. -/
  ended : s.res.cls ≠ .running → s.frames = [] ∧ ∃ ev : Event, s.res = ev.result
  /-- R6, R107. -/
  frameDepth : ∀ d, s.params.frameDepth = some d → s.frames.length ≤ d
  /-- R6, R27. -/
  stackDepth : ∀ d, s.params.stackDepth = some d → s.stack.length ≤ d
  /-- R34. -/
  output : ∀ c ∈ s.out, isScalar c = true

/-- `bs` is a whole number of instructions, with `depth` blocks open in front of them, that closes every block and
nothing else, and has no tail: the shape of R87. `fuel` bounds the instructions. -/
def nestedFrom : Nat → Nat → Bits → Bool
  | _, depth, [] => decide (depth = 0)
  | 0, _, _ :: _ => false
  | fuel + 1, depth, b :: bs =>
    match decode (b :: bs) with
    | .error _ => false
    | .ok (i, rest) =>
      match i.nesting with
      | .opens => nestedFrom fuel (depth + 1) rest
      | .flat => nestedFrom fuel depth rest
      | .closes => decide (0 < depth) && nestedFrom fuel (depth - 1) rest

/-- `item*` of R87, without a tail. -/
def wellNested (bs : Bits) : Bool := nestedFrom bs.length 0 bs

/-- Every body that is being executed, and every function body, is a whole number of properly nested instructions,
and so is what each body frame still has to execute (R175, R178). -/
def State.Structured (s : State) : Prop :=
  (∀ f ∈ s.frames, f.kind ≠ .root → wellNested (s.remaining f) = true ∧
    wellNested (s.mem.bits f.body.start (f.body.stop - f.body.start)) = true) ∧
  ∀ id sp, s.func id = some sp → wellNested (s.mem.bits sp.start (sp.stop - sp.start)) = true

end Sys2Proof.Machine
end

