-- ==== Sys2Proof/Certificates/Slice0/Obligations.lean ====
section
/-! DEFINITION. The statements about the model, each with the rule of the spec it formalises. Rule statements about an
instruction say its encoding, that no bit of it can be missing (R100), the next state it gives, and what it leaves
unchanged. None of them rests on a value the model chose; those that rest on a reading of it name its assumption. -/

open Sys2Proof Sys2Proof.Machine

/-! ## Encoding -/

/-- R82, R83: decoding the encoding of any well-formed instruction, whatever follows it, gives it back and consumes
exactly its bits. -/
def Obligations.DecodeEncodeGivesTheInstructionBack : Prop :=
  ∀ (i : Instr) (rest : Bits), i.wf = true → decode (encode i ++ rest) = .ok (i, rest)

/-- R83: the same bits always decode to the same instruction: what decodes to `i` is the encoding of `i` and the rest,
`i` is well-formed, and the bits consumed are as many as R82's table says. -/
def Obligations.DecodedBitsAreTheEncoding : Prop :=
  ∀ (bs : Bits) (i : Instr) (rest : Bits), decode bs = .ok (i, rest) →
    i.wf = true ∧ bs = encode i ++ rest ∧ bs.length = i.width + rest.length

/-- R56, R100: an instruction whose last bits are missing is an `UnexpectedEnd`, wherever it is cut. -/
def Obligations.TruncatedInstructionIsUnexpectedEnd : Prop :=
  ∀ (i : Instr) (k : Nat), i.wf = true → k < (encode i).length →
    decode ((encode i).take k) = .error .unexpectedEnd

/-- R86: every bit pattern decodes. The longest instruction is a DPM of 65535 bytes. -/
def Obligations.EveryBitPatternDecodes : Prop :=
  ∀ bs : Bits, 22 + 8 * 65535 ≤ bs.length → ∃ i rest, decode bs = .ok (i, rest)

/-- R90: a word of each class, written out from the spec's opcode map, decodes to the instruction it stands for. -/
def Obligations.WordsOfEachClassDecode : Prop :=
  decode (stream [0,0,0]) = .ok (.nop, []) ∧
  decode (stream [0,0,1, 1,0,1, 0,0,1,0]) = .ok (.pop 2, []) ∧
  decode (stream [0,1,0, 1,1,0]) = .ok (.page 6, []) ∧
  decode (stream [0,1,1, 0,0,1, 0,0,1,1, 0,1,0,1]) = .ok (.sub 3 5, []) ∧
  decode (stream [0,1,1, 1,0,1, 0,0, 1,0,0,1, 1,1,0,0,1,0,0,0]) = .ok (.ldi8 9 200, []) ∧
  decode (stream [1,0,0, 1,1, 0,0,1,0,0,0,0,1]) = .ok (.plit 0x21, []) ∧
  decode (stream [1,0,1, 1,1,0, 0,0,0,1, 1,1, 0,0,0,0]) = .ok (.whileBlock 1 .ne 0, []) ∧
  decode (stream [1,1,0]) = .ok (.blockEnd, []) ∧
  decode (stream [1,1,1, 1,0, 0,1,0,0]) = .ok (.inHex 4, [])

/-- R51, R52: an image supplied as bytes has `8k` bits, the first of each byte its most significant; one supplied as a
bit string reads as that string; and a field read weighs its first bit most. -/
def Obligations.ImageReadsAsItWasSupplied : Prop :=
  (∀ bytes : List Byte, (Memory.ofBytes bytes).len = 8 * bytes.length ∧
    ∀ (j : Nat) (b : Byte) (t : Nat), bytes[j]? = some b → t < 8 →
      (Memory.ofBytes bytes).bitAt (8 * j + t) = b.getLsbD (7 - t)) ∧
  (∀ bits : Bits, (Memory.ofBits bits).len = bits.length ∧
    ∀ (j : Nat) (b : Bool), bits[j]? = some b → (Memory.ofBits bits).bitAt j = b) ∧
  ∀ (m : Memory) (a n : Nat),
    m.read a n = ((List.range n).map fun t => (m.bitAt (a + t)).toNat * 2 ^ (n - 1 - t)).sum

/-! ## NOP, MANIPULATE and PAGE-SELECT -/

/-- R109. -/
def Obligations.NopOnlyAdvancesThePc : Prop :=
  ∀ s : State, EncodedAs (stream [0,0,0]) .nop ∧ ∃ t, exec .nop s = .next t ∧ SameState 3 s t

/-- R121. -/
def Obligations.IncAddsOneModulo256 : Prop :=
  ∀ (a : RegAddr) (s : State), EncodedAs (stream [0,0,1, 0,0,0] ++ fieldBits a) (.inc a) ∧
    ∃ t, exec (.inc a) s = .next t ∧ SameButRegisters 10 s t ∧
      WritesRegister s t a (BitVec.ofNat 32 (((s.reg a).toNat + 1) % 256))

/-- R122: 256 is added first, so that the difference is a natural number. -/
def Obligations.DecSubtractsOneModulo256 : Prop :=
  ∀ (a : RegAddr) (s : State), EncodedAs (stream [0,0,1, 0,0,1] ++ fieldBits a) (.dec a) ∧
    ∃ t, exec (.dec a) s = .next t ∧ SameButRegisters 10 s t ∧
      WritesRegister s t a (BitVec.ofNat 32 (((s.reg a).toNat + 256 - 1) % 256))

/-- R123, R124. -/
def Obligations.ClrAndRstWriteZeroAndTheAddress : Prop :=
  ∀ (a : RegAddr) (s : State),
    EncodedAs (stream [0,0,1, 0,1,0] ++ fieldBits a) (.clr a) ∧
    EncodedAs (stream [0,0,1, 0,1,1] ++ fieldBits a) (.rst a) ∧
    (∃ t, exec (.clr a) s = .next t ∧ SameButRegisters 10 s t ∧ WritesRegister s t a 0) ∧
    ∃ t, exec (.rst a) s = .next t ∧ SameButRegisters 10 s t ∧
      WritesRegister s t a (BitVec.ofNat 32 a.toNat)

/-- R125: with room on the stack the whole register value becomes the newest entry and no register is written; a
stack that already holds exactly `STACK_DEPTH` entries ends the run. -/
def Obligations.PushAppendsTheWholeRegister : Prop :=
  ∀ (a : RegAddr) (s : State), EncodedAs (stream [0,0,1, 1,0,0] ++ fieldBits a) (.push a) ∧
    ((∀ d, s.params.stackDepth = some d → s.stack.length < d) →
      exec (.push a) s = .next { s with stack := s.reg a :: s.stack, frames := advanceTop 10 s.frames }) ∧
    (s.params.stackDepth = some s.stack.length →
      ∃ t, exec (.push a) s = .next t ∧ Ended .resource 1 s t)

/-- R126: the newest entry leaves the stack and the register takes its low `POP_MASK` bits; on an empty stack the run
ends with `StackUnderflow` and nothing is written. -/
def Obligations.PopWritesTheMaskedNewestEntry : Prop :=
  ∀ (a : RegAddr) (s : State), EncodedAs (stream [0,0,1, 1,0,1] ++ fieldBits a) (.pop a) ∧
    (s.stack = [] → ∃ t, exec (.pop a) s = .next t ∧ Ended .isaFault 1 s t) ∧
    ∀ v below, s.stack = v :: below →
      ∃ t, exec (.pop a) s = .next t ∧ SameButRegisters 10 { s with stack := below } t ∧
        (s.params.popMask = .low8 → WritesRegister s t a (BitVec.ofNat 32 (v.toNat % 2 ^ 8))) ∧
        (s.params.popMask = .full32 → WritesRegister s t a (BitVec.ofNat 32 (v.toNat % 2 ^ 32)))

/-- R127. -/
def Obligations.ReservedModesDoNothing : Prop :=
  ∀ (a : RegAddr) (s : State),
    EncodedAs (stream [0,0,1, 1,1,0] ++ fieldBits a) (.mres6 a) ∧
    EncodedAs (stream [0,0,1, 1,1,1] ++ fieldBits a) (.mres7 a) ∧
    (∃ t, exec (.mres6 a) s = .next t ∧ SameState 10 s t) ∧
    ∃ t, exec (.mres7 a) s = .next t ∧ SameState 10 s t

/-- R128. -/
def Obligations.PageSelectsThePageAndWritesNoRegister : Prop :=
  ∀ (p : PageNo) (s : State), EncodedAs (stream [0,1,0] ++ fieldBits p) (.page p) ∧
    exec (.page p) s = .next { s with page := p, frames := advanceTop 6 s.frames }

/-! ## ARITHMETIC -/

/-- R142. -/
def Obligations.AddWrapsModulo2To32 : Prop :=
  ∀ (a1 a2 : RegAddr) (s : State),
    EncodedAs (stream [0,1,1, 0,0,0] ++ fieldBits a1 ++ fieldBits a2) (.add a1 a2) ∧
    ∃ t, exec (.add a1 a2) s = .next t ∧ SameButRegisters 14 s t ∧
      WritesRegister s t a1 (BitVec.ofNat 32 (((s.reg a1).toNat + (s.reg a2).toNat) % 2 ^ 32))

/-- R143: `2^32` is added first, so that the difference is a natural number. -/
def Obligations.SubWrapsModulo2To32 : Prop :=
  ∀ (a1 a2 : RegAddr) (s : State),
    EncodedAs (stream [0,1,1, 0,0,1] ++ fieldBits a1 ++ fieldBits a2) (.sub a1 a2) ∧
    ∃ t, exec (.sub a1 a2) s = .next t ∧ SameButRegisters 14 s t ∧
      WritesRegister s t a1 (BitVec.ofNat 32 ((2 ^ 32 + (s.reg a1).toNat - (s.reg a2).toNat) % 2 ^ 32))

/-- R144. -/
def Obligations.MulKeepsTheLow32Bits : Prop :=
  ∀ (a1 a2 : RegAddr) (s : State),
    EncodedAs (stream [0,1,1, 0,1,0] ++ fieldBits a1 ++ fieldBits a2) (.mul a1 a2) ∧
    ∃ t, exec (.mul a1 a2) s = .next t ∧ SameButRegisters 14 s t ∧
      WritesRegister s t a1 (BitVec.ofNat 32 (((s.reg a1).toNat * (s.reg a2).toNat) % 2 ^ 32))

/-- R145: the quotient is the one number `q` with `q v <= u < (q + 1) v`; a divisor of 0 gives 0. -/
def Obligations.DivIsTheFloorAndZeroByZeroDivisor : Prop :=
  ∀ (a1 a2 : RegAddr) (s : State),
    EncodedAs (stream [0,1,1, 0,1,1] ++ fieldBits a1 ++ fieldBits a2) (.div a1 a2) ∧
    ∃ t q, exec (.div a1 a2) s = .next t ∧ SameButRegisters 14 s t ∧
      WritesRegister s t a1 (BitVec.ofNat 32 q) ∧ q < 2 ^ 32 ∧
      ((s.reg a2).toNat = 0 → q = 0) ∧
      ((s.reg a2).toNat ≠ 0 → q * (s.reg a2).toNat ≤ (s.reg a1).toNat ∧
        (s.reg a1).toNat < (q + 1) * (s.reg a2).toNat)

/-- R146. -/
def Obligations.MovCopiesAll32Bits : Prop :=
  ∀ (a1 a2 : RegAddr) (s : State),
    EncodedAs (stream [0,1,1, 1,0,0] ++ fieldBits a1 ++ fieldBits a2) (.mov a1 a2) ∧
    ∃ t, exec (.mov a1 a2) s = .next t ∧ SameButRegisters 14 s t ∧ WritesRegister s t a1 (s.reg a2)

/-- R147: the four widths. -/
def Obligations.LoadImmediateZeroExtends : Prop :=
  ∀ (d : RegAddr) (i8 : BitVec 8) (i16 : BitVec 16) (i24 : BitVec 24) (i32 : BitVec 32) (s : State),
    EncodedAs (stream [0,1,1, 1,0,1, 0,0] ++ fieldBits d ++ fieldBits i8) (.ldi8 d i8) ∧
    EncodedAs (stream [0,1,1, 1,0,1, 0,1] ++ fieldBits d ++ fieldBits i16) (.ldi16 d i16) ∧
    EncodedAs (stream [0,1,1, 1,0,1, 1,0] ++ fieldBits d ++ fieldBits i24) (.ldi24 d i24) ∧
    EncodedAs (stream [0,1,1, 1,0,1, 1,1] ++ fieldBits d ++ fieldBits i32) (.ldi32 d i32) ∧
    (∃ t, exec (.ldi8 d i8) s = .next t ∧ SameButRegisters 20 s t ∧ WritesRegister s t d (i8.zeroExtend 32)) ∧
    (∃ t, exec (.ldi16 d i16) s = .next t ∧ SameButRegisters 28 s t ∧
      WritesRegister s t d (i16.zeroExtend 32)) ∧
    (∃ t, exec (.ldi24 d i24) s = .next t ∧ SameButRegisters 36 s t ∧
      WritesRegister s t d (i24.zeroExtend 32)) ∧
    ∃ t, exec (.ldi32 d i32) s = .next t ∧ SameButRegisters 44 s t ∧ WritesRegister s t d i32

/-- R148: an exponent of 16 or more gives 0, any other the exact power modulo `2^32`. -/
def Obligations.PowIsExactBelowTheGuard : Prop :=
  ∀ (a1 a2 : RegAddr) (s : State),
    EncodedAs (stream [0,1,1, 1,1,0] ++ fieldBits a1 ++ fieldBits a2) (.pow a1 a2) ∧
    ∃ t, exec (.pow a1 a2) s = .next t ∧ SameButRegisters 14 s t ∧
      (16 ≤ (s.reg a2).toNat → WritesRegister s t a1 0) ∧
      ((s.reg a2).toNat < 16 →
        WritesRegister s t a1 (BitVec.ofNat 32 (((s.reg a1).toNat ^ (s.reg a2).toNat) % 2 ^ 32)))

/-- R149: the greatest integer whose power does not exceed the radicand; a degree of 0 gives 0. -/
def Obligations.RootIsTheGreatestIntegerRoot : Prop :=
  ∀ (a1 a2 : RegAddr) (s : State),
    EncodedAs (stream [0,1,1, 1,1,1] ++ fieldBits a1 ++ fieldBits a2) (.root a1 a2) ∧
    ∃ t r, exec (.root a1 a2) s = .next t ∧ SameButRegisters 14 s t ∧
      WritesRegister s t a1 (BitVec.ofNat 32 r) ∧ r < 2 ^ 32 ∧
      ((s.reg a2).toNat = 0 → r = 0) ∧
      ((s.reg a2).toNat ≠ 0 → r ^ (s.reg a2).toNat ≤ (s.reg a1).toNat ∧
        ∀ q, q ^ (s.reg a2).toNat ≤ (s.reg a1).toNat → q ≤ r)

/-! ## DISPLAY -/

/-- R161: a scalar value is emitted as one character; any other value ends the run with `InvalidCharacter`. -/
def Obligations.PchrEmitsScalarValuesOnly : Prop :=
  ∀ (a : RegAddr) (s : State), EncodedAs (stream [1,0,0, 0,0] ++ fieldBits a) (.pchr a) ∧
    (((s.reg a).toNat < 0xD800 ∨ 0xDFFF < (s.reg a).toNat ∧ (s.reg a).toNat ≤ 0x10FFFF) →
      exec (.pchr a) s =
        .next { s with out := s.out ++ [(s.reg a).toNat], frames := advanceTop 9 s.frames }) ∧
    ((0xD800 ≤ (s.reg a).toNat ∧ (s.reg a).toNat ≤ 0xDFFF ∨ 0x10FFFF < (s.reg a).toNat) →
      ∃ t, exec (.pchr a) s = .next t ∧ Ended .isaFault 3 s t)

/-- R162, R163: the shortest decimal and the shortest hexadecimal numeral, at most 10 and 8 characters. -/
def Obligations.PdecAndPhexEmitTheShortestNumeral : Prop :=
  ∀ (a : RegAddr) (s : State),
    EncodedAs (stream [1,0,0, 0,1] ++ fieldBits a) (.pdec a) ∧
    EncodedAs (stream [1,0,0, 1,0] ++ fieldBits a) (.phex a) ∧
    (∃ text, exec (.pdec a) s = .next { s with out := s.out ++ text, frames := advanceTop 9 s.frames } ∧
      IsNumeral 10 (s.reg a).toNat text ∧ text.length ≤ 10) ∧
    ∃ text, exec (.phex a) s = .next { s with out := s.out ++ text, frames := advanceTop 9 s.frames } ∧
      IsNumeral 16 (s.reg a).toNat text ∧ text.length ≤ 8

/-- R164. -/
def Obligations.PlitEmitsTheLiteral : Prop :=
  ∀ (lit : Byte) (s : State), EncodedAs (stream [1,0,0, 1,1] ++ fieldBits lit) (.plit lit) ∧
    exec (.plit lit) s = .next { s with out := s.out ++ [lit.toNat], frames := advanceTop 13 s.frames }

/-! ## BLOCK and BLOCK-END -/

/-- R187: captured first; then skipped when the condition is false, entered once when it is true. -/
def Obligations.IfEntersItsBodyExactlyWhenTheConditionHolds : Prop :=
  ∀ (a1 : RegAddr) (c : Cond) (a2 : RegAddr) (s : State) (f : Frame) (below : List Frame),
    s.frames = f :: below →
    EncodedAs (stream [1,0,1, 0,0,0] ++ fieldBits a1 ++ conditionBits c ++ fieldBits a2) (.ifBlock a1 c a2) ∧
    FailsUncaptured 16 (.ifBlock a1 c a2) s f ∧
    ∀ body, s.capture (f.pc + 16) f.body.stop = .ok body →
      (¬ Comparison c (s.reg a1).toNat (s.reg a2).toNat → Skipped (.ifBlock a1 c a2) s f below body) ∧
      (Comparison c (s.reg a1).toNat (s.reg a2).toNat → Entered (.ifBlock a1 c a2) s s f below body .once)

/-- R188: the count is the register's whole value at entry; at the end of each execution of the body only the count
the frame keeps decides, whatever the registers hold by then: above 1 it restarts the body one lower, else it is the
last. -/
def Obligations.RepeatSamplesItsCountAtEntry : Prop :=
  (∀ (a : RegAddr) (s : State) (f : Frame) (below : List Frame), s.frames = f :: below →
    EncodedAs (stream [1,0,1, 0,0,1] ++ fieldBits a) (.repeatBlock a) ∧
    FailsUncaptured 10 (.repeatBlock a) s f ∧
    ∀ body, s.capture (f.pc + 10) f.body.stop = .ok body →
      ((s.reg a).toNat = 0 → Skipped (.repeatBlock a) s f below body) ∧
      (1 ≤ (s.reg a).toNat →
        Entered (.repeatBlock a) s s f below body (.repeats (s.reg a).toNat))) ∧
  ∀ (k : Nat) (s : State) (f : Frame) (below : List Frame),
    s.res.cls = .running → s.frames = f :: below → f.kind = .repeats k → f.pc = f.body.stop →
    (1 < k → step s = .next { s with
      frames := { f with pc := f.body.start, kind := .repeats (k - 1) } :: below }) ∧
    (k ≤ 1 → step s = .next { s with frames := below })

/-- R189, R190: the entry takes the captured span, or `Empty`; every other entry keeps what it held. -/
def Obligations.FuncDefAndFuncUndefWriteOneEntry : Prop :=
  ∀ (id : FuncId) (s : State) (f : Frame) (below : List Frame), s.frames = f :: below →
    EncodedAs (stream [1,0,1, 0,1,0] ++ fieldBits id) (.funcDef id) ∧
    EncodedAs (stream [1,0,1, 0,1,1] ++ fieldBits id) (.funcUndef id) ∧
    FailsUncaptured 10 (.funcDef id) s f ∧
    (∀ body, s.capture (f.pc + 10) f.body.stop = .ok body →
      ∃ t, exec (.funcDef id) s = .next t ∧ (∀ k, t.func k = if k = id then some body else s.func k) ∧
        t = { s with funcs := t.funcs, frames := { f with pc := body.stop + 3 } :: below }) ∧
    ∃ t, exec (.funcUndef id) s = .next t ∧ (∀ k, t.func k = if k = id then none else s.func k) ∧
      t = { s with funcs := t.funcs, frames := { f with pc := f.pc + 10 } :: below }

/-- R191: a non-empty stored body is entered; an absent or empty one is a silent no-operation. -/
def Obligations.CallEntersNonEmptyBodiesOnly : Prop :=
  ∀ (id : FuncId) (s : State) (f : Frame) (below : List Frame), s.frames = f :: below →
    EncodedAs (stream [1,0,1, 1,0,0] ++ fieldBits id) (.call id) ∧
    ((s.func id = none ∨ ∃ e, s.func id = some { start := e, stop := e }) →
      exec (.call id) s = .next { s with frames := { f with pc := f.pc + 10 } :: below }) ∧
    ∀ body, s.func id = some body → body.start < body.stop →
      (FrameRoom s → exec (.call id) s = .next { s with frames :=
        { pc := body.start, body := body, kind := .call } :: { f with pc := f.pc + 10 } :: below }) ∧
      (FrameFull s → ∃ t, exec (.call id) s = .next t ∧ Ended .resource 0 s t)

/-- R192, R193, R194: both forms of FOR, with the count sampled before the first index write; and each later index
write, of one more than the number of the iteration that has ended, whatever the index register holds. -/
def Obligations.ForWritesTheIterationNumberAndEntersItsBody : Prop :=
  (∀ (a a2 : RegAddr) (n : BitVec 8) (s : State) (f : Frame) (below : List Frame), s.frames = f :: below →
    EncodedAs (stream [1,0,1, 1,0,1, 0] ++ fieldBits a ++ fieldBits n) (.forImm a n) ∧
    EncodedAs (stream [1,0,1, 1,0,1, 1] ++ fieldBits a ++ fieldBits a2) (.forReg a a2) ∧
    FailsUncaptured 19 (.forImm a n) s f ∧ FailsUncaptured 15 (.forReg a a2) s f ∧
    (∀ body, s.capture (f.pc + 19) f.body.stop = .ok body →
      ForStarts (.forImm a n) a n.toNat s f below body) ∧
    ∀ body, s.capture (f.pc + 15) f.body.stop = .ok body →
      ForStarts (.forReg a a2) a (s.reg a2).toNat s f below body) ∧
  ∀ (a : RegAddr) (i n : Nat) (s : State) (f : Frame) (below : List Frame),
    s.res.cls = .running → s.frames = f :: below → f.kind = .counts a i n → f.pc = f.body.stop →
    (i < n → ∃ t, step s = .next t ∧ WritesRegister s t a (BitVec.ofNat 32 (i + 1)) ∧
      SameButRegisters 0 { s with
        frames := { f with pc := f.body.start, kind := .counts a (i + 1) n } :: below } t) ∧
    (n ≤ i → step s = .next { s with frames := below })

/-- R195: the condition is evaluated at entry, and again at the end of each execution of the body, from the fields the
frame keeps. -/
def Obligations.WhileEntersItsBodyExactlyWhenTheConditionHolds : Prop :=
  (∀ (a1 : RegAddr) (c : Cond) (a2 : RegAddr) (s : State) (f : Frame) (below : List Frame),
    s.frames = f :: below →
    EncodedAs (stream [1,0,1, 1,1,0] ++ fieldBits a1 ++ conditionBits c ++ fieldBits a2)
      (.whileBlock a1 c a2) ∧
    FailsUncaptured 16 (.whileBlock a1 c a2) s f ∧
    ∀ body, s.capture (f.pc + 16) f.body.stop = .ok body →
      (¬ Comparison c (s.reg a1).toNat (s.reg a2).toNat → Skipped (.whileBlock a1 c a2) s f below body) ∧
      (Comparison c (s.reg a1).toNat (s.reg a2).toNat →
        Entered (.whileBlock a1 c a2) s s f below body (.loops a1 c a2))) ∧
  ∀ (a1 : RegAddr) (c : Cond) (a2 : RegAddr) (s : State) (f : Frame) (below : List Frame),
    s.res.cls = .running → s.frames = f :: below → f.kind = .loops a1 c a2 → f.pc = f.body.stop →
    (Comparison c (s.reg a1).toNat (s.reg a2).toNat →
      step s = .next { s with frames := { f with pc := f.body.start } :: below }) ∧
    (¬ Comparison c (s.reg a1).toNat (s.reg a2).toNat → step s = .next { s with frames := below })

/-- R196: the whole payload is data of the instruction; well-formed text is emitted verbatim, anything else ends the
run with `InvalidCharacter`. -/
def Obligations.DpmEmitsItsPayloadVerbatim : Prop :=
  ∀ (payload : List Byte) (s : State), payload.length ≤ 65535 →
    EncodedAs (stream [1,0,1, 1,1,1] ++ bitsOf 16 payload.length ++ payload.flatMap fieldBits)
      (.dpm payload) ∧
    (∀ text, utf8Decode payload = some text → exec (.dpm payload) s = .next
      { s with out := s.out ++ text, frames := advanceTop (22 + 8 * payload.length) s.frames }) ∧
    (utf8Decode payload = none → ∃ t, exec (.dpm payload) s = .next t ∧ Ended .isaFault 3 s t)

/-- R200: a payload decodes exactly when it is a concatenation of units of the table, each giving its scalar value. -/
def Obligations.Utf8DecodesExactlyTheUnitsOfTheTable : Prop :=
  ∀ (bytes : List Byte) (text : List Scalar), utf8Decode bytes = some text ↔
    ∃ units : List (List Byte), bytes = units.flatten ∧ List.Forall₂ Utf8Unit units text

/-- R197: in the root frame the run ends with success; in any other frame END acts exactly as
the step at the end of the frame's body (R106) does. -/
def Obligations.BlockEndEndsTheCurrentFrame : Prop :=
  ∀ (s : State) (f : Frame) (below : List Frame), s.frames = f :: below →
    EncodedAs (stream [1,1,0]) .blockEnd ∧
    (f.kind = .root → ∃ t, exec .blockEnd s = .next t ∧ Ended .halted 3 s t ∧ t.res.success = true) ∧
    (f.kind ≠ .root → (∃ t, exec .blockEnd s = .next t) ∧
      (s.res.cls = .running →
        exec .blockEnd s = step { s with frames := { f with pc := f.body.stop } :: below }))

/-! ## IO -/

/-- R216, R217: the whole run ends, whatever frames there are. -/
def Obligations.HaltAndFailEndTheWholeRun : Prop :=
  ∀ s : State, EncodedAs (stream [1,1,1, 0,0]) .halt ∧ EncodedAs (stream [1,1,1, 0,1]) .fail ∧
    (∃ t, exec .halt s = .next t ∧ Ended .halted 0 s t ∧ t.res.success = true) ∧
    ∃ t, exec .fail s = .next t ∧ Ended .halted 1 s t ∧ t.res.success = false

/-- R218, R219: one line is taken; its value modulo `2^32` goes to the register, and a line that does not parse ends
the run with `MalformedInput`. -/
def Obligations.InputInstructionsReadOneLine : Prop :=
  ∀ (a : RegAddr) (s : State) (line : List Scalar) (later : List (List Scalar)), s.input = line :: later →
    EncodedAs (stream [1,1,1, 1,0] ++ fieldBits a) (.inHex a) ∧
    EncodedAs (stream [1,1,1, 1,1] ++ fieldBits a) (.inDec a) ∧
    (∀ v, parseLine 16 line = some v → ∃ t, exec (.inHex a) s = .next t ∧
      SameButRegisters 9 { s with input := later } t ∧ WritesRegister s t a (BitVec.ofNat 32 (v % 2 ^ 32))) ∧
    (parseLine 16 line = none → ∃ t, exec (.inHex a) s = .next t ∧
      Ended .isaFault 2 { s with input := later } t) ∧
    (∀ v, parseLine 10 line = some v → ∃ t, exec (.inDec a) s = .next t ∧
      SameButRegisters 9 { s with input := later } t ∧ WritesRegister s t a (BitVec.ofNat 32 (v % 2 ^ 32))) ∧
    (parseLine 10 line = none → ∃ t, exec (.inDec a) s = .next t ∧
      Ended .isaFault 2 { s with input := later } t)

/-- R221, R250: with no line available the machine waits and nothing changes; that a wait is a step to the same state
is the model's reading (assumption 4). -/
def Obligations.InputWaitsForALineUnchanged : Prop :=
  ∀ (a : RegAddr) (s : State), s.input = [] →
    exec (.inHex a) s = .next s ∧ exec (.inDec a) s = .next s

/-- R220: a line parses in radix 10 or 16 exactly when it is one or more digits of the radix and nothing else, and its
value is what they spell, most significant first. -/
def Obligations.InputGrammarIsStrictDigits : Prop :=
  ∀ (radix : Nat) (line : List Scalar) (v : Nat), radix = 10 ∨ radix = 16 →
    (parseLine radix line = some v ↔
      line ≠ [] ∧ ∃ ds : List Nat, List.Forall₂ (IsDigit radix) line ds ∧
        ds.foldl (fun n d => n * radix + d) 0 = v)

/-! ## The step -/

/-- R102, R104, R105, R241: while the run is in progress, a step whose frame's bits decode runs exactly that
instruction, and one whose instruction does not fit ends the run before any effect. -/
def Obligations.StepRunsTheDecodedInstruction : Prop :=
  ∀ (s : State) (f : Frame) (below : List Frame), s.res.cls = .running → s.frames = f :: below →
    (∀ i rest, decode (s.remaining f) = .ok (i, rest) → i.wf = true ∧ step s = exec i s) ∧
    (3 ≤ f.body.stop - f.pc → decode (s.remaining f) = .error .unexpectedEnd →
      ∃ t, step s = .next t ∧ Ended .isaFault 0 s t)

/-- R106: what the end of a frame does, by the frame's kind. -/
def Obligations.FrameEndFollowsTheKind : Prop :=
  ∀ (s : State) (f : Frame) (below : List Frame), s.res.cls = .running → s.frames = f :: below →
    f.pc = f.body.stop →
    (f.kind = .root → ∃ t, step s = .next t ∧ Ended .halted 2 s t ∧ t.res.success = true) ∧
    (f.kind = .once → step s = .next { s with frames := below }) ∧
    (f.kind = .call → step s = .next { s with frames := below }) ∧
    (∀ k, f.kind = .repeats k → 1 < k → step s = .next { s with
      frames := { f with pc := f.body.start, kind := .repeats (k - 1) } :: below }) ∧
    (∀ k, f.kind = .repeats k → k ≤ 1 → step s = .next { s with frames := below }) ∧
    (∀ a i n, f.kind = .counts a i n → i < n → ∃ t, step s = .next t ∧
      WritesRegister s t a (BitVec.ofNat 32 (i + 1)) ∧
      SameButRegisters 0 { s with
        frames := { f with pc := f.body.start, kind := .counts a (i + 1) n } :: below } t) ∧
    (∀ a i n, f.kind = .counts a i n → n ≤ i → step s = .next { s with frames := below }) ∧
    (∀ a1 c a2, f.kind = .loops a1 c a2 → Comparison c (s.reg a1).toNat (s.reg a2).toNat →
      step s = .next { s with frames := { f with pc := f.body.start } :: below }) ∧
    (∀ a1 c a2, f.kind = .loops a1 c a2 → ¬ Comparison c (s.reg a1).toNat (s.reg a2).toNat →
      step s = .next { s with frames := below })

/-- R103: 1 or 2 bits left where a tag is due, under either `TAIL_POLICY`. -/
def Obligations.TailRuleAcceptsZeroPaddingOfTheRootFrame : Prop :=
  ∀ (s : State) (f : Frame) (below : List Frame) (rem : Nat), s.res.cls = .running → s.frames = f :: below →
    f.body.stop = f.pc + rem → 1 ≤ rem → rem ≤ 2 →
    ((s.params.tailPolicy = .zeroPad ∧ f.kind = .root ∧ s.mem.read f.pc rem = 0) →
      ∃ t, step s = .next t ∧ Ended .halted 2 s t) ∧
    ((s.params.tailPolicy = .strict ∨ f.kind ≠ .root ∨ s.mem.read f.pc rem ≠ 0) →
      ∃ t, step s = .next t ∧ Ended .isaFault 0 s t)

/-- R238, R264: once the run has ended a step changes nothing; that it is a step to the same state is the model's
reading (assumption 3). -/
def Obligations.EndedRunChangesNothing : Prop :=
  ∀ s : State, s.res.cls ≠ .running → step s = .next s

/-- R41, R260: the state at the start of a run over any image, and `State.reset` is one of them. -/
def Obligations.ResetHasTheSpecsValues : Prop :=
  (∀ (ps : Params) (m : Memory) (lines : List (List Scalar)),
    (∀ p i, (State.start ps m lines).regAt p i = BitVec.ofNat 32 i.toNat) ∧
    (State.start ps m lines).page = 0 ∧ (State.start ps m lines).stack = [] ∧
    (∀ id, (State.start ps m lines).func id = none) ∧ (State.start ps m lines).out = [] ∧
    (State.start ps m lines).res = { cls := .running, code := 0 } ∧
    (State.start ps m lines).frames =
      [{ pc := 0, body := { start := 0, stop := m.len }, kind := .root }]) ∧
  ∃ ps m lines, State.reset = State.start ps m lines

/-! ## Rules about the whole machine -/

/-- R30, R31, R230: the invariant holds at the start of a run over any image in its one form (assumption 2), with legal
parameters, and so at reset; and every such state has its bodies properly nested, from which R178 starts. -/
def Obligations.StartMeetsTheInvariant : Prop :=
  (∀ (ps : Params) (m : Memory) (lines : List (List Scalar)), ps.wf → m.wf → (State.start ps m lines).Inv) ∧
  (∀ (ps : Params) (m : Memory) (lines : List (List Scalar)), (State.start ps m lines).Structured) ∧
  State.reset.Inv ∧ State.reset.Structured

/-- From every state that meets the invariant a step has a next state, and it meets the invariant: no run is ever
without a frame while in progress, a cursor never leaves its span, no span leaves the image, the loop counts stay in
their bounds, register 15 is the same on every page, and nothing but scalar values is ever emitted. Three clauses are
the model's reading: that the image has its one form (assumption 2), and that an ended run (assumption 3) and an input
instruction without a line (assumption 4) have a next state at all, the same one. -/
def Obligations.EveryStepKeepsTheInvariant : Prop :=
  ∀ s : State, s.Inv → ∃ t, step s = .next t ∧ t.Inv

/-- R39: the mirror invariant, from any state in which it holds. -/
def Obligations.MirrorHoldsAfterEveryStep : Prop :=
  ∀ s t : State, s.Mirrored → step s = .next t → t.Mirrored

/-- R230, column "raised by": an instruction that changes the result ends the run with an event that R230 lets it
raise. -/
def Obligations.EventsComeOnlyFromTheirInstructions : Prop :=
  ∀ (i : Instr) (s t : State), exec i s = .next t → t.res ≠ s.res →
    ∃ ev : Event, t.res = ev.result ∧ t.frames = [] ∧ MayRaise ev i

/-- R26: the page selector is changed by PAGE alone. -/
def Obligations.OnlyPageChangesThePage : Prop :=
  ∀ s t : State, step s = .next t → t.page ≠ s.page → ∃ p, NextInstr s (.page p) ∧ t.page = p

/-- R27: the evaluation stack is touched by PUSH and POP alone, and only at its newest end. -/
def Obligations.OnlyPushAndPopTouchTheStack : Prop :=
  ∀ s t : State, step s = .next t → t.stack ≠ s.stack →
    (∃ a, NextInstr s (.push a) ∧ t.stack = s.reg a :: s.stack) ∨
    ∃ a v, NextInstr s (.pop a) ∧ s.stack = v :: t.stack

/-- R28: the function table is written by FUNCDEF and FUNCUNDEF alone, at their entry alone. -/
def Obligations.OnlyFuncDefAndFuncUndefWriteTheTable : Prop :=
  ∀ (s t : State) (k : FuncId), step s = .next t → t.func k ≠ s.func k →
    (∃ body, NextInstr s (.funcDef k) ∧ t.func k = some body) ∨ NextInstr s (.funcUndef k) ∧ t.func k = none

/-- R20, R34, R35: no step changes the image or a parameter, takes back a character of the output, or takes more than
the next line of the input. -/
def Obligations.ImageAndChannelsAreOnlyUsedAsTheSpecSays : Prop :=
  ∀ s t : State, step s = .next t → SameImage s t ∧ t.params = s.params ∧ (∃ text, t.out = s.out ++ text) ∧
    (t.input = s.input ∨ ∃ a line, (NextInstr s (.inHex a) ∨ NextInstr s (.inDec a)) ∧ s.input = line :: t.input)

/-- R31, R238: a step leaves every frame below the current one as it is, but when it ends the run; the current frame
keeps its body, and its `pc` moves forward, its kind kept, or back to the first bit of the body; a new frame starts at
the first bit of its own. -/
def Obligations.LowerFramesAreUntouched : Prop :=
  ∀ (s t : State) (f : Frame) (below : List Frame), step s = .next t → s.frames = f :: below →
    (t.frames = [] ∧ t.res.cls ≠ .running) ∨ t.frames = below ∨
    ∃ f' : Frame, f'.body = f.body ∧ (f.pc ≤ f'.pc ∧ f'.kind = f.kind ∨ f'.pc = f.body.start) ∧
      (t.frames = f' :: below ∨ ∃ g : Frame, g.pc = g.body.start ∧ t.frames = g :: f' :: below)

/-! ## The skip engine -/

/-- R171, R178: the capture, which walks by the decoder, gives what the algorithm of R171 gives with its own widths,
however many instructions that one is allowed. -/
def Obligations.CaptureAgreesWithTheSkipEngine : Prop :=
  ∀ (s : State) (start stop fuel : Nat), stop - start + 1 ≤ fuel →
    s.capture start stop =
      match skipLoop fuel 1 { pos := start, left := s.mem.bits start (stop - start) } with
      | .ok t => .ok { start := start, stop := t }
      | .error e => .error e

/-- R175: the captured span starts where the capture started, lies with its END inside the calling frame's span, is
followed by the bits 110, and is a whole number of properly nested instructions. -/
def Obligations.CapturedSpanIsWellNested : Prop :=
  ∀ (s : State) (start stop : Nat) (body : Span), s.capture start stop = .ok body →
    body.start = start ∧ start ≤ body.stop ∧ body.stop + 3 ≤ stop ∧
      s.mem.bits body.stop 3 = stream [1,1,0] ∧
      wellNested (s.mem.bits body.start (body.stop - body.start)) = true

/-- R178: in a state whose bodies are properly nested, a body frame with bits left decodes an instruction, which is no
END, and the capture of a block it reaches succeeds. -/
def Obligations.BodiesNeverRunOffTheirEnd : Prop :=
  ∀ (s : State) (f : Frame) (below : List Frame), s.Structured → s.frames = f :: below → f.kind ≠ .root →
    f.pc < f.body.stop →
    ∃ i rest, decode (s.remaining f) = .ok (i, rest) ∧ i ≠ .blockEnd ∧
      (i.nesting = .opens → ∃ body, s.capture (f.pc + i.headerBits) f.body.stop = .ok body)

/-- R178: the bodies of a good state stay properly nested at every step. -/
def Obligations.EveryStepKeepsBodiesNested : Prop :=
  ∀ s t : State, s.Inv → s.Structured → step s = .next t → t.Structured

/-! ## The model's form of an image -/

/-- Assumption 2: an image supplied as bytes or as a bit string (R51) has the model's one form, and two images of that
form with the same length and the same bits are the same data. The form is the model's, not the spec's. -/
def Obligations.SuppliedImagesHaveTheOneForm : Prop :=
  (∀ bytes : List Byte, (Memory.ofBytes bytes).wf) ∧ (∀ bits : Bits, (Memory.ofBits bits).wf) ∧
  ∀ m m' : Memory, m.wf → m'.wf → m.len = m'.len → (∀ a < m.len, m.bitAt a = m'.bitAt a) → m = m'

/-! ## The frame depth -/

/-- R107, R234: entering a frame is all that looks at `FRAME_DEPTH`. Beside what it would give with an infinite depth,
an instruction that adds no frame gives the same, and so does one that adds a frame where there is room; on exactly
`FRAME_DEPTH` frames the latter ends the run, with the rest of its effect kept (R239). -/
def Obligations.OnlyEnteringLooksAtTheFrameDepth : Prop :=
  ∀ (i : Instr) (s u : State), exec i s.withoutFrameDepth = .next u →
    (u.frames.length ≤ s.frames.length ∨ FrameRoom s → exec i s = .next { u with params := s.params }) ∧
    (s.frames.length < u.frames.length → FrameFull s →
      ∃ t, exec i s = .next t ∧ Ended .resource 0 { u with params := s.params } t)
end

