-- ==== Sys2Proof/Laws/Fields.lean ====
section
/-! SUPPORT. What a field read gives (R52, R100), and that a field written is read back. -/

namespace Sys2Proof

theorem bitsOf_length (n v : Nat) : (bitsOf n v).length = n := by
  induction n with
  | zero => rfl
  | succ n ih => simp [bitsOf, ih]

@[simp] theorem fieldBits_length {n : Nat} (v : BitVec n) : (fieldBits v).length = n := bitsOf_length n v.toNat

/-- A read of `n` bits fails exactly when fewer are left. -/
theorem readBitsFrom_error_iff (n v : Nat) (bs : Bits) :
    readBitsFrom n v bs = .error .unexpectedEnd ↔ bs.length < n := by
  induction n generalizing v bs with
  | zero => simp [readBitsFrom]
  | succ n ih =>
    cases bs with
    | nil => simp [readBitsFrom]
    | cons b bs => simp [readBitsFrom, ih]

theorem readBits_error_iff (n : Nat) (bs : Bits) : readBits n bs = .error .unexpectedEnd ↔ bs.length < n :=
  readBitsFrom_error_iff n 0 bs

theorem readBitsFrom_bitsOf (n v k : Nat) (rest : Bits) :
    readBitsFrom n k (bitsOf n v ++ rest) = .ok (k * 2 ^ n + v % 2 ^ n, rest) := by
  induction n generalizing k with
  | zero => simp [readBitsFrom, bitsOf, Nat.mod_one]
  | succ n ih =>
    have h : v % 2 ^ (n + 1) = (v.testBit n).toNat * 2 ^ n + v % 2 ^ n := by
      rw [Nat.toNat_testBit, Nat.mod_pow_succ]; ring
    simp only [bitsOf, List.cons_append, readBitsFrom, ih, h]
    congr 2
    ring

/-- A field written is read back, whatever follows it. -/
theorem readBits_bitsOf (n v : Nat) (rest : Bits) : readBits n (bitsOf n v ++ rest) = .ok (v % 2 ^ n, rest) := by
  simpa [readBits] using readBitsFrom_bitsOf n v 0 rest

@[simp] theorem readField_fieldBits {n : Nat} (v : BitVec n) (rest : Bits) :
    readField n (fieldBits v ++ rest) = .ok (v, rest) := by
  simp [readField, fieldBits, readBits_bitsOf]

theorem readBytes_flatMap (payload : List Byte) (rest : Bits) :
    readBytes payload.length (payload.flatMap fieldBits ++ rest) = .ok (payload, rest) := by
  induction payload with
  | nil => rfl
  | cons b payload ih => simp [readBytes, ih, bind, Except.bind, pure, Except.pure]

@[simp] theorem readCond_code (c : Cond) (rest : Bits) :
    readCond (bitsOf 2 c.code ++ rest) = .ok (c, rest) := by
  cases c <;> rfl

theorem readBitsFrom_ok (n k v : Nat) (bs rest : Bits) (h : readBitsFrom n k bs = .ok (v, rest)) :
    ∃ w < 2 ^ n, v = k * 2 ^ n + w ∧ bs = bitsOf n w ++ rest := by
  induction n generalizing k bs with
  | zero =>
    simp only [readBitsFrom, Except.ok.injEq, Prod.mk.injEq] at h
    exact ⟨0, by simp, by simp [h.1], by simp [bitsOf, h.2]⟩
  | succ n ih =>
    cases bs with
    | nil => simp [readBitsFrom] at h
    | cons b bs =>
      obtain ⟨w, hw, hv, hbs⟩ := ih _ _ h
      have hb : b.toNat ≤ 1 := Bool.toNat_le b
      have hp : 0 < 2 ^ n := Nat.two_pow_pos n
      refine ⟨b.toNat * 2 ^ n + w, ?_, ?_, ?_⟩
      · rw [Nat.pow_succ]; nlinarith
      · rw [hv]; ring
      · have htop : (b.toNat * 2 ^ n + w).testBit n = b := by
          rw [Nat.mul_comm, Nat.testBit_two_pow_mul_add _ hw]
          cases b <;> simp
        have hlow : bitsOf n (b.toNat * 2 ^ n + w) = bitsOf n w := by
          have key : ∀ m ≤ n, bitsOf m (b.toNat * 2 ^ n + w) = bitsOf m w := by
            intro m
            induction m with
            | zero => intro _; rfl
            | succ m ihm =>
              intro hm
              have : (b.toNat * 2 ^ n + w).testBit m = w.testBit m := by
                rw [Nat.mul_comm, Nat.testBit_two_pow_mul_add _ hw, if_pos (by omega)]
              simp [bitsOf, this, ihm (by omega)]
          exact key n le_rfl
        simp [bitsOf, htop, hlow, hbs]

/-- What a read of `n` bits gives fits in `n` bits, and its encoding is what was read. -/
theorem readBits_ok {n v : Nat} {bs rest : Bits} (h : readBits n bs = .ok (v, rest)) :
    v < 2 ^ n ∧ bs = bitsOf n v ++ rest := by
  obtain ⟨w, hw, hv, hbs⟩ := readBitsFrom_ok n 0 v bs rest h
  obtain rfl : v = w := by omega
  exact ⟨hw, hbs⟩

theorem readField_ok {n : Nat} {v : BitVec n} {bs rest : Bits} (h : readField n bs = .ok (v, rest)) :
    bs = fieldBits v ++ rest := by
  unfold readField at h
  split at h
  · rename_i w r hr
    obtain ⟨hw, hbs⟩ := readBits_ok hr
    simp only [Except.ok.injEq, Prod.mk.injEq] at h
    obtain ⟨rfl, rfl⟩ := h
    simpa [fieldBits, BitVec.toNat_ofNat, Nat.mod_eq_of_lt hw] using hbs
  · cases h

theorem readCond_ok {c : Cond} {bs rest : Bits} (h : readCond bs = .ok (c, rest)) :
    bs = bitsOf 2 c.code ++ rest := by
  unfold readCond at h
  cases hr : readBits 2 bs with
  | error e => simp [hr, bind, Except.bind] at h
  | ok p =>
    obtain ⟨v, r⟩ := p
    obtain ⟨hv, hbs⟩ := readBits_ok hr
    simp only [hr, bind, Except.bind] at h
    have : v = 0 ∨ v = 1 ∨ v = 2 ∨ v = 3 := by omega
    rcases this with rfl | rfl | rfl | rfl <;>
      (simp only [pure, Except.pure, Except.ok.injEq, Prod.mk.injEq] at h
       obtain ⟨rfl, rfl⟩ := h
       exact hbs)

theorem readBytes_ok {k : Nat} {payload : List Byte} {bs rest : Bits}
    (h : readBytes k bs = .ok (payload, rest)) :
    payload.length = k ∧ bs = payload.flatMap fieldBits ++ rest := by
  induction k generalizing bs payload with
  | zero =>
    simp only [readBytes, Except.ok.injEq, Prod.mk.injEq] at h
    obtain ⟨rfl, rfl⟩ := h
    simp
  | succ k ih =>
    simp only [readBytes, bind, Except.bind, pure, Except.pure] at h
    cases hb : readField 8 bs with
    | error e => simp [hb] at h
    | ok p =>
      obtain ⟨b, r⟩ := p
      simp only [hb] at h
      cases hp : readBytes k r with
      | error e => simp [hp] at h
      | ok q =>
        obtain ⟨ps, r'⟩ := q
        simp only [hp, Except.ok.injEq, Prod.mk.injEq] at h
        obtain ⟨rfl, rfl⟩ := h
        obtain ⟨hl, hr⟩ := ih hp
        exact ⟨by simp [hl], by rw [readField_ok hb, hr]; simp⟩

/-- A read of `n` bits succeeds when as many are left, and leaves the rest. -/
theorem readBits_total {n : Nat} {bs : Bits} (h : n ≤ bs.length) :
    ∃ v rest, readBits n bs = .ok (v, rest) ∧ bs.length = n + rest.length ∧ v < 2 ^ n := by
  cases hr : readBits n bs with
  | error e =>
    cases e
    rw [readBits_error_iff] at hr
    omega
  | ok p =>
    obtain ⟨v, rest⟩ := p
    obtain ⟨hv, hbs⟩ := readBits_ok hr
    exact ⟨v, rest, rfl, by rw [hbs]; simp [bitsOf_length], hv⟩

/-! ## The shared parts of the decoder -/

/-- A sequence of reads succeeds when its first read does and then the others do. -/
theorem bind_eq_ok {α β : Type} {x : Except DecodeError α} {f : α → Except DecodeError β} {b : β} :
    (x >>= f) = .ok b ↔ ∃ a, x = .ok a ∧ f a = .ok b := by
  cases x <;> simp [bind, Except.bind]

theorem decodeOneField_ok {mk : BitVec 4 → Instr} {bs : Bits} {i : Instr} {rest : Bits}
    (h : decodeOneField mk bs = .ok (i, rest)) : ∃ a, i = mk a ∧ bs = fieldBits a ++ rest := by
  obtain ⟨⟨a, r⟩, ha, h⟩ := bind_eq_ok.mp h
  cases h
  exact ⟨a, rfl, readField_ok ha⟩

theorem decodeTwoRegisters_ok {mk : RegAddr → RegAddr → Instr} {bs : Bits} {i : Instr} {rest : Bits}
    (h : decodeTwoRegisters mk bs = .ok (i, rest)) :
    ∃ a b, i = mk a b ∧ bs = fieldBits a ++ (fieldBits b ++ rest) := by
  obtain ⟨⟨a, r⟩, ha, h⟩ := bind_eq_ok.mp h
  obtain ⟨⟨b, r'⟩, hb, h⟩ := bind_eq_ok.mp h
  cases h
  exact ⟨a, b, rfl, by rw [readField_ok ha, readField_ok hb]⟩

theorem decodeCondHeader_ok {mk : RegAddr → Cond → RegAddr → Instr} {bs : Bits} {i : Instr} {rest : Bits}
    (h : decodeCondHeader mk bs = .ok (i, rest)) :
    ∃ a c b, i = mk a c b ∧ bs = fieldBits a ++ (bitsOf 2 c.code ++ (fieldBits b ++ rest)) := by
  obtain ⟨⟨a, r⟩, ha, h⟩ := bind_eq_ok.mp h
  obtain ⟨⟨c, r'⟩, hc, h⟩ := bind_eq_ok.mp h
  obtain ⟨⟨b, r''⟩, hb, h⟩ := bind_eq_ok.mp h
  cases h
  exact ⟨a, c, b, rfl, by rw [readField_ok ha, readCond_ok hc, readField_ok hb]⟩

end Sys2Proof
end

