-- ==== Sys2Proof/Laws/Memory.lean ====
section
/-! SUPPORT. Reading the image: runs of bits, and that an image made from bits or bytes has the one form and reads as
what it was made from. -/

namespace Sys2Proof.Machine

@[simp] theorem Memory.bits_length (m : Memory) (a n : Nat) : (m.bits a n).length = n := by
  induction n generalizing a with
  | zero => rfl
  | succ n ih => simp [Memory.bits, ih]

theorem Memory.bits_add (m : Memory) (a n k : Nat) : m.bits a (n + k) = m.bits a n ++ m.bits (a + n) k := by
  induction n generalizing a with
  | zero => simp [Memory.bits]
  | succ n ih =>
    rw [Nat.succ_add, Memory.bits, ih (a + 1), Memory.bits]
    simp [Nat.add_assoc, Nat.add_comm 1 n]

theorem Memory.bits_drop (m : Memory) (a n k : Nat) : (m.bits a n).drop k = m.bits (a + k) (n - k) := by
  induction k generalizing a n with
  | zero => simp
  | succ k ih =>
    cases n with
    | zero => simp [Memory.bits]
    | succ n =>
      rw [Memory.bits, List.drop_succ_cons, ih]
      simp [Nat.add_assoc, Nat.add_comm 1 k]

theorem Memory.bits_take (m : Memory) (a n k : Nat) (h : k ≤ n) : (m.bits a n).take k = m.bits a k := by
  obtain ⟨d, rfl⟩ := Nat.exists_eq_add_of_le h
  rw [Memory.bits_add, List.take_left' (Memory.bits_length m a k)]

theorem Memory.bits_getElem (m : Memory) (a n i : Nat) (h : i < (m.bits a n).length) :
    (m.bits a n)[i] = m.bitAt (a + i) := by
  induction n generalizing a i with
  | zero => simp at h
  | succ n ih =>
    cases i with
    | zero => simp [Memory.bits]
    | succ i =>
      simp only [Memory.bits, List.getElem_cons_succ]
      rw [ih, Nat.add_assoc, Nat.add_comm 1 i]

/-- What follows the first bits of a run is the run that starts behind them. -/
theorem Memory.bits_eq_append (m : Memory) (a n : Nat) (front rest : Bits) (h : m.bits a n = front ++ rest) :
    rest = m.bits (a + front.length) (n - front.length) ∧ front = m.bits a front.length ∧ front.length ≤ n := by
  have hl : n = front.length + rest.length := by
    simpa using congrArg List.length h
  refine ⟨?_, ?_, by omega⟩
  · rw [← Memory.bits_drop, h, List.drop_left]
  · rw [← Memory.bits_take m a n front.length (by omega), h, List.take_left]

/-- R52: `MemRead(a, n)` is the value of the field of the `n` bits at `a`, and a cursor read of `n` bits gives it. -/
theorem Memory.readBits_bits (m : Memory) (a n k : Nat) :
    readBits n (m.bits a (n + k)) = .ok (m.read a n, m.bits (a + n) k) := by
  have key : ∀ n k v, readBitsFrom n v (m.bits a (n + k)) = .ok (v * 2 ^ n + m.read a n, m.bits (a + n) k) := by
    intro n
    induction n with
    | zero => intro k v; simp [readBitsFrom, Memory.read]
    | succ n ih =>
      intro k v
      have hstep : ∀ (n v : Nat) (bs rest : Bits) (w : Nat) (b : Bool),
          readBitsFrom n v bs = .ok (w, b :: rest) → readBitsFrom (n + 1) v bs = .ok (2 * w + b.toNat, rest) := by
        intro n
        induction n with
        | zero =>
          intro v bs rest w b h
          simp only [readBitsFrom, Except.ok.injEq, Prod.mk.injEq] at h
          obtain ⟨rfl, rfl⟩ := h
          rfl
        | succ n ihn =>
          intro v bs rest w b h
          cases bs with
          | nil => simp [readBitsFrom] at h
          | cons c bs =>
            rw [readBitsFrom] at h
            rw [readBitsFrom]
            exact ihn _ _ _ _ _ h
      have h := ih (k + 1) v
      rw [show n + (k + 1) = n + 1 + k by omega, Memory.bits] at h
      rw [hstep n v _ _ _ _ h, Memory.read]
      congr 2
      ring
  simpa [readBits] using key n k 0

/-! ## Images from bytes and from bits -/

theorem byteAt_cellsFrom (j : Nat) (bytes : List Byte) (k : Nat) :
    byteAt (cellsFrom j bytes) k = if k < j then 0 else (bytes[k - j]?).getD 0 := by
  induction bytes generalizing j with
  | nil => simp [cellsFrom, byteAt]
  | cons b bytes ih =>
    have hrest : byteAt (cellsFrom (j + 1) bytes) k =
        if k < j + 1 then 0 else (bytes[k - (j + 1)]?).getD 0 := ih (j + 1)
    by_cases hb : b = 0
    · rw [cellsFrom, if_pos hb, hrest]
      rcases Nat.lt_trichotomy k j with h | h | h
      · simp [h, Nat.lt_succ_of_lt h]
      · simp [h, hb]
      · rw [if_neg (by omega), if_neg (by omega), show k - j = (k - (j + 1)) + 1 by omega, List.getElem?_cons_succ]
    · rw [cellsFrom, if_neg hb, byteAt]
      rcases Nat.lt_trichotomy k j with h | h | h
      · rw [if_neg (by simp; omega), hrest, if_pos (by omega), if_pos h]
      · simp [h]
      · rw [if_neg (by simp; omega), hrest, if_neg (by omega), if_neg (by omega),
          show k - j = (k - (j + 1)) + 1 by omega, List.getElem?_cons_succ]

theorem mem_cellsFrom (j : Nat) (bytes : List Byte) (c : Host.Cell) (h : c ∈ cellsFrom j bytes) :
    j ≤ c.1 ∧ c.2 ≠ 0 ∧ bytes[c.1 - j]? = some c.2 := by
  induction bytes generalizing j with
  | nil => simp [cellsFrom] at h
  | cons b bytes ih =>
    have hrest : c ∈ cellsFrom (j + 1) bytes → j ≤ c.1 ∧ c.2 ≠ 0 ∧ (b :: bytes)[c.1 - j]? = some c.2 := by
      intro hc
      obtain ⟨h1, h2, h3⟩ := ih (j + 1) hc
      refine ⟨by omega, h2, ?_⟩
      rw [show c.1 - j = (c.1 - (j + 1)) + 1 by omega, List.getElem?_cons_succ, h3]
    by_cases hb : b = 0
    · rw [cellsFrom, if_pos hb] at h
      exact hrest h
    · rw [cellsFrom, if_neg hb] at h
      rcases List.mem_cons.mp h with rfl | h
      · exact ⟨le_rfl, hb, by simp⟩
      · exact hrest h

theorem cellsFrom_rising (j : Nat) (bytes : List Byte) :
    (cellsFrom j bytes).Pairwise fun c d => c.1 < d.1 := by
  induction bytes generalizing j with
  | nil => simp [cellsFrom]
  | cons b bytes ih =>
    by_cases hb : b = 0
    · rw [cellsFrom, if_pos hb]; exact ih (j + 1)
    · rw [cellsFrom, if_neg hb, List.pairwise_cons]
      exact ⟨fun d hd => by have := (mem_cellsFrom (j + 1) bytes d hd).1; simp; omega, ih (j + 1)⟩

/-- An image supplied as bytes has the one form. -/
theorem Memory.ofBytes_wf (bytes : List Byte) : (Memory.ofBytes bytes).wf := by
  refine ⟨cellsFrom_rising 0 bytes, fun c hc => (mem_cellsFrom 0 bytes c hc).2.1, ?_⟩
  intro c hc t ht _
  have h3 := (mem_cellsFrom 0 bytes c hc).2.2
  have : c.1 - 0 < bytes.length := (List.getElem?_eq_some_iff.mp h3).1
  simp only [Memory.ofBytes]
  omega

theorem paddedValue_bound (n v : Nat) (bs : Bits) : paddedValue n v bs < (v + 1) * 2 ^ n := by
  induction n generalizing v bs with
  | zero => simp [paddedValue]
  | succ n ih =>
    cases bs with
    | nil =>
      have := ih (2 * v) []
      simp only [paddedValue, Nat.pow_succ]
      nlinarith [Nat.two_pow_pos n]
    | cons b bs =>
      have := ih (2 * v + b.toNat) bs
      have hb := Bool.toNat_le b
      simp only [paddedValue, Nat.pow_succ]
      nlinarith [Nat.two_pow_pos n]

theorem paddedValue_testBit (n v : Nat) (bs : Bits) (i : Nat) (h : i < n) :
    (paddedValue n v bs).testBit i = bs.getD (n - 1 - i) false := by
  have split : ∀ (n v : Nat) (bs : Bits), paddedValue n v bs = 2 ^ n * v + paddedValue n 0 bs := by
    intro n
    induction n with
    | zero => intro v bs; simp [paddedValue]
    | succ n ih =>
      intro v bs
      cases bs with
      | nil => simp only [paddedValue, Nat.mul_zero]; rw [ih (2 * v)]; ring
      | cons b bs =>
        simp only [paddedValue, Nat.mul_zero, Nat.zero_add]
        rw [ih (2 * v + b.toNat), ih b.toNat]; ring
  induction n generalizing v bs with
  | zero => omega
  | succ n ih =>
    have low : ∀ w bs', (paddedValue n w bs') = 2 ^ n * w + paddedValue n 0 bs' := fun w bs' => split n w bs'
    have hlt : ∀ bs', paddedValue n 0 bs' < 2 ^ n := fun bs' => by simpa using paddedValue_bound n 0 bs'
    cases bs with
    | nil =>
      rw [paddedValue, low]
      by_cases hi : i < n
      · rw [Nat.testBit_two_pow_mul_add _ (hlt _), if_pos hi, ih 0 [] hi]
        simp
      · obtain rfl : i = n := by omega
        rw [Nat.testBit_two_pow_mul_add _ (hlt _), if_neg (by omega)]
        simp
    | cons b bs =>
      rw [paddedValue, low]
      by_cases hi : i < n
      · rw [Nat.testBit_two_pow_mul_add _ (hlt _), if_pos hi, ih 0 bs hi,
          show n + 1 - 1 - i = (n - 1 - i) + 1 by omega, List.getD_cons_succ]
      · obtain rfl : i = n := by omega
        rw [Nat.testBit_two_pow_mul_add _ (hlt _), if_neg (by omega)]
        cases b <;> simp

theorem packBytes_length (k : Nat) (bs : Bits) : (packBytes k bs).length = k := by
  induction k generalizing bs with
  | zero => rfl
  | succ k ih => simp [packBytes, ih]

theorem packBytes_bit (k : Nat) (bs : Bits) (j t : Nat) (hj : j < k) (ht : t < 8) :
    (((packBytes k bs)[j]?).getD 0).getLsbD (7 - t) = bs.getD (8 * j + t) false := by
  induction k generalizing bs j with
  | zero => omega
  | succ k ih =>
    cases j with
    | zero =>
      simp only [packBytes, List.getElem?_cons_zero, Option.getD_some, BitVec.getLsbD_ofNat]
      rw [paddedValue_testBit 8 0 bs (7 - t) (by omega), show 8 - 1 - (7 - t) = t by omega]
      simp [show 7 - t < 8 by omega]
    | succ j =>
      simp only [packBytes, List.getElem?_cons_succ]
      rw [ih _ j (by omega)]
      simp only [List.getD_eq_getElem?_getD, List.getElem?_drop]
      congr 2
      omega

/-- An image supplied as a bit string reads as that string (R51). -/
theorem Memory.ofBits_bitAt (bs : Bits) (i : Nat) (h : i < bs.length) : (Memory.ofBits bs).bitAt i = bs.getD i false := by
  rw [Memory.bitAt, Memory.ofBits, byteAt_cellsFrom, if_neg (by omega), Nat.sub_zero,
    packBytes_bit _ _ _ _ (by omega) (by omega)]
  congr 1
  omega

theorem Memory.ofBits_bits (bs : Bits) : (Memory.ofBits bs).bits 0 bs.length = bs := by
  apply List.ext_getElem
  · simp
  · intro i h1 h2
    rw [Memory.bits_getElem, Nat.zero_add, Memory.ofBits_bitAt bs i h2, List.getD_eq_getElem?_getD,
      List.getElem?_eq_getElem h2]
    rfl

/-- An image supplied as a bit string has the one form. -/
theorem Memory.ofBits_wf (bs : Bits) : (Memory.ofBits bs).wf := by
  refine ⟨cellsFrom_rising 0 _, fun c hc => (mem_cellsFrom 0 _ c hc).2.1, ?_⟩
  intro c hc t ht hbit
  have h3 := (mem_cellsFrom 0 _ c hc).2.2
  rw [Nat.sub_zero] at h3
  have hlt := (List.getElem?_eq_some_iff.mp h3).1
  rw [packBytes_length] at hlt
  have hb := packBytes_bit ((bs.length + 7) / 8) bs c.1 t hlt ht
  rw [h3, Option.getD_some, hbit] at hb
  simp only [Memory.ofBits]
  by_contra hge
  rw [List.getD_eq_getElem?_getD, List.getElem?_eq_none (by omega)] at hb
  simp at hb

end Sys2Proof.Machine
end

