-- ==== Sys2Proof/Laws/State.lean ====
section
/-! SUPPORT. Every field of the state after every update, so that no proof unfolds a record update. -/

namespace Sys2Proof.Machine

variable (s : State)

@[simp] theorem State.advance_regs (n : Nat) : (s.advance n).regs = s.regs := rfl
@[simp] theorem State.advance_page (n : Nat) : (s.advance n).page = s.page := rfl
@[simp] theorem State.advance_stack (n : Nat) : (s.advance n).stack = s.stack := rfl
@[simp] theorem State.advance_funcs (n : Nat) : (s.advance n).funcs = s.funcs := rfl
@[simp] theorem State.advance_frames (n : Nat) : (s.advance n).frames = advanceTop n s.frames := rfl
@[simp] theorem State.advance_out (n : Nat) : (s.advance n).out = s.out := rfl
@[simp] theorem State.advance_res (n : Nat) : (s.advance n).res = s.res := rfl
@[simp] theorem State.advance_mem (n : Nat) : (s.advance n).mem = s.mem := rfl
@[simp] theorem State.advance_input (n : Nat) : (s.advance n).input = s.input := rfl
@[simp] theorem State.advance_params (n : Nat) : (s.advance n).params = s.params := rfl

@[simp] theorem State.setPage_regs (p : PageNo) : (s.setPage p).regs = s.regs := rfl
@[simp] theorem State.setPage_page (p : PageNo) : (s.setPage p).page = p := rfl
@[simp] theorem State.setPage_stack (p : PageNo) : (s.setPage p).stack = s.stack := rfl
@[simp] theorem State.setPage_funcs (p : PageNo) : (s.setPage p).funcs = s.funcs := rfl
@[simp] theorem State.setPage_frames (p : PageNo) : (s.setPage p).frames = s.frames := rfl
@[simp] theorem State.setPage_out (p : PageNo) : (s.setPage p).out = s.out := rfl
@[simp] theorem State.setPage_res (p : PageNo) : (s.setPage p).res = s.res := rfl
@[simp] theorem State.setPage_mem (p : PageNo) : (s.setPage p).mem = s.mem := rfl
@[simp] theorem State.setPage_input (p : PageNo) : (s.setPage p).input = s.input := rfl
@[simp] theorem State.setPage_params (p : PageNo) : (s.setPage p).params = s.params := rfl

@[simp] theorem State.endRun_regs (ev : Event) : (s.endRun ev).regs = s.regs := rfl
@[simp] theorem State.endRun_page (ev : Event) : (s.endRun ev).page = s.page := rfl
@[simp] theorem State.endRun_stack (ev : Event) : (s.endRun ev).stack = s.stack := rfl
@[simp] theorem State.endRun_funcs (ev : Event) : (s.endRun ev).funcs = s.funcs := rfl
@[simp] theorem State.endRun_frames (ev : Event) : (s.endRun ev).frames = [] := rfl
@[simp] theorem State.endRun_out (ev : Event) : (s.endRun ev).out = s.out := rfl
@[simp] theorem State.endRun_res (ev : Event) : (s.endRun ev).res = ev.result := rfl
/-- R230: every event of the table ends the run. -/
@[simp] theorem Event.result_cls_ne (ev : Event) : ev.result.cls ≠ .running := by cases ev <;> decide
@[simp] theorem State.endRun_mem (ev : Event) : (s.endRun ev).mem = s.mem := rfl
@[simp] theorem State.endRun_input (ev : Event) : (s.endRun ev).input = s.input := rfl
@[simp] theorem State.endRun_params (ev : Event) : (s.endRun ev).params = s.params := rfl

@[simp] theorem State.setFunc_regs (id : FuncId) (f : Option Span) : (s.setFunc id f).regs = s.regs := rfl
@[simp] theorem State.setFunc_page (id : FuncId) (f : Option Span) : (s.setFunc id f).page = s.page := rfl
@[simp] theorem State.setFunc_stack (id : FuncId) (f : Option Span) : (s.setFunc id f).stack = s.stack := rfl
@[simp] theorem State.setFunc_funcs (id : FuncId) (f : Option Span) : (s.setFunc id f).funcs = s.funcs.set id.toNat f id.isLt := rfl
@[simp] theorem State.setFunc_frames (id : FuncId) (f : Option Span) : (s.setFunc id f).frames = s.frames := rfl
@[simp] theorem State.setFunc_out (id : FuncId) (f : Option Span) : (s.setFunc id f).out = s.out := rfl
@[simp] theorem State.setFunc_res (id : FuncId) (f : Option Span) : (s.setFunc id f).res = s.res := rfl
@[simp] theorem State.setFunc_mem (id : FuncId) (f : Option Span) : (s.setFunc id f).mem = s.mem := rfl
@[simp] theorem State.setFunc_input (id : FuncId) (f : Option Span) : (s.setFunc id f).input = s.input := rfl
@[simp] theorem State.setFunc_params (id : FuncId) (f : Option Span) : (s.setFunc id f).params = s.params := rfl

@[simp] theorem State.emit_regs (text : List Scalar) : (s.emit text).regs = s.regs := rfl
@[simp] theorem State.emit_page (text : List Scalar) : (s.emit text).page = s.page := rfl
@[simp] theorem State.emit_stack (text : List Scalar) : (s.emit text).stack = s.stack := rfl
@[simp] theorem State.emit_funcs (text : List Scalar) : (s.emit text).funcs = s.funcs := rfl
@[simp] theorem State.emit_frames (text : List Scalar) : (s.emit text).frames = s.frames := rfl
@[simp] theorem State.emit_out (text : List Scalar) : (s.emit text).out = s.out ++ text := rfl
@[simp] theorem State.emit_res (text : List Scalar) : (s.emit text).res = s.res := rfl
@[simp] theorem State.emit_mem (text : List Scalar) : (s.emit text).mem = s.mem := rfl
@[simp] theorem State.emit_input (text : List Scalar) : (s.emit text).input = s.input := rfl
@[simp] theorem State.emit_params (text : List Scalar) : (s.emit text).params = s.params := rfl

@[simp] theorem State.restart_regs (f : Frame) (kind : FrameKind) (below : List Frame) : (s.restart f kind below).regs = s.regs := rfl
@[simp] theorem State.restart_page (f : Frame) (kind : FrameKind) (below : List Frame) : (s.restart f kind below).page = s.page := rfl
@[simp] theorem State.restart_stack (f : Frame) (kind : FrameKind) (below : List Frame) : (s.restart f kind below).stack = s.stack := rfl
@[simp] theorem State.restart_funcs (f : Frame) (kind : FrameKind) (below : List Frame) : (s.restart f kind below).funcs = s.funcs := rfl
@[simp] theorem State.restart_frames (f : Frame) (kind : FrameKind) (below : List Frame) : (s.restart f kind below).frames = { f with pc := f.body.start, kind := kind } :: below := rfl
@[simp] theorem State.restart_out (f : Frame) (kind : FrameKind) (below : List Frame) : (s.restart f kind below).out = s.out := rfl
@[simp] theorem State.restart_res (f : Frame) (kind : FrameKind) (below : List Frame) : (s.restart f kind below).res = s.res := rfl
@[simp] theorem State.restart_mem (f : Frame) (kind : FrameKind) (below : List Frame) : (s.restart f kind below).mem = s.mem := rfl
@[simp] theorem State.restart_input (f : Frame) (kind : FrameKind) (below : List Frame) : (s.restart f kind below).input = s.input := rfl
@[simp] theorem State.restart_params (f : Frame) (kind : FrameKind) (below : List Frame) : (s.restart f kind below).params = s.params := rfl

@[simp] theorem State.popFrame_regs (below : List Frame) : (s.popFrame below).regs = s.regs := rfl
@[simp] theorem State.popFrame_page (below : List Frame) : (s.popFrame below).page = s.page := rfl
@[simp] theorem State.popFrame_stack (below : List Frame) : (s.popFrame below).stack = s.stack := rfl
@[simp] theorem State.popFrame_funcs (below : List Frame) : (s.popFrame below).funcs = s.funcs := rfl
@[simp] theorem State.popFrame_frames (below : List Frame) : (s.popFrame below).frames = below := rfl
@[simp] theorem State.popFrame_out (below : List Frame) : (s.popFrame below).out = s.out := rfl
@[simp] theorem State.popFrame_res (below : List Frame) : (s.popFrame below).res = s.res := rfl
@[simp] theorem State.popFrame_mem (below : List Frame) : (s.popFrame below).mem = s.mem := rfl
@[simp] theorem State.popFrame_input (below : List Frame) : (s.popFrame below).input = s.input := rfl
@[simp] theorem State.popFrame_params (below : List Frame) : (s.popFrame below).params = s.params := rfl

@[simp] theorem State.loadImage_regs (image : Bits) : (s.loadImage image).regs = s.regs := rfl
@[simp] theorem State.loadImage_page (image : Bits) : (s.loadImage image).page = s.page := rfl
@[simp] theorem State.loadImage_stack (image : Bits) : (s.loadImage image).stack = s.stack := rfl
@[simp] theorem State.loadImage_funcs (image : Bits) : (s.loadImage image).funcs = s.funcs := rfl
@[simp] theorem State.loadImage_frames (image : Bits) : (s.loadImage image).frames = [{ pc := 0, body := { start := 0, stop := image.length }, kind := .root }] := rfl
@[simp] theorem State.loadImage_out (image : Bits) : (s.loadImage image).out = s.out := rfl
@[simp] theorem State.loadImage_res (image : Bits) : (s.loadImage image).res = { cls := .running, code := 0 } := rfl
@[simp] theorem State.loadImage_mem (image : Bits) : (s.loadImage image).mem = Memory.ofBits image := rfl
@[simp] theorem State.loadImage_input (image : Bits) : (s.loadImage image).input = s.input := rfl
@[simp] theorem State.loadImage_params (image : Bits) : (s.loadImage image).params = s.params := rfl

@[simp] theorem State.setReg_page (a : RegAddr) (v : Word) : (s.setReg a v).page = s.page := rfl
@[simp] theorem State.setReg_stack (a : RegAddr) (v : Word) : (s.setReg a v).stack = s.stack := rfl
@[simp] theorem State.setReg_funcs (a : RegAddr) (v : Word) : (s.setReg a v).funcs = s.funcs := rfl
@[simp] theorem State.setReg_frames (a : RegAddr) (v : Word) : (s.setReg a v).frames = s.frames := rfl
@[simp] theorem State.setReg_out (a : RegAddr) (v : Word) : (s.setReg a v).out = s.out := rfl
@[simp] theorem State.setReg_res (a : RegAddr) (v : Word) : (s.setReg a v).res = s.res := rfl
@[simp] theorem State.setReg_mem (a : RegAddr) (v : Word) : (s.setReg a v).mem = s.mem := rfl
@[simp] theorem State.setReg_input (a : RegAddr) (v : Word) : (s.setReg a v).input = s.input := rfl
@[simp] theorem State.setReg_params (a : RegAddr) (v : Word) : (s.setReg a v).params = s.params := rfl

@[simp] theorem State.moveTo_regs (target : Nat) : (s.moveTo target).regs = s.regs := rfl
@[simp] theorem State.moveTo_page (target : Nat) : (s.moveTo target).page = s.page := rfl
@[simp] theorem State.moveTo_stack (target : Nat) : (s.moveTo target).stack = s.stack := rfl
@[simp] theorem State.moveTo_funcs (target : Nat) : (s.moveTo target).funcs = s.funcs := rfl
@[simp] theorem State.moveTo_out (target : Nat) : (s.moveTo target).out = s.out := rfl
@[simp] theorem State.moveTo_res (target : Nat) : (s.moveTo target).res = s.res := rfl
@[simp] theorem State.moveTo_mem (target : Nat) : (s.moveTo target).mem = s.mem := rfl
@[simp] theorem State.moveTo_input (target : Nat) : (s.moveTo target).input = s.input := rfl
@[simp] theorem State.moveTo_params (target : Nat) : (s.moveTo target).params = s.params := rfl

theorem State.moveTo_frames_cons (target : Nat) {f : Frame} {below : List Frame} (h : s.frames = f :: below) :
    (s.moveTo target).frames = { f with pc := target } :: below := by
  simp [State.moveTo, h]

@[simp] theorem advanceTop_nil (n : Nat) : advanceTop n [] = [] := rfl

@[simp] theorem advanceTop_cons (n : Nat) (f : Frame) (fs : List Frame) :
    advanceTop n (f :: fs) = { f with pc := f.pc + n } :: fs := rfl

@[simp] theorem advanceTop_zero (fs : List Frame) : advanceTop 0 fs = fs := by cases fs <;> rfl

@[simp] theorem advanceTop_length (n : Nat) (fs : List Frame) : (advanceTop n fs).length = fs.length := by
  cases fs <;> rfl

@[simp] theorem State.advance_regAt (n : Nat) (p : PageNo) (j : RegAddr) : (s.advance n).regAt p j = s.regAt p j := rfl
@[simp] theorem State.advance_reg (n : Nat) (j : RegAddr) : (s.advance n).reg j = s.reg j := rfl
@[simp] theorem State.advance_func (n : Nat) (id : FuncId) : (s.advance n).func id = s.func id := rfl
@[simp] theorem State.setPage_regAt (q : PageNo) (p : PageNo) (j : RegAddr) : (s.setPage q).regAt p j = s.regAt p j := rfl
@[simp] theorem State.setPage_func (p : PageNo) (id : FuncId) : (s.setPage p).func id = s.func id := rfl
@[simp] theorem State.endRun_regAt (ev : Event) (p : PageNo) (j : RegAddr) : (s.endRun ev).regAt p j = s.regAt p j := rfl
@[simp] theorem State.endRun_reg (ev : Event) (j : RegAddr) : (s.endRun ev).reg j = s.reg j := rfl
@[simp] theorem State.endRun_func (ev : Event) (id : FuncId) : (s.endRun ev).func id = s.func id := rfl
@[simp] theorem State.setFunc_regAt (id : FuncId) (f : Option Span) (p : PageNo) (j : RegAddr) : (s.setFunc id f).regAt p j = s.regAt p j := rfl
@[simp] theorem State.setFunc_reg (id : FuncId) (f : Option Span) (j : RegAddr) : (s.setFunc id f).reg j = s.reg j := rfl
@[simp] theorem State.emit_regAt (text : List Scalar) (p : PageNo) (j : RegAddr) : (s.emit text).regAt p j = s.regAt p j := rfl
@[simp] theorem State.emit_reg (text : List Scalar) (j : RegAddr) : (s.emit text).reg j = s.reg j := rfl
@[simp] theorem State.emit_func (text : List Scalar) (id : FuncId) : (s.emit text).func id = s.func id := rfl
@[simp] theorem State.restart_regAt (f : Frame) (kind : FrameKind) (below : List Frame) (p : PageNo) (j : RegAddr) : (s.restart f kind below).regAt p j = s.regAt p j := rfl
@[simp] theorem State.restart_reg (f : Frame) (kind : FrameKind) (below : List Frame) (j : RegAddr) : (s.restart f kind below).reg j = s.reg j := rfl
@[simp] theorem State.restart_func (f : Frame) (kind : FrameKind) (below : List Frame) (id : FuncId) : (s.restart f kind below).func id = s.func id := rfl
@[simp] theorem State.popFrame_regAt (below : List Frame) (p : PageNo) (j : RegAddr) : (s.popFrame below).regAt p j = s.regAt p j := rfl
@[simp] theorem State.popFrame_reg (below : List Frame) (j : RegAddr) : (s.popFrame below).reg j = s.reg j := rfl
@[simp] theorem State.popFrame_func (below : List Frame) (id : FuncId) : (s.popFrame below).func id = s.func id := rfl
@[simp] theorem State.loadImage_regAt (image : Bits) (p : PageNo) (j : RegAddr) : (s.loadImage image).regAt p j = s.regAt p j := rfl
@[simp] theorem State.loadImage_reg (image : Bits) (j : RegAddr) : (s.loadImage image).reg j = s.reg j := rfl
@[simp] theorem State.loadImage_func (image : Bits) (id : FuncId) : (s.loadImage image).func id = s.func id := rfl
@[simp] theorem State.setReg_func (a : RegAddr) (v : Word) (id : FuncId) : (s.setReg a v).func id = s.func id := rfl
@[simp] theorem State.moveTo_regAt (target : Nat) (p : PageNo) (j : RegAddr) : (s.moveTo target).regAt p j = s.regAt p j := rfl
@[simp] theorem State.moveTo_reg (target : Nat) (j : RegAddr) : (s.moveTo target).reg j = s.reg j := rfl
@[simp] theorem State.moveTo_func (target : Nat) (id : FuncId) : (s.moveTo target).func id = s.func id := rfl

end Sys2Proof.Machine
end

