-- ==== Sys2Proof/Laws/Ops.lean ====
section
/-! SUPPORT. For each shared operation, once, everything it can do. -/

namespace Sys2Proof.Machine

/-- A capacity is used up exactly when it is finite and no greater than the number of entries. -/
theorem exhausted_eq_true (capacity : Option Nat) (n : Nat) :
    exhausted capacity n = true ↔ ∃ d, capacity = some d ∧ d ≤ n := by
  cases capacity <;> simp [exhausted]

theorem exhausted_eq_false (capacity : Option Nat) (n : Nat) :
    exhausted capacity n = false ↔ ∀ d, capacity = some d → n < d := by
  cases capacity <;> simp [exhausted]

/-- There is room for a frame exactly when R107's capacity is not used up. -/
theorem frameRoom_iff (s : State) : FrameRoom s ↔ exhausted s.params.frameDepth s.frames.length = false :=
  (exhausted_eq_false _ _).symm

theorem FrameFull.exhausted {s : State} (h : FrameFull s) : exhausted s.params.frameDepth s.frames.length = true :=
  (exhausted_eq_true _ _).2 ⟨_, h, le_rfl⟩

@[simp] theorem State.withoutFrameDepth_frames (s : State) : s.withoutFrameDepth.frames = s.frames := rfl
@[simp] theorem State.withoutFrameDepth_reg (s : State) (a : RegAddr) : s.withoutFrameDepth.reg a = s.reg a := (rfl)
@[simp] theorem State.withoutFrameDepth_func (s : State) (k : FuncId) : s.withoutFrameDepth.func k = s.func k := rfl
@[simp] theorem State.withoutFrameDepth_capture (s : State) (start stop : Nat) :
    s.withoutFrameDepth.capture start stop = s.capture start stop := rfl
@[simp] theorem State.withoutFrameDepth_room (s : State) : FrameRoom s.withoutFrameDepth := fun _ h => by cases h

/-- `cond(c, u, v)` (R186): the comparison the code names, of unsigned numbers. -/
theorem condHolds_iff (c : Cond) (u v : Word) :
    condHolds c u v = true ↔ match c with
      | .eq => u.toNat = v.toNat
      | .le => u.toNat ≤ v.toNat
      | .ge => u.toNat ≥ v.toNat
      | .ne => u.toNat ≠ v.toNat := by
  cases c <;> simp [condHolds]

/-- `FT[id] <- f` (R28): the one entry changes. -/
theorem State.setFunc_func (s : State) (id : FuncId) (f : Option Span) (k : FuncId) :
    (s.setFunc id f).func k = if k = id then f else s.func k := by
  unfold State.func State.setFunc
  simp only [Vector.getElem_set, BitVec.toNat_inj, eq_comm]

/-- `push(v)` (R27). -/
theorem State.pushEntry_cases (s : State) (v : Word) :
    (exhausted s.params.stackDepth s.stack.length = true ∧ s.pushEntry v = s.endRun .stackExhausted) ∨
    (exhausted s.params.stackDepth s.stack.length = false ∧ s.pushEntry v = { s with stack := v :: s.stack }) := by
  unfold State.pushEntry
  cases exhausted s.params.stackDepth s.stack.length <;> simp

/-- `enter(kind, span)` (R107). -/
theorem State.enter_cases (s : State) (kind : FrameKind) (body : Span) :
    (exhausted s.params.frameDepth s.frames.length = true ∧ s.enter kind body = s.endRun .framesExhausted) ∨
    (exhausted s.params.frameDepth s.frames.length = false ∧
      s.enter kind body = { s with frames := { pc := body.start, body := body, kind := kind } :: s.frames }) := by
  unfold State.enter
  cases exhausted s.params.frameDepth s.frames.length <;> simp

/-- `for_start` (R194). -/
theorem State.forStart_cases (t : State) (a : RegAddr) (n : Nat) (body : Span) :
    (n = 0 ∧ t.forStart a n body = t) ∨
    (1 ≤ n ∧ t.forStart a n body = (t.setReg a (toWord 1)).enter (.counts a 1 n) body) := by
  unfold State.forStart
  split
  · exact .inr ⟨‹_›, rfl⟩
  · exact .inl ⟨by omega, rfl⟩

/-- The ways a frame goes on or ends (R106). -/
inductive FrameEndCase (s t : State) (f : Frame) (below : List Frame) : Prop where
  | endOfStream (kind : f.kind = .root) (result : t = s.endRun .endOfStream)
  | pop (kind : f.kind ≠ .root) (result : t = s.popFrame below)
  | again (k : Nat) (kind : f.kind = .repeats k) (more : 1 < k) (result : t = s.restart f (.repeats (k - 1)) below)
  | next (a : RegAddr) (i n : Nat) (kind : f.kind = .counts a i n) (more : i < n)
      (result : t = (s.restart f (.counts a (i + 1) n) below).setReg a (toWord (i + 1)))
  | loop (a1 : RegAddr) (c : Cond) (a2 : RegAddr) (kind : f.kind = .loops a1 c a2)
      (more : condHolds c (s.reg a1) (s.reg a2) = true) (result : t = s.restart f (.loops a1 c a2) below)

/-- `frame_end()` (R106): what a next state of it can be. -/
theorem State.frameEnd_cases {s t : State} (h : s.frameEnd = .next t) :
    ∃ f below, s.frames = f :: below ∧ FrameEndCase s t f below := by
  unfold State.frameEnd at h
  cases hf : s.frames with
  | nil => simp [hf] at h
  | cons f below =>
    refine ⟨f, below, rfl, ?_⟩
    simp only [hf] at h
    cases hk : f.kind with
    | root =>
      simp only [hk, Host.Outcome.next.injEq] at h
      exact .endOfStream hk h.symm
    | once =>
      simp only [hk, Host.Outcome.next.injEq] at h
      exact .pop (by simp [hk]) h.symm
    | call =>
      simp only [hk, Host.Outcome.next.injEq] at h
      exact .pop (by simp [hk]) h.symm
    | repeats k =>
      simp only [hk] at h
      split at h
      · exact .again k hk ‹_› (Host.Outcome.next.inj h).symm
      · exact .pop (by simp [hk]) (Host.Outcome.next.inj h).symm
    | counts a i n =>
      simp only [hk] at h
      split at h
      · exact .next a i n hk ‹_› (Host.Outcome.next.inj h).symm
      · exact .pop (by simp [hk]) (Host.Outcome.next.inj h).symm
    | loops a1 c a2 =>
      simp only [hk] at h
      split at h
      · exact .loop a1 c a2 hk ‹_› (Host.Outcome.next.inj h).symm
      · exact .pop (by simp [hk]) (Host.Outcome.next.inj h).symm

/-- A frame's end has a next state whenever there is a frame. -/
theorem State.frameEnd_next {s : State} {f : Frame} {below : List Frame} (h : s.frames = f :: below) :
    ∃ t, s.frameEnd = .next t := by
  unfold State.frameEnd
  simp only [h]
  cases f.kind with
  | root => exact ⟨_, rfl⟩
  | once => exact ⟨_, rfl⟩
  | call => exact ⟨_, rfl⟩
  | repeats k => dsimp only; split <;> exact ⟨_, rfl⟩
  | counts a i n => dsimp only; split <;> exact ⟨_, rfl⟩
  | loops a1 c a2 => dsimp only; split <;> exact ⟨_, rfl⟩

/-- The tail rule (R103): end of stream, or `UnexpectedEnd`. -/
theorem State.tail_cases (s : State) (f : Frame) :
    (f.kind = .root ∧ s.tail f = s.frameEnd) ∨ s.tail f = .next (s.endRun .unexpectedEnd) := by
  unfold State.tail
  split
  · rename_i h
    exact .inl ⟨h.2.1, rfl⟩
  · exact .inr rfl

/-- A body-bearing BLOCK (R105, R176): with a frame, it ends the run when the capture fails, and acts on the captured
body with the `pc` past the END when it does not. -/
theorem State.withBody_eq {s : State} {f : Frame} {below : List Frame} (header : Nat) (act : Span → State → State)
    (h : s.frames = f :: below) :
    s.withBody header act = match s.capture (f.pc + header) f.body.stop with
      | .error _ => .next (s.endRun .unexpectedEnd)
      | .ok body => .next (act body (s.moveTo (body.stop + 3))) := by
  unfold State.withBody
  simp only [h]
  cases s.capture (f.pc + header) f.body.stop with
  | error e => cases e; rfl
  | ok body => rfl

theorem State.withBody_cases {s t : State} {header : Nat} {act : Span → State → State}
    (h : s.withBody header act = .next t) :
    ∃ f below, s.frames = f :: below ∧
      ((s.capture (f.pc + header) f.body.stop = .error .unexpectedEnd ∧ t = s.endRun .unexpectedEnd) ∨
        ∃ body, s.capture (f.pc + header) f.body.stop = .ok body ∧ t = act body (s.moveTo (body.stop + 3))) := by
  cases hf : s.frames with
  | nil => simp [State.withBody, hf] at h
  | cons f below =>
    refine ⟨f, below, rfl, ?_⟩
    rw [State.withBody_eq header act hf] at h
    cases hc : s.capture (f.pc + header) f.body.stop with
    | error e =>
      cases e
      rw [hc] at h
      exact .inl ⟨rfl, (Host.Outcome.next.inj h).symm⟩
    | ok body =>
      rw [hc] at h
      exact .inr ⟨body, rfl, (Host.Outcome.next.inj h).symm⟩

/-- A capture's span starts where the capture started, and its end is what the loop found (R171). -/
theorem State.capture_ok {s : State} {start stop : Nat} {body : Span} (h : s.capture start stop = .ok body) :
    body.start = start ∧
      captureLoop (stop - start + 1) 1 start (s.mem.bits start (stop - start)) = .ok body.stop := by
  unfold State.capture at h
  split at h
  · cases h
    exact ⟨rfl, ‹_›⟩
  · cases h

/-- The input instructions (R218 to R221): a wait, a line that does not parse, or a register write. -/
theorem inputNumber_cases {radix : Nat} {a : RegAddr} {s t : State} (h : inputNumber radix a s = .next t) :
    (s.input = [] ∧ t = s) ∨
    ∃ line later, s.input = line :: later ∧
      ((parseLine radix line = none ∧ t = ({ s with input := later }.advance 9).endRun .malformedInput) ∨
        ∃ v, parseLine radix line = some v ∧ t = ({ s with input := later }.advance 9).setReg a (toWord v)) := by
  unfold inputNumber at h
  cases hin : s.input with
  | nil =>
    simp only [hin, Host.Outcome.next.injEq] at h
    exact .inl ⟨rfl, h.symm⟩
  | cons line later =>
    simp only [hin] at h
    refine .inr ⟨line, later, rfl, ?_⟩
    cases hp : parseLine radix line with
    | none =>
      simp only [hp, Host.Outcome.next.injEq] at h
      exact .inl ⟨rfl, h.symm⟩
    | some v =>
      simp only [hp, Host.Outcome.next.injEq] at h
      exact .inr ⟨v, rfl, h.symm⟩

/-- What a step can be (R102). -/
inductive StepCase (s t : State) : Prop where
  | ended (finished : s.res.cls ≠ .running) (result : t = s)
  | frameEnd (running : s.res.cls = .running) (result : s.frameEnd = .next t)
  | unexpectedEnd (running : s.res.cls = .running) (result : t = s.endRun .unexpectedEnd)
  | instruction (f : Frame) (below : List Frame) (i : Instr) (rest : Bits) (running : s.res.cls = .running)
      (top : s.frames = f :: below) (fetched : decode (s.remaining f) = .ok (i, rest)) (result : exec i s = .next t)

/-- R102: a step leaves an ended run as it is, ends a frame, ends the run, or runs the decoded instruction. -/
theorem step_cases {s t : State} (h : step s = .next t) : StepCase s t := by
  unfold step State.fetch at h
  cases hc : s.res.cls with
  | halted => simp only [hc] at h; exact .ended (by simp [hc]) (Host.Outcome.next.inj h).symm
  | isaFault => simp only [hc] at h; exact .ended (by simp [hc]) (Host.Outcome.next.inj h).symm
  | resource => simp only [hc] at h; exact .ended (by simp [hc]) (Host.Outcome.next.inj h).symm
  | running =>
    simp only [hc] at h
    cases hf : s.frames with
    | nil => simp [hf] at h
    | cons f below =>
      simp only [hf] at h
      by_cases h0 : f.body.stop - f.pc = 0
      · rw [if_pos h0] at h
        exact .frameEnd hc h
      rw [if_neg h0] at h
      by_cases h3 : f.body.stop - f.pc < 3
      · rw [if_pos h3] at h
        dsimp only at h
        rcases State.tail_cases s f with ⟨_, ht⟩ | ht
        · exact .frameEnd hc (ht ▸ h)
        · rw [ht] at h
          exact .unexpectedEnd hc (Host.Outcome.next.inj h).symm
      rw [if_neg h3] at h
      cases hd : decode (s.remaining f) with
      | error e =>
        cases e
        simp only [hd, Host.Outcome.next.injEq] at h
        exact .unexpectedEnd hc h.symm
      | ok p =>
        obtain ⟨i, rest⟩ := p
        simp only [hd] at h
        exact .instruction f below i rest hc hf hd h

end Sys2Proof.Machine
end

