-- ==== Sys2Proof/Laws/PerInstr.lean ====
section
/-! SUPPORT. Facts about every instruction as syntax, one lemma for each constructor. -/

namespace Sys2Proof.Laws

/-- The encoding of a well-formed instruction is as long as the operand-width table of R82 says. -/
def EncodedWidth.Statement (i : Instr) : Prop := i.wf = true → (encode i).length = i.width

theorem EncodedWidth.nop : EncodedWidth.Statement .nop := fun _ => rfl

theorem EncodedWidth.inc (a : RegAddr) : EncodedWidth.Statement (.inc a) := fun _ => rfl

theorem EncodedWidth.dec (a : RegAddr) : EncodedWidth.Statement (.dec a) := fun _ => rfl

theorem EncodedWidth.clr (a : RegAddr) : EncodedWidth.Statement (.clr a) := fun _ => rfl

theorem EncodedWidth.rst (a : RegAddr) : EncodedWidth.Statement (.rst a) := fun _ => rfl

theorem EncodedWidth.push (a : RegAddr) : EncodedWidth.Statement (.push a) := fun _ => rfl

theorem EncodedWidth.pop (a : RegAddr) : EncodedWidth.Statement (.pop a) := fun _ => rfl

theorem EncodedWidth.mres6 (a : RegAddr) : EncodedWidth.Statement (.mres6 a) := fun _ => rfl

theorem EncodedWidth.mres7 (a : RegAddr) : EncodedWidth.Statement (.mres7 a) := fun _ => rfl

theorem EncodedWidth.page (p : PageNo) : EncodedWidth.Statement (.page p) := fun _ => rfl

theorem EncodedWidth.add (a1 : RegAddr) (a2 : RegAddr) : EncodedWidth.Statement (.add a1 a2) := fun _ => rfl

theorem EncodedWidth.sub (a1 : RegAddr) (a2 : RegAddr) : EncodedWidth.Statement (.sub a1 a2) := fun _ => rfl

theorem EncodedWidth.mul (a1 : RegAddr) (a2 : RegAddr) : EncodedWidth.Statement (.mul a1 a2) := fun _ => rfl

theorem EncodedWidth.div (a1 : RegAddr) (a2 : RegAddr) : EncodedWidth.Statement (.div a1 a2) := fun _ => rfl

theorem EncodedWidth.mov (a1 : RegAddr) (a2 : RegAddr) : EncodedWidth.Statement (.mov a1 a2) := fun _ => rfl

theorem EncodedWidth.ldi8 (d : RegAddr) (imm : BitVec 8) : EncodedWidth.Statement (.ldi8 d imm) := fun _ => rfl

theorem EncodedWidth.ldi16 (d : RegAddr) (imm : BitVec 16) : EncodedWidth.Statement (.ldi16 d imm) := fun _ => rfl

theorem EncodedWidth.ldi24 (d : RegAddr) (imm : BitVec 24) : EncodedWidth.Statement (.ldi24 d imm) := fun _ => rfl

theorem EncodedWidth.ldi32 (d : RegAddr) (imm : BitVec 32) : EncodedWidth.Statement (.ldi32 d imm) := fun _ => rfl

theorem EncodedWidth.pow (a1 : RegAddr) (a2 : RegAddr) : EncodedWidth.Statement (.pow a1 a2) := fun _ => rfl

theorem EncodedWidth.root (a1 : RegAddr) (a2 : RegAddr) : EncodedWidth.Statement (.root a1 a2) := fun _ => rfl

theorem EncodedWidth.pchr (a : RegAddr) : EncodedWidth.Statement (.pchr a) := fun _ => rfl

theorem EncodedWidth.pdec (a : RegAddr) : EncodedWidth.Statement (.pdec a) := fun _ => rfl

theorem EncodedWidth.phex (a : RegAddr) : EncodedWidth.Statement (.phex a) := fun _ => rfl

theorem EncodedWidth.plit (lit : Byte) : EncodedWidth.Statement (.plit lit) := fun _ => rfl

theorem EncodedWidth.ifBlock (a1 : RegAddr) (c : Cond) (a2 : RegAddr) : EncodedWidth.Statement (.ifBlock a1 c a2) := fun _ => rfl

theorem EncodedWidth.repeatBlock (a : RegAddr) : EncodedWidth.Statement (.repeatBlock a) := fun _ => rfl

theorem EncodedWidth.funcDef (id : FuncId) : EncodedWidth.Statement (.funcDef id) := fun _ => rfl

theorem EncodedWidth.funcUndef (id : FuncId) : EncodedWidth.Statement (.funcUndef id) := fun _ => rfl

theorem EncodedWidth.call (id : FuncId) : EncodedWidth.Statement (.call id) := fun _ => rfl

theorem EncodedWidth.forImm (a : RegAddr) (n : BitVec 8) : EncodedWidth.Statement (.forImm a n) := fun _ => rfl

theorem EncodedWidth.forReg (a : RegAddr) (a2 : RegAddr) : EncodedWidth.Statement (.forReg a a2) := fun _ => rfl

theorem EncodedWidth.whileBlock (a1 : RegAddr) (c : Cond) (a2 : RegAddr) : EncodedWidth.Statement (.whileBlock a1 c a2) := fun _ => rfl

theorem EncodedWidth.dpm (payload : List Byte) : EncodedWidth.Statement (.dpm payload) := by
  intro _
  simp [encode, Instr.width, Instr.headerBits, Instr.payload, bitsOf_length]
  omega

theorem EncodedWidth.blockEnd : EncodedWidth.Statement .blockEnd := fun _ => rfl

theorem EncodedWidth.halt : EncodedWidth.Statement .halt := fun _ => rfl

theorem EncodedWidth.fail : EncodedWidth.Statement .fail := fun _ => rfl

theorem EncodedWidth.inHex (a : RegAddr) : EncodedWidth.Statement (.inHex a) := fun _ => rfl

theorem EncodedWidth.inDec (a : RegAddr) : EncodedWidth.Statement (.inDec a) := fun _ => rfl

end Sys2Proof.Laws
end

