-- ==== Sys2Proof/Laws/Registers.lean ====
section
/-! SUPPORT. What the one register write of R24, mirror rule and all, leaves in every register. -/

namespace Sys2Proof.Machine

theorem mirror15_getElem (m : Word) (regs : Vector (Vector Word 16) 8) (p j : Nat) (hp : p < 8) (hj : j < 16) :
    ((mirror15 m regs)[p])[j] = if j = 15 then m else (regs[p])[j] := by
  have h : p = 0 ∨ p = 1 ∨ p = 2 ∨ p = 3 ∨ p = 4 ∨ p = 5 ∨ p = 6 ∨ p = 7 := by omega
  rcases h with rfl | rfl | rfl | rfl | rfl | rfl | rfl | rfl <;>
    simp [mirror15, Vector.getElem_set, eq_comm]

/-- R24: after `x[a] <- v`, register 15 of every page is what the active page's register 15 holds after the store,
register `a` of the active page is `v`, and every other register is as it was. -/
theorem State.setReg_regAt (s : State) (a : RegAddr) (v : Word) (p : PageNo) (j : RegAddr) :
    (s.setReg a v).regAt p j =
      if j = 15 then (if a = 15 then v else s.reg 15)
      else if p = s.page ∧ j = a then v else s.regAt p j := by
  have h15 : j = 15 ↔ j.toNat = 15 := by
    constructor
    · rintro rfl; rfl
    · intro h; exact BitVec.eq_of_toNat_eq h
  have ha15 : a = 15 ↔ a.toNat = 15 := by
    constructor
    · rintro rfl; rfl
    · intro h; exact BitVec.eq_of_toNat_eq h
  have hja : j = a ↔ j.toNat = a.toNat := BitVec.toNat_inj.symm
  have hps : p = s.page ↔ p.toNat = s.page.toNat := BitVec.toNat_inj.symm
  simp only [State.regAt, State.setReg, State.reg, mirror15_getElem, h15, ha15, hja, hps]
  by_cases hj : j.toNat = 15
  · simp only [hj, if_true, Vector.getElem_set_self, Vector.getElem_set]
    rfl
  · simp only [hj, if_false, Vector.getElem_set]
    by_cases hp : s.page.toNat = p.toNat
    · simp only [hp, if_true, true_and, Vector.getElem_set, eq_comm]
    · simp only [hp, if_false, Ne.symm hp, false_and]

theorem State.setReg_reg (s : State) (a : RegAddr) (v : Word) (j : RegAddr) :
    (s.setReg a v).reg j = if j = a then v else s.reg j := by
  unfold State.reg
  rw [show (s.setReg a v).page = s.page from rfl, State.setReg_regAt]
  by_cases hj : j = a
  · subst hj
    by_cases h : j = 15
    · rw [if_pos h, if_pos h, if_pos rfl]
    · rw [if_neg h, if_pos ⟨rfl, rfl⟩, if_pos rfl]
  · by_cases h : j = 15
    · rw [if_pos h, if_neg (fun ha => hj (h.trans ha.symm)), if_neg hj, h]
      rfl
    · rw [if_neg h, if_neg (fun hh => hj hh.2), if_neg hj]

end Sys2Proof.Machine
end

