-- ==== Sys2Proof/Tests/Slice0.lean ====
section
/-! SUPPORT. The model's own tests: the check of WellFormed, a word of every row written out from the spec's encoding
of it, single steps against the spec's own vectors (`95_test_vectors.md`, named in the comments), and for every
obligation with hypotheses a state that meets them. -/

namespace Sys2Proof.Tests

open Sys2Proof Sys2Proof.Machine

/-! ## WellFormed -/

theorem test_dpm_of_65536_bytes_refused : (Instr.dpm (List.replicate 65536 0)).wf = false := by
  simp only [Instr.wf, List.length_replicate]
  decide

theorem test_dpm_of_65535_bytes_accepted : (Instr.dpm (List.replicate 65535 0)).wf = true := by
  simp only [Instr.wf, List.length_replicate]
  decide

/-! ## Decoding: a word of every row, as R90 writes it -/

theorem test_decode_nop : decode (stream [0,0,0]) = .ok (.nop, []) := by decide

theorem test_decode_inc : decode (stream [0,0,1, 0,0,0, 0,0,1,1]) = .ok (.inc 3, []) := by decide

theorem test_decode_dec : decode (stream [0,0,1, 0,0,1, 1,0,0,0]) = .ok (.dec 8, []) := by decide

theorem test_decode_clr : decode (stream [0,0,1, 0,1,0, 0,1,1,1]) = .ok (.clr 7, []) := by decide

theorem test_decode_rst : decode (stream [0,0,1, 0,1,1, 1,0,0,1]) = .ok (.rst 9, []) := by decide

theorem test_decode_push : decode (stream [0,0,1, 1,0,0, 0,0,0,1]) = .ok (.push 1, []) := by decide

theorem test_decode_pop : decode (stream [0,0,1, 1,0,1, 0,0,1,0]) = .ok (.pop 2, []) := by decide

theorem test_decode_mres6 : decode (stream [0,0,1, 1,1,0, 0,1,0,1]) = .ok (.mres6 5, []) := by decide

theorem test_decode_mres7 : decode (stream [0,0,1, 1,1,1, 1,0,1,0]) = .ok (.mres7 10, []) := by decide

theorem test_decode_page : decode (stream [0,1,0, 1,1,0]) = .ok (.page 6, []) := by decide

theorem test_decode_add : decode (stream [0,1,1, 0,0,0, 0,0,1,1, 0,1,0,0]) = .ok (.add 3 4, []) := by decide

theorem test_decode_sub : decode (stream [0,1,1, 0,0,1, 0,0,1,1, 0,1,0,1]) = .ok (.sub 3 5, []) := by decide

theorem test_decode_mul : decode (stream [0,1,1, 0,1,0, 0,1,1,0, 0,1,1,1]) = .ok (.mul 6 7, []) := by decide

theorem test_decode_div : decode (stream [0,1,1, 0,1,1, 0,1,1,1, 0,0,1,0]) = .ok (.div 7 2, []) := by decide

theorem test_decode_mov : decode (stream [0,1,1, 1,0,0, 0,0,0,1, 1,0,0,1]) = .ok (.mov 1 9, []) := by decide

theorem test_decode_ldi8 :
    decode (stream [0,1,1, 1,0,1, 0,0, 0,1,0,0, 1,1,1,0,1,1,1,1]) = .ok (.ldi8 4 0xEF, []) := by decide

theorem test_decode_ldi16 :
    decode (stream [0,1,1, 1,0,1, 0,1, 0,1,0,0, 1,0,1,1,1,1,1,0,1,1,1,0,1,1,1,1]) = .ok (.ldi16 4 0xBEEF, []) := by decide

theorem test_decode_ldi24 :
    decode (stream [0,1,1, 1,0,1, 1,0, 0,1,0,0, 1,0,1,0,1,0,1,1,1,1,0,0,1,1,0,1,1,1,1,0,1,1,1,1]) = .ok (.ldi24 4 0xABCDEF, []) := by decide

theorem test_decode_ldi32 :
    decode (stream [0,1,1, 1,0,1, 1,1, 0,1,0,0, 1,1,0,1,1,1,1,0,1,0,1,0,1,1,0,1,1,0,1,1,1,1,1,0,1,1,1,0,1,1,1,1]) = .ok (.ldi32 4 0xDEADBEEF, []) := by decide

theorem test_decode_pow : decode (stream [0,1,1, 1,1,0, 0,0,1,0, 1,0,1,0]) = .ok (.pow 2 10, []) := by decide

theorem test_decode_root : decode (stream [0,1,1, 1,1,1, 1,0,0,1, 0,0,1,0]) = .ok (.root 9 2, []) := by decide

theorem test_decode_pchr : decode (stream [1,0,0, 0,0, 0,0,0,1]) = .ok (.pchr 1, []) := by decide

theorem test_decode_pdec : decode (stream [1,0,0, 0,1, 1,1,0,0]) = .ok (.pdec 12, []) := by decide

theorem test_decode_phex : decode (stream [1,0,0, 1,0, 1,0,1,1]) = .ok (.phex 11, []) := by decide

theorem test_decode_plit : decode (stream [1,0,0, 1,1, 0,0,1,0,0,0,0,1]) = .ok (.plit 0x21, []) := by decide

theorem test_decode_if : decode (stream [1,0,1, 0,0,0, 0,0,0,1, 0,1, 0,0,1,0]) = .ok (.ifBlock 1 .le 2, []) := by decide

theorem test_decode_repeat : decode (stream [1,0,1, 0,0,1, 0,0,1,1]) = .ok (.repeatBlock 3, []) := by decide

theorem test_decode_funcDef : decode (stream [1,0,1, 0,1,0, 0,0,0,1]) = .ok (.funcDef 1, []) := by decide

theorem test_decode_funcUndef : decode (stream [1,0,1, 0,1,1, 0,1,0,0]) = .ok (.funcUndef 4, []) := by decide

theorem test_decode_call : decode (stream [1,0,1, 1,0,0, 1,0,0,1]) = .ok (.call 9, []) := by decide

theorem test_decode_forImm :
    decode (stream [1,0,1, 1,0,1, 0, 0,0,1,0, 0,0,0,0,0,1,0,1]) = .ok (.forImm 2 5, []) := by decide

theorem test_decode_forReg : decode (stream [1,0,1, 1,0,1, 1, 0,0,0,1, 0,0,1,1]) = .ok (.forReg 1 3, []) := by decide

theorem test_decode_while :
    decode (stream [1,0,1, 1,1,0, 0,0,0,1, 1,0, 0,0,0,0]) = .ok (.whileBlock 1 .ge 0, []) := by decide

theorem test_decode_dpm :
    decode (stream [1,0,1, 1,1,1, 0,0,0,0,0,0,0,0,0,0,0,0,0,0,1,0, 0,1,0,0,1,0,0,0, 0,1,1,0,1,0,0,1]) = .ok (.dpm [0x48, 0x69], []) := by decide

theorem test_decode_blockEnd : decode (stream [1,1,0]) = .ok (.blockEnd, []) := by decide

theorem test_decode_halt : decode (stream [1,1,1, 0,0]) = .ok (.halt, []) := by decide

theorem test_decode_fail : decode (stream [1,1,1, 0,1]) = .ok (.fail, []) := by decide

theorem test_decode_inHex : decode (stream [1,1,1, 1,0, 0,1,0,0]) = .ok (.inHex 4, []) := by decide

theorem test_decode_inDec : decode (stream [1,1,1, 1,1, 0,1,0,1]) = .ok (.inDec 5, []) := by decide

theorem test_decode_leaves_the_rest : decode (stream [0,1,0, 0,0,1, 1,1,0]) = .ok (.page 1, stream [1,1,0]) := by decide

theorem test_decode_condition_codes :
    (decode (stream [1,0,1, 0,0,0, 0,0,0,1, 0,0, 0,0,1,0]), decode (stream [1,0,1, 0,0,0, 0,0,0,1, 1,1, 0,0,1,0])) =
      (.ok (.ifBlock 1 .eq 2, []), .ok (.ifBlock 1 .ne 2, [])) := by decide

/-- Vector M19: a POP cut to 9 bits. -/
theorem test_decode_truncated : decode (stream [0,0,1, 1,0,1, 0,0,1]) = .error .unexpectedEnd := by decide

/-! ## The table's own words: `match` of `opcode_table.json`, whose value has the row's length in bits -/

theorem test_table_rows_of_one_byte :
    [0, 6, 28, 29, 16, 21].map (decodeTableWord 8) =
      [some .nop, some .blockEnd, some .halt, some .fail, some (.page 0), some (.page 5)] := by decide

theorem test_table_rows_of_two_bytes :
    [128, 131, 6144, 256, 4864, 40960, 656, 704, 23296, 480, 511].map (decodeTableWord 16) =
      [some (.inc 0), some (.inc 3), some (.add 0 0), some (.pchr 0), some (.plit 0), some (.ifBlock 0 .eq 0),
        some (.repeatBlock 0), some (.call 0), some (.forReg 0 0), some (.inHex 0), some (.inDec 15)] := by decide

theorem test_table_rows_of_three_bytes :
    [475136, 368640, 3080192].map (decodeTableWord 24) =
      [some (.ldi8 0 0), some (.forImm 0 0), some (.dpm [])] := by decide

theorem test_table_row_of_six_bytes : decodeTableWord 48 8177617731584 = some (.ldi32 0 0) := by decide

/-! ## Single steps -/

/-- The start of a run over the bits, with the parameters of reset. -/
def demo (digits : List Nat) (lines : List (List Scalar)) : State :=
  State.start Params.initial (Memory.ofBits (stream digits)) lines

/-- What `f` sees in the next state. -/
def look {α : Type} (f : State → α) (s : State) : Option α :=
  match step s with
  | .next t => some (f t)
  | .fault _ => none
  | .refused _ => none

/-- The class and the code of the result. -/
def verdict (s : State) : RunClass × BitVec 2 := (s.res.cls, s.res.code)

/-- The current frame's `pc` and how many frames there are. -/
def place (s : State) : Option Nat × Nat := (s.frames.head?.map Frame.pc, s.frames.length)

/-- R109: `pc` alone moves. -/
theorem test_nop : look place (demo [0,0,0, 0,0,0] []) = some (some 3, 1) := by decide

/-- Vector M1. -/
theorem test_inc :
    look (fun s => (s.reg 3, place s)) (demo [0,0,1, 0,0,0, 0,0,1,1] []) = some (4, some 10, 1) := by decide

/-- Vector M3. -/
theorem test_inc_clears_the_upper_bits :
    look (·.reg 1) (State.setReg (demo [0,0,1, 0,0,0, 0,0,0,1] []) 1 0x12345678) = some 0x79 := by decide

/-- Vector M5. -/
theorem test_dec_of_zero : look (·.reg 0) (demo [0,0,1, 0,0,1, 0,0,0,0] []) = some 255 := by decide

/-- Vector M6. -/
theorem test_dec_of_0x100 :
    look (·.reg 1) (State.setReg (demo [0,0,1, 0,0,1, 0,0,0,1] []) 1 0x100) = some 255 := by decide

/-- Vector M13. -/
theorem test_clr_of_register_15_on_every_page :
    look (fun s => (s.regAt 0 15, s.regAt 3 15, s.regAt 7 15)) (State.setPage (demo [0,0,1, 0,1,0, 1,1,1,1] []) 3) =
      some (0, 0, 0) := by decide

/-- Vector M9. -/
theorem test_rst : look (·.reg 9) (State.setReg (demo [0,0,1, 0,1,1, 1,0,0,1] []) 9 200) = some 9 := by decide

/-- Vector M10: the whole value, and no write. -/
theorem test_push :
    look (fun s => (s.stack, s.reg 1)) (State.setReg (demo [0,0,1, 1,0,0, 0,0,0,1] []) 1 0x10203) =
      some ([0x10203], 0x10203) := by decide

/-- Vector M17: the third PUSH. -/
theorem test_push_on_a_full_stack : look (fun s => (verdict s, s.stack))
    { demo [0,0,1, 1,0,0, 0,0,0,1] [] with stack := [1, 1], params := { Params.initial with stackDepth := some 2 } } =
      some ((.resource, 1), [1, 1]) := by decide

/-- R126, its example: 300 is newest. -/
theorem test_pop : look (fun s => (s.reg 2, s.stack))
    { demo [0,0,1, 1,0,1, 0,0,1,0] [] with stack := [300, 7] } = some (44, [7]) := by decide

/-- Vector M10 with `POP_MASK = 32`. -/
theorem test_pop_of_32_bits : look (·.reg 2)
    { demo [0,0,1, 1,0,1, 0,0,1,0] [] with
      stack := [0x10203], params := { Params.initial with popMask := .full32 } } = some 0x10203 := by decide

/-- Vector M18. -/
theorem test_pop_underflow :
    look (fun s => (verdict s, s.reg 3)) (demo [0,0,1, 1,0,1, 0,0,1,1] []) = some ((.isaFault, 1), 3) := by decide

/-- Vector M12. -/
theorem test_mres6 :
    look (fun s => (s.reg 5, place s)) (demo [0,0,1, 1,1,0, 0,1,0,1] []) = some (5, some 10, 1) := by decide

/-- Vector M12. -/
theorem test_mres7 :
    look (fun s => (s.reg 5, place s)) (demo [0,0,1, 1,1,1, 0,1,0,1] []) = some (5, some 10, 1) := by decide

/-- R128, its example. -/
theorem test_page : look (fun s => (s.page, place s)) (demo [0,1,0, 0,1,0] []) = some (2, some 6, 1) := by decide

/-- Vector M14. -/
theorem test_write_goes_to_the_active_page :
    look (fun s => (s.regAt 2 3, s.regAt 0 3, s.regAt 5 15)) (State.setPage (demo [0,0,1, 0,0,0, 0,0,1,1] []) 2) =
      some (4, 3, 15) := by decide

/-- Vector A1b. -/
theorem test_add : look (·.reg 3) (demo [0,1,1, 0,0,0, 0,0,1,1, 0,1,0,0] []) = some 7 := by decide

/-- Vector A1. -/
theorem test_add_wraps :
    look (·.reg 1) (State.setReg (demo [0,1,1, 0,0,0, 0,0,0,1, 0,0,0,1] []) 1 0xFFFFFFFF) = some 0xFFFFFFFE := by decide

/-- Vector A2. -/
theorem test_sub_wraps : look (·.reg 3) (demo [0,1,1, 0,0,1, 0,0,1,1, 0,1,0,1] []) = some 0xFFFFFFFE := by decide

/-- Vector A3c. -/
theorem test_mul : look (·.reg 6) (demo [0,1,1, 0,1,0, 0,1,1,0, 0,1,1,1] []) = some 42 := by decide

/-- Vector A3. -/
theorem test_mul_keeps_the_low_half :
    look (·.reg 1) (State.setReg (demo [0,1,1, 0,1,0, 0,0,0,1, 0,0,0,1] []) 1 0xFFFFFFFF) = some 1 := by decide

/-- Vector A4b. -/
theorem test_div : look (·.reg 7) (demo [0,1,1, 0,1,1, 0,1,1,1, 0,0,1,0] []) = some 3 := by decide

/-- Vector A4. -/
theorem test_div_by_zero : look (·.reg 7) (demo [0,1,1, 0,1,1, 0,1,1,1, 0,0,0,0] []) = some 0 := by decide

/-- Vector A5b: register 15 on all pages. -/
theorem test_mov :
    look (fun s => (s.regAt 0 15, s.regAt 6 15)) (demo [0,1,1, 1,0,0, 1,1,1,1, 0,0,1,1] []) = some (3, 3) := by decide

/-- Vector A6d. -/
theorem test_ldi8 :
    look (·.reg 4) (State.setReg (demo [0,1,1, 1,0,1, 0,0, 0,1,0,0, 1,1,1,0,1,1,1,1] []) 4 0xFFFFFFFF) =
      some 0xEF := by decide

/-- Vector A6c. -/
theorem test_ldi16 :
    look (·.reg 4) (demo [0,1,1, 1,0,1, 0,1, 0,1,0,0, 1,0,1,1,1,1,1,0,1,1,1,0,1,1,1,1] []) = some 0xBEEF := by decide

/-- Vector A6. -/
theorem test_ldi24 :
    look (·.reg 4) (demo [0,1,1, 1,0,1, 1,0, 0,1,0,0, 1,0,1,0,1,0,1,1,1,1,0,0,1,1,0,1,1,1,1,0,1,1,1,1] []) =
      some 0xABCDEF := by decide

/-- Vector A6b. -/
theorem test_ldi32 :
    look (·.reg 4)
      (demo [0,1,1, 1,0,1, 1,1, 0,1,0,0, 1,1,0,1,1,1,1,0,1,0,1,0,1,1,0,1,1,0,1,1,1,1,1,0,1,1,1,0,1,1,1,1] []) =
      some 0xDEADBEEF := by decide

/-- Vector A7d. -/
theorem test_pow_wraps : look (·.reg 7) (demo [0,1,1, 1,1,0, 0,1,1,1, 1,1,1,1] []) = some 1622647863 := by decide

/-- Vector A7c. -/
theorem test_pow_guard :
    look (·.reg 2) (State.setReg (demo [0,1,1, 1,1,0, 0,0,1,0, 0,0,0,1] []) 1 16) = some 0 := by decide

/-- R149: the cube root of 64. -/
theorem test_root : look (·.reg 1) (State.setReg (demo [0,1,1, 1,1,1, 0,0,0,1, 0,0,1,1] []) 1 64) = some 4 := by decide

/-- R149. -/
theorem test_root_of_degree_zero : look (·.reg 7) (demo [0,1,1, 1,1,1, 0,1,1,1, 0,0,0,0] []) = some 0 := by decide

/-- R161, its example. -/
theorem test_pchr : look (·.out) (State.setReg (demo [1,0,0, 0,0, 0,0,0,1] []) 1 0x41) = some [0x41] := by decide

/-- R161. -/
theorem test_pchr_of_a_surrogate :
    look (fun s => (verdict s, s.out)) (State.setReg (demo [1,0,0, 0,0, 0,0,0,1] []) 1 0xD800) =
      some ((.isaFault, 3), []) := by decide

/-- R162: `4294967295`. -/
theorem test_pdec :
    look (·.out) (State.setReg (demo [1,0,0, 0,1, 0,0,0,1] []) 1 0xFFFFFFFF) =
      some [52, 50, 57, 52, 57, 54, 55, 50, 57, 53] := by decide

/-- R162. -/
theorem test_pdec_of_zero : look (·.out) (demo [1,0,0, 0,1, 0,0,0,0] []) = some [0x30] := by decide

/-- R163, its example. -/
theorem test_phex : look (·.out) (demo [1,0,0, 1,0, 1,0,1,1] []) = some [0x42] := by decide

/-- R163: `FF`. -/
theorem test_phex_of_0xFF :
    look (·.out) (State.setReg (demo [1,0,0, 1,0, 0,0,0,1] []) 1 0xFF) = some [0x46, 0x46] := by decide

/-- R164, its example. -/
theorem test_plit : look (·.out) (demo [1,0,0, 1,1, 0,0,1,0,0,0,0,1] []) = some [0x21] := by decide

/-- R187, its example: the body is entered. -/
theorem test_if_true :
    look place (demo [1,0,1, 0,0,0, 0,0,0,1, 0,0, 0,0,0,1, 0,0,1,0,0,0,0,1,0,1, 1,1,0] []) =
      some (some 16, 2) := by decide

/-- R187: the body is skipped, END and all. -/
theorem test_if_false :
    look place (demo [1,0,1, 0,0,0, 0,0,0,1, 1,1, 0,0,0,1, 0,0,1,0,0,0,0,1,0,1, 1,1,0] []) =
      some (some 29, 1) := by decide

/-- R176: no effect but the fault. -/
theorem test_if_without_end :
    look verdict (demo [1,0,1, 0,0,0, 0,0,0,1, 1,1, 0,0,0,1, 0,0,1,0,0,0,0,1,0,1] []) = some (.isaFault, 0) := by decide

/-- R188, its example. -/
theorem test_repeat :
    look (fun s => s.frames.head?.map Frame.kind) (demo [1,0,1, 0,0,1, 0,0,1,1, 0,0,1,0,0,0,0,0,0,0, 1,1,0] []) =
      some (some (.repeats 3)) := by decide

/-- R188. -/
theorem test_repeat_of_zero :
    look place (demo [1,0,1, 0,0,1, 0,0,0,0, 0,0,1,0,0,0,0,0,0,0, 1,1,0] []) = some (some 23, 1) := by decide

/-- R189, its example: `FT[1] = Span(10, 20)`. -/
theorem test_funcDef :
    look (fun s => (s.func 1, s.func 0, place s)) (demo [1,0,1, 0,1,0, 0,0,0,1, 0,0,1,0,0,0,0,0,0,0, 1,1,0] []) =
      some (some { start := 10, stop := 20 }, none, some 23, 1) := by decide

/-- R190, its example. -/
theorem test_funcUndef : look (·.func 1)
    ((demo [1,0,1, 0,1,1, 0,0,0,1] []).setFunc 1 (some { start := 0, stop := 3 })) = some none := by decide

/-- R191: the body is entered. -/
theorem test_call : look place
    ((demo [1,0,1, 1,0,0, 0,0,0,1, 0,0,0] []).setFunc 1 (some { start := 10, stop := 13 })) = some (some 10, 2) := by decide

/-- Vector B12. -/
theorem test_call_of_nothing :
    look place (demo [1,0,1, 1,0,0, 1,0,0,1, 1,0,0, 1,1, 0,1,0,0,0,0,0,1] []) = some (some 10, 1) := by decide

/-- R192, its example: the first index write. -/
theorem test_forImm :
    look (fun s => (s.reg 2, s.frames.head?.map Frame.kind))
      (demo [1,0,1, 1,0,1, 0, 0,0,1,0, 0,0,0,0,0,1,0,1, 0,1,1,0,0,0,0,0,1,1,0,0,1,0, 1,1,0] []) =
      some (1, some (.counts 2 1 5)) := by decide

/-- R194 (a). -/
theorem test_forImm_of_zero :
    look (fun s => (s.reg 2, place s)) (demo [1,0,1, 1,0,1, 0, 0,0,1,0, 0,0,0,0,0,0,0,0, 0,0,0, 1,1,0] []) =
      some (2, some 25, 1) := by decide

/-- R193, its example. -/
theorem test_forReg :
    look (fun s => (s.reg 1, s.frames.head?.map Frame.kind))
      (demo [1,0,1, 1,0,1, 1, 0,0,0,1, 0,0,1,1, 0,0,1,0,0,0,0,0,0,0, 1,1,0] []) =
      some (1, some (.counts 1 1 3)) := by decide

/-- R195, its example. -/
theorem test_while :
    look (fun s => s.frames.head?.map Frame.kind)
      (State.setReg (demo [1,0,1, 1,1,0, 0,0,0,1, 1,1, 0,0,0,0, 0,0,1,0,0,1,0,0,0,1, 1,1,0] []) 1 3) =
      some (some (.loops 1 .ne 0)) := by decide

/-- R195. -/
theorem test_while_false :
    look place (demo [1,0,1, 1,1,0, 0,0,0,1, 0,0, 0,0,0,0, 0,0,1,0,0,1,0,0,0,1, 1,1,0] []) =
      some (some 29, 1) := by decide

/-- R200: a unit of two bytes, U+00E9. -/
theorem test_dpm :
    look (fun s => (s.out, place s))
      (demo [1,0,1, 1,1,1, 0,0,0,0,0,0,0,0,0,0,0,0,0,0,1,0, 1,1,0,0,0,0,1,1, 1,0,1,0,1,0,0,1] []) =
      some ([0xE9], some 38, 1) := by decide

/-- R200: a truncated unit. -/
theorem test_dpm_ill_formed :
    look (fun s => (verdict s, s.out)) (demo [1,0,1, 1,1,1, 0,0,0,0,0,0,0,0,0,0,0,0,0,0,0,1, 1,1,0,0,0,0,1,1] []) =
      some ((.isaFault, 3), []) := by decide

/-- R197, its example: the END. -/
theorem test_blockEnd : look verdict (demo [1,1,0, 0,0,1,0,0,0,0,0,0,1] []) = some (.halted, 3) := by decide

/-- R216, its example. -/
theorem test_halt :
    look (fun s => (verdict s, s.frames, s.res.success)) (demo [1,1,1, 0,0] []) =
      some ((.halted, 0), [], true) := by decide

/-- R217, its example. -/
theorem test_fail :
    look (fun s => (verdict s, s.res.success)) (demo [1,1,1, 0,1] []) = some ((.halted, 1), false) := by decide

/-- R218, its example: the line `ff`. -/
theorem test_inHex :
    look (fun s => (s.reg 4, s.input)) (demo [1,1,1, 1,0, 0,1,0,0] [[0x66, 0x66]]) = some (255, []) := by decide

/-- R218: the line is consumed. -/
theorem test_inHex_malformed :
    look (fun s => (verdict s, s.input, s.reg 4)) (demo [1,1,1, 1,0, 0,1,0,0] [[0x30, 0x78]]) =
      some ((.isaFault, 2), [], 4) := by decide

/-- R219: `4294967296` stores 0. -/
theorem test_inDec :
    look (·.reg 5) (demo [1,1,1, 1,1, 0,1,0,1] [[52, 50, 57, 52, 57, 54, 55, 50, 57, 54]]) = some 0 := by decide

/-- R221: no line. -/
theorem test_inDec_waits :
    look (fun s => (s.reg 5, place s, verdict s)) (demo [1,1,1, 1,1, 0,1,0,1] []) =
      some (5, (some 0, 1), (.running, 0)) := by decide

/-- R24: a write on page 2 from a state in which the pages differ. -/
theorem test_mirror_copies_the_active_page_only : look (fun s => (s.regAt 2 3, s.regAt 0 15, s.regAt 7 15))
    { demo [0,0,1, 0,0,0, 0,0,1,1] [] with
      page := 2, regs := (Vector.replicate 8 (Vector.replicate 16 9)).set 2 identityPage } = some (4, 15, 15) := by decide

/-! ## Fetching -/

/-- Vector T1: the empty image, and a residue of two zero bits. -/
theorem test_end_of_stream :
    look verdict State.reset = some (.halted, 2) ∧ look verdict (demo [0,0] []) = some (.halted, 2) := by
  decide

/-- R103: a residue that is not zero, and a zero one under `strict`. -/
theorem test_tail : look verdict (demo [0,1] []) = some (.isaFault, 0) ∧
    look verdict { demo [0,0] [] with params := { Params.initial with tailPolicy := .strict } } =
      some (.isaFault, 0) := by
  decide

/-- The word of `INC r3` runs as the first instruction after reset. -/
theorem test_fetch_word :
    look (fun s => (s.reg 3, place s)) (State.reset.withFetchWord 16 131) = some (4, some 10, 1) := by
  decide

/-- The word of `REPEAT r3` stands with its END: an empty body is entered. -/
theorem test_fetch_word_of_a_block : look place (State.reset.withFetchWord 16 659) = some (some 10, 2) := by decide

/-! ## Bytes and bits -/

theorem test_image_of_bytes : (Memory.ofBytes [0x20, 0xC0]).bits 0 16 = stream [0,0,1,0,0,0,0,0,1,1,0,0,0,0,0,0] ∧
    (Memory.ofBytes [0x20, 0xC0]).read 3 7 = 3 := by decide

/-! ## Witnesses: for every obligation with hypotheses, states that meet them, each clause at a boundary of its range -/

theorem witness_DecodeEncodeGivesTheInstructionBack :
    (Instr.ldi32 15 0xFFFFFFFF).wf = true ∧ (Instr.dpm [0x41]).wf = true := by decide

theorem witness_DecodedBitsAreTheEncoding :
    decode (stream [0,0,1, 0,0,0, 0,0,1,1, 1,1,0]) = .ok (.inc 3, stream [1,1,0]) := by decide

theorem witness_TruncatedInstructionIsUnexpectedEnd :
    (Instr.inc 3).wf = true ∧ 0 < (encode (.inc 3)).length ∧ 9 < (encode (.inc 3)).length := by decide

theorem witness_EveryBitPatternDecodes : 22 + 8 * 65535 ≤ (List.replicate (22 + 8 * 65535) true : Bits).length := by
  rw [List.length_replicate]

theorem witness_ImageReadsAsItWasSupplied :
    ([0x80, 0x01] : List Byte)[0]? = some 0x80 ∧ 0 < 8 ∧ ([0x80, 0x01] : List Byte)[1]? = some 0x01 ∧ 7 < 8 ∧
      ([true] : Bits)[0]? = some true := by decide

/-- The first clause with both depths at their edges: infinite, and one entry short of full. -/
theorem witness_PushAppendsTheWholeRegister_room :
    (demo [] []).params.stackDepth = none ∧
      ∀ s : State, s = { demo [] [] with stack := [7], params := { Params.initial with stackDepth := some 2 } } →
        ∀ d, s.params.stackDepth = some d → s.stack.length < d := by
  refine ⟨rfl, ?_⟩
  rintro s rfl d ⟨⟩
  decide

theorem witness_PushAppendsTheWholeRegister_full :
    ∃ s : State, s.params.stackDepth = some 2 ∧ s.stack.length = 2 :=
  ⟨{ demo [] [] with stack := [8, 7], params := { Params.initial with stackDepth := some 2 } }, by decide⟩

theorem witness_PopWritesTheMaskedNewestEntry :
    (demo [] []).stack = [] ∧ (demo [] []).params.popMask = .low8 ∧
      ({ demo [] [] with stack := [300, 7] } : State).stack = 300 :: [7] ∧
      ({ demo [] [] with params := { Params.initial with popMask := .full32 } } : State).params.popMask = .full32 := by
  decide

/-- Register 0 is a divisor and a degree of 0, register 1 of 1. -/
theorem witness_DivAndRoot_divisors : ((demo [] []).reg 0).toNat = 0 ∧ ((demo [] []).reg 1).toNat ≠ 0 := by decide

/-- Register 15 is the greatest exponent that is computed; 16 is the least that is not. -/
theorem witness_PowIsExactBelowTheGuard :
    ((demo [] []).reg 15).toNat < 16 ∧ ((demo [] []).reg 15).toNat = 15 ∧
      16 ≤ (((demo [] []).setReg 1 16).reg 1).toNat := by decide

/-- The first and the last value of each range of R161. -/
theorem witness_PchrEmitsScalarValuesOnly :
    ([0, 0xD7FF, 0xE000, 0x10FFFF].all fun v =>
      let u := (((demo [] []).setReg 1 v).reg 1).toNat
      decide (u < 0xD800 ∨ 0xDFFF < u ∧ u ≤ 0x10FFFF)) = true ∧
    ([0xD800, 0xDFFF, 0x110000, 0xFFFFFFFF].all fun v =>
      let u := (((demo [] []).setReg 1 v).reg 1).toNat
      decide (0xD800 ≤ u ∧ u ≤ 0xDFFF ∨ 0x10FFFF < u)) = true := by decide

/-- A current frame behind whose header of `n` bits a body is captured, and one behind which none is. -/
def Captures (n : Nat) (s : State) : Prop :=
  ∃ f below body, s.frames = f :: below ∧ s.capture (f.pc + n) f.body.stop = .ok body

def Uncaptured (n : Nat) (s : State) : Prop :=
  ∃ f below, s.frames = f :: below ∧ s.capture (f.pc + n) f.body.stop = .error .unexpectedEnd

/-- The state whose frame stack is full with the root frame. -/
def full (s : State) : State := { s with params := { s.params with frameDepth := some 1 } }

theorem demo_room (digits : List Nat) : FrameRoom (demo digits []) := fun _ h => by cases h

theorem demo_full (digits : List Nat) : FrameFull (full (demo digits [])) := rfl

/-- Room for exactly one frame more. -/
theorem witness_FrameRoom : FrameRoom { demo [] [] with params := { Params.initial with frameDepth := some 2 } } := by
  intro d h
  cases h
  decide

/-- `IF r1 EQ r1` and `WHILE r1 EQ r1`, a NOP, END. -/
def ifBits : List Nat := [1,0,1, 0,0,0, 0,0,0,1, 0,0, 0,0,0,1, 0,0,0, 1,1,0]

def whileBits : List Nat := [1,0,1, 1,1,0, 0,0,0,1, 0,0, 0,0,0,1, 0,0,0, 1,1,0]

/-- `r1 EQ r1`, `r1 LE r1` and `r1 GE r1` hold and `r1 NE r1` does not. -/
theorem witness_IfEntersItsBodyExactlyWhenTheConditionHolds :
    Captures 16 (demo ifBits []) ∧ FrameRoom (demo ifBits []) ∧
    Comparison .eq ((demo ifBits []).reg 1).toNat ((demo ifBits []).reg 1).toNat ∧
    Comparison .le ((demo ifBits []).reg 1).toNat ((demo ifBits []).reg 1).toNat ∧
    Comparison .ge ((demo ifBits []).reg 1).toNat ((demo ifBits []).reg 1).toNat ∧
    ¬ Comparison .ne ((demo ifBits []).reg 1).toNat ((demo ifBits []).reg 1).toNat ∧
    Captures 16 (full (demo ifBits [])) ∧ FrameFull (full (demo ifBits [])) ∧
    Comparison .eq ((full (demo ifBits [])).reg 1).toNat ((full (demo ifBits [])).reg 1).toNat ∧
    Uncaptured 16 (demo (ifBits.take 19) []) :=
  ⟨⟨_, _, { start := 16, stop := 19 }, rfl, by decide⟩, demo_room _, rfl, Nat.le_refl _, Nat.le_refl _, fun h => h rfl,
    ⟨_, _, { start := 16, stop := 19 }, rfl, by decide⟩, demo_full _, rfl, _, _, rfl, by decide⟩

/-- `REPEAT` with an empty body; registers 0 and 1 hold the counts 0 and 1. -/
def repeatBits : List Nat := [1,0,1, 0,0,1, 0,0,0,1, 1,1,0]

theorem witness_RepeatSamplesItsCountAtEntry :
    Captures 10 (demo repeatBits []) ∧ FrameRoom (demo repeatBits []) ∧
    ((demo repeatBits []).reg 0).toNat = 0 ∧ 1 ≤ ((demo repeatBits []).reg 1).toNat ∧
    Captures 10 (full (demo repeatBits [])) ∧ FrameFull (full (demo repeatBits [])) ∧
    1 ≤ ((full (demo repeatBits [])).reg 1).toNat ∧ Uncaptured 10 (demo (repeatBits.take 12) []) :=
  ⟨⟨_, _, { start := 10, stop := 10 }, rfl, by decide⟩, demo_room _, by decide, by decide,
    ⟨_, _, { start := 10, stop := 10 }, rfl, by decide⟩, demo_full _, by decide, _, _, rfl, by decide⟩

theorem witness_FuncDefAndFuncUndefWriteOneEntry :
    Captures 10 (demo [1,0,1, 0,1,0, 0,0,0,1, 0,0,0, 1,1,0] []) ∧
    Uncaptured 10 (demo [1,0,1, 0,1,0, 0,0,0,1, 0,0,0] []) :=
  ⟨⟨_, _, { start := 10, stop := 13 }, rfl, by decide⟩, _, _, rfl, by decide⟩

/-- Absent, empty, and a span of one bit, with room and without. -/
theorem witness_CallEntersNonEmptyBodiesOnly :
    (demo [] []).frames.length = 1 ∧ (demo [] []).func 3 = none ∧
    ((demo [] []).setFunc 3 (some { start := 5, stop := 5 })).func 3 = some { start := 5, stop := 5 } ∧
    ((demo [] []).setFunc 3 (some { start := 5, stop := 6 })).func 3 = some { start := 5, stop := 6 } ∧
    ({ start := 5, stop := 6 } : Span).start < ({ start := 5, stop := 6 } : Span).stop ∧
    FrameRoom ((demo [] []).setFunc 3 (some { start := 5, stop := 6 })) ∧
    FrameFull ((full (demo [] [])).setFunc 3 (some { start := 5, stop := 6 })) ∧
    ((full (demo [] [])).setFunc 3 (some { start := 5, stop := 6 })).func 3 = some { start := 5, stop := 6 } :=
  ⟨by decide, by decide, by decide, by decide, by decide, demo_room [], demo_full [], by decide⟩

/-- `FORI` and `FORR`, a NOP, END; counts of 0 and 1, immediate and in registers 0 and 1. -/
def forImmBits : List Nat := [1,0,1, 1,0,1, 0, 0,0,1,0, 0,0,0,0,0,0,0,1, 0,0,0, 1,1,0]

def forRegBits : List Nat := [1,0,1, 1,0,1, 1, 0,0,1,0, 0,0,0,1, 0,0,0, 1,1,0]

theorem witness_ForWritesTheIterationNumberAndEntersItsBody :
    (Captures 19 (demo forImmBits []) ∧ FrameRoom (demo forImmBits []) ∧
      (0 : BitVec 8).toNat = 0 ∧ 1 ≤ (1 : BitVec 8).toNat ∧
      Captures 19 (full (demo forImmBits [])) ∧ FrameFull (full (demo forImmBits [])) ∧
      Uncaptured 19 (demo (forImmBits.take 22) [])) ∧
    Captures 15 (demo forRegBits []) ∧ FrameRoom (demo forRegBits []) ∧
      ((demo forRegBits []).reg 0).toNat = 0 ∧ 1 ≤ ((demo forRegBits []).reg 1).toNat ∧
      Captures 15 (full (demo forRegBits [])) ∧ FrameFull (full (demo forRegBits [])) ∧
      Uncaptured 15 (demo (forRegBits.take 18) []) :=
  ⟨⟨⟨_, _, { start := 19, stop := 22 }, rfl, by decide⟩, demo_room _, by decide, by decide,
      ⟨_, _, { start := 19, stop := 22 }, rfl, by decide⟩, demo_full _, _, _, rfl, by decide⟩,
    ⟨_, _, { start := 15, stop := 18 }, rfl, by decide⟩, demo_room _, by decide, by decide,
      ⟨_, _, { start := 15, stop := 18 }, rfl, by decide⟩, demo_full _, _, _, rfl, by decide⟩

/-- A state in the middle of a body, with its caller's frame below. -/
def inBody (digits : List Nat) (pc : Nat) (body : Span) (kind : FrameKind) : State :=
  { demo digits [] with
    frames := [{ pc := pc, body := body, kind := kind },
      { pc := body.stop + 3, body := { start := 0, stop := digits.length }, kind := .root }] }

/-- The run is in progress and the current frame, of this kind, is at the end of its body. -/
def AtEnd (kind : FrameKind) (s : State) : Prop :=
  s.res.cls = .running ∧ ∃ f below, s.frames = f :: below ∧ f.kind = kind ∧ f.pc = f.body.stop

theorem inBody_atEnd (kind : FrameKind) : AtEnd kind (inBody [0,0,0, 1,1,0] 3 { start := 0, stop := 3 } kind) :=
  ⟨rfl, _, _, rfl, rfl, rfl⟩

/-- At the end of the last execution but one, of the last, and with a count that no run reaches. -/
theorem witness_RepeatSamplesItsCountAtEntry_again :
    (∃ s, AtEnd (.repeats 2) s ∧ 1 < 2) ∧ (∃ s, AtEnd (.repeats 1) s ∧ 1 ≤ 1) ∧ ∃ s, AtEnd (.repeats 0) s ∧ 0 ≤ 1 :=
  ⟨⟨_, inBody_atEnd _, by decide⟩, ⟨_, inBody_atEnd _, by decide⟩, _, inBody_atEnd _, by decide⟩

/-- At the end of the first and of the last of two iterations. -/
theorem witness_ForWritesTheIterationNumberAndEntersItsBody_again :
    (∃ s, AtEnd (.counts 4 1 2) s ∧ 1 < 2) ∧ ∃ s, AtEnd (.counts 4 2 2) s ∧ 2 ≤ 2 :=
  ⟨⟨_, inBody_atEnd _, by decide⟩, _, inBody_atEnd _, by decide⟩

theorem witness_WhileEntersItsBodyExactlyWhenTheConditionHolds :
    Captures 16 (demo whileBits []) ∧ FrameRoom (demo whileBits []) ∧
    Comparison .eq ((demo whileBits []).reg 1).toNat ((demo whileBits []).reg 1).toNat ∧
    ¬ Comparison .ne ((demo whileBits []).reg 1).toNat ((demo whileBits []).reg 1).toNat ∧
    Captures 16 (full (demo whileBits [])) ∧ FrameFull (full (demo whileBits [])) ∧
    Uncaptured 16 (demo (whileBits.take 19) []) ∧
    (∃ s, AtEnd (.loops 1 .eq 1) s ∧ Comparison .eq (s.reg 1).toNat (s.reg 1).toNat) ∧
    ∃ s, AtEnd (.loops 1 .ne 1) s ∧ ¬ Comparison .ne (s.reg 1).toNat (s.reg 1).toNat :=
  ⟨⟨_, _, { start := 16, stop := 19 }, rfl, by decide⟩, demo_room _, rfl, fun h => h rfl,
    ⟨_, _, { start := 16, stop := 19 }, rfl, by decide⟩, demo_full _, ⟨_, _, rfl, by decide⟩,
    ⟨_, inBody_atEnd _, rfl⟩, _, inBody_atEnd _, fun h => h rfl⟩

theorem witness_DpmEmitsItsPayloadVerbatim :
    ([] : List Byte).length ≤ 65535 ∧ (List.replicate 65535 (0x41 : Byte)).length ≤ 65535 ∧
      utf8Decode [] = some [] ∧ utf8Decode [0x41] = some [0x41] ∧ utf8Decode [0x80] = none := by
  refine ⟨by decide, ?_, by decide, by decide, by decide⟩
  rw [List.length_replicate]

theorem witness_BlockEndEndsTheCurrentFrame :
    (∃ f below, (demo [1,1,0] []).frames = f :: below ∧ f.kind = .root) ∧
    ∃ f below, (inBody [1,1,0] 0 { start := 0, stop := 3 } .once).frames = f :: below ∧ f.kind ≠ .root ∧
      (inBody [1,1,0] 0 { start := 0, stop := 3 } .once).res.cls = .running :=
  ⟨⟨_, _, rfl, rfl⟩, _, _, rfl, by decide, rfl⟩

theorem witness_InputInstructionsReadOneLine :
    (demo [] [[0x46]]).input = [0x46] :: [] ∧ parseLine 16 [0x46] = some 15 ∧ parseLine 10 [0x46] = none ∧
      (demo [] [[]]).input = [] :: [] ∧ parseLine 16 [] = none ∧
      (demo [] [[0x39]]).input = [0x39] :: [] ∧ parseLine 10 [0x39] = some 9 := by decide

theorem witness_InputWaitsForALineUnchanged : (demo [1,1,1, 1,0, 0,0,0,0] []).input = [] := by decide

theorem witness_InputGrammarIsStrictDigits : (10 = 10 ∨ 10 = 16) ∧ (16 = 10 ∨ 16 = 16) ∧
    parseLine 16 [0x66, 0x30] = some 240 := by decide

theorem witness_StepRunsTheDecodedInstruction :
    (demo [0,0,0] []).res.cls = .running ∧
    (demo [0,0,0] []).frames = { pc := 0, body := { start := 0, stop := 3 }, kind := .root } :: [] ∧
    decode ((demo [0,0,0] []).remaining { pc := 0, body := { start := 0, stop := 3 }, kind := .root }) = .ok (.nop, []) ∧
    3 ≤ 3 - 0 ∧
    decode ((demo [0,0,1] []).remaining { pc := 0, body := { start := 0, stop := 3 }, kind := .root }) =
      .error .unexpectedEnd := by decide

/-- One state for each clause of R106, the counts at the edges of their ranges. -/
theorem witness_FrameEndFollowsTheKind :
    (∃ s, AtEnd .root s) ∧ (∃ s, AtEnd .once s) ∧ (∃ s, AtEnd .call s) ∧
    (∃ s, AtEnd (.repeats 2) s ∧ 1 < 2) ∧ (∃ s, AtEnd (.repeats 1) s ∧ 1 ≤ 1) ∧
    (∃ s, AtEnd (.counts 4 1 2) s ∧ 1 < 2) ∧ (∃ s, AtEnd (.counts 4 2 2) s ∧ 2 ≤ 2) ∧
    (∃ s, AtEnd (.loops 1 .eq 1) s ∧ Comparison .eq (s.reg 1).toNat (s.reg 1).toNat) ∧
    ∃ s, AtEnd (.loops 1 .ne 1) s ∧ ¬ Comparison .ne (s.reg 1).toNat (s.reg 1).toNat :=
  ⟨⟨_, inBody_atEnd _⟩, ⟨_, inBody_atEnd _⟩, ⟨_, inBody_atEnd _⟩, ⟨_, inBody_atEnd _, by decide⟩,
    ⟨_, inBody_atEnd _, by decide⟩, ⟨_, inBody_atEnd _, by decide⟩, ⟨_, inBody_atEnd _, by decide⟩,
    ⟨_, inBody_atEnd _, rfl⟩, _, inBody_atEnd _, fun h => h rfl⟩

/-- A running state whose current frame has `rem` bits left. -/
def LeftOver (rem : Nat) (s : State) (f : Frame) : Prop :=
  s.res.cls = .running ∧ (∃ below, s.frames = f :: below) ∧ f.body.stop = f.pc + rem ∧ 1 ≤ rem ∧ rem ≤ 2

/-- 2 and 1 bits, zero, in the root frame; under `strict`; in a body frame; and not zero. -/
theorem witness_TailRuleAcceptsZeroPaddingOfTheRootFrame :
    (∃ s f, LeftOver 2 s f ∧ s.params.tailPolicy = .zeroPad ∧ f.kind = .root ∧ s.mem.read f.pc 2 = 0) ∧
    (∃ s f, LeftOver 1 s f ∧ s.params.tailPolicy = .zeroPad ∧ f.kind = .root ∧ s.mem.read f.pc 1 = 0) ∧
    (∃ s f, LeftOver 2 s f ∧ s.params.tailPolicy = .strict) ∧
    (∃ s f, LeftOver 1 s f ∧ f.kind ≠ .root) ∧
    ∃ s f, LeftOver 2 s f ∧ s.mem.read f.pc 2 ≠ 0 :=
  ⟨⟨demo [0,0] [], _, ⟨rfl, ⟨_, rfl⟩, rfl, by decide, by decide⟩, rfl, rfl, by decide⟩,
    ⟨demo [0] [], _, ⟨rfl, ⟨_, rfl⟩, rfl, by decide, by decide⟩, rfl, rfl, by decide⟩,
    ⟨{ demo [0,0] [] with params := { Params.initial with tailPolicy := .strict } }, _,
      ⟨rfl, ⟨_, rfl⟩, rfl, by decide, by decide⟩, rfl⟩,
    ⟨inBody [0, 1,1,0] 0 { start := 0, stop := 1 } .once, _, ⟨rfl, ⟨_, rfl⟩, rfl, by decide, by decide⟩, by decide⟩,
    demo [0,1] [], _, ⟨rfl, ⟨_, rfl⟩, rfl, by decide, by decide⟩, by decide⟩

theorem witness_EndedRunChangesNothing : ((demo [] []).endRun .rootBlockEnd).res.cls ≠ .running := by decide

theorem witness_StartMeetsTheInvariant : Params.initial.wf ∧
    ({ frameDepth := some 1, stackDepth := some 1, popMask := .full32, tailPolicy := .strict } : Params).wf ∧
    (Memory.ofBytes [0x20, 0xC0]).wf := ⟨by decide, by decide, Memory.ofBytes_wf _⟩

/-- `IF r1 EQ r1`, a NOP, END: at the NOP. -/
def insideIf : State := inBody [1,0,1, 0,0,0, 0,0,0,1, 0,0, 0,0,0,1, 0,0,0, 1,1,0] 16 { start := 16, stop := 19 } .once

theorem insideIf_inv : insideIf.Inv where
  image := Memory.ofBits_wf _
  params := by decide
  mirror := by
    unfold State.Mirrored
    decide
  funcs := fun id sp h => by
    have : ∀ k, insideIf.func k = none := by decide
    rw [this id] at h
    cases h
  frames := fun f hf => by
    rcases List.mem_cons.mp hf with rfl | hf
    · exact ⟨⟨by decide, by decide⟩, by decide, by decide, trivial⟩
    · obtain rfl := List.mem_singleton.mp hf
      exact ⟨⟨by decide, by decide⟩, by decide, by decide, rfl⟩
  running := fun _ => ⟨by decide, by decide, rfl⟩
  ended := fun h => absurd rfl h
  frameDepth := fun d h => by cases h
  stackDepth := fun d h => by cases h
  output := fun c h => by cases h

theorem insideIf_structured : insideIf.Structured := by
  refine ⟨by decide, fun id sp h => ?_⟩
  have : ∀ k, insideIf.func k = none := by decide
  rw [this id] at h
  cases h

theorem witness_EveryStepKeepsTheInvariant : insideIf.Inv := insideIf_inv

theorem witness_MirrorHoldsAfterEveryStep : insideIf.Mirrored ∧ ∃ t, step insideIf = .next t :=
  ⟨insideIf_inv.mirror, _, rfl⟩

theorem witness_EveryStepKeepsBodiesNested : insideIf.Inv ∧ insideIf.Structured ∧ ∃ t, step insideIf = .next t :=
  ⟨insideIf_inv, insideIf_structured, _, rfl⟩

theorem witness_BodiesNeverRunOffTheirEnd :
    insideIf.Structured ∧ insideIf.frames.head?.map Frame.kind = some .once ∧
      insideIf.frames.head?.map (fun f => decide (f.pc < f.body.stop)) = some true ∧
      insideIf.frames = { pc := 16, body := { start := 16, stop := 19 }, kind := .once } ::
        [{ pc := 22, body := { start := 0, stop := 22 }, kind := .root }] :=
  ⟨insideIf_structured, by decide, by decide, by decide⟩

theorem witness_EventsComeOnlyFromTheirInstructions :
    (∃ t, exec .halt (demo [] []) = .next t ∧ t.res ≠ (demo [] []).res) ∧
      ∃ t, exec (.pop 1) (demo [] []) = .next t ∧ t.res ≠ (demo [] []).res :=
  ⟨⟨_, rfl, by decide⟩, _, rfl, by decide⟩

theorem witness_OnlyPageChangesThePage :
    ∃ t, step (demo [0,1,0, 1,1,1] []) = .next t ∧ t.page ≠ (demo [0,1,0, 1,1,1] []).page := ⟨_, rfl, by decide⟩

theorem witness_OnlyPushAndPopTouchTheStack :
    (∃ t, step (demo [0,0,1, 1,0,0, 0,0,0,1] []) = .next t ∧ t.stack ≠ (demo [0,0,1, 1,0,0, 0,0,0,1] []).stack) ∧
    ∃ t, step { demo [0,0,1, 1,0,1, 0,0,0,1] [] with stack := [5] } = .next t ∧ t.stack ≠ [5] :=
  ⟨⟨_, rfl, by decide⟩, _, rfl, by decide⟩

theorem witness_OnlyFuncDefAndFuncUndefWriteTheTable :
    (∃ t, step (demo [1,0,1, 0,1,0, 0,0,0,1, 1,1,0] []) = .next t ∧
      t.func 1 ≠ (demo [1,0,1, 0,1,0, 0,0,0,1, 1,1,0] []).func 1) ∧
    ∃ t, step ((demo [1,0,1, 0,1,1, 0,0,0,1] []).setFunc 1 (some { start := 0, stop := 3 })) = .next t ∧
      t.func 1 ≠ ((demo [1,0,1, 0,1,1, 0,0,0,1] []).setFunc 1 (some { start := 0, stop := 3 })).func 1 :=
  ⟨⟨_, rfl, by decide⟩, _, rfl, by decide⟩

theorem witness_ImageAndChannelsAreOnlyUsedAsTheSpecSays :
    ∃ t, step (demo [1,1,1, 1,1, 0,0,0,1] [[0x31]]) = .next t ∧ t.input = [] := ⟨_, rfl, by decide⟩

theorem witness_LowerFramesAreUntouched :
    (∃ t, step insideIf = .next t) ∧ ∃ f g, insideIf.frames = f :: [g] := ⟨⟨_, rfl⟩, _, _, rfl⟩

/-- An empty REPEAT of register 1, in front of a frame stack that may hold `d` frames. -/
def beforeRepeat (d : Nat) : State :=
  { demo repeatBits [] with params := { Params.initial with frameDepth := some d } }

/-- A full frame stack and a NOP; room for exactly one frame and a REPEAT; a full frame stack and a REPEAT. -/
theorem witness_OnlyEnteringLooksAtTheFrameDepth :
    (∃ u, exec .nop (beforeRepeat 1).withoutFrameDepth = .next u ∧ u.frames.length ≤ (beforeRepeat 1).frames.length) ∧
    (FrameRoom (beforeRepeat 2) ∧ ∃ u, exec (.repeatBlock 1) (beforeRepeat 2).withoutFrameDepth = .next u ∧
      (beforeRepeat 2).frames.length < u.frames.length) ∧
    FrameFull (beforeRepeat 1) ∧ ∃ u, exec (.repeatBlock 1) (beforeRepeat 1).withoutFrameDepth = .next u ∧
      (beforeRepeat 1).frames.length < u.frames.length :=
  ⟨⟨_, rfl, by decide⟩, ⟨fun _ h => by cases h; decide, _, rfl, by decide⟩, rfl, _, rfl, by decide⟩

theorem witness_CaptureAgreesWithTheSkipEngine : 22 - 16 + 1 ≤ 7 ∧ 16 - 22 + 1 ≤ 1 := by decide

/-- The same bits as bytes and as a bit string, the empty image among them. -/
theorem witness_SuppliedImagesHaveTheOneForm :
    (Memory.ofBytes [0x21]).wf ∧ (Memory.ofBits (stream [0,0,1,0,0,0,0,1])).wf ∧
      (Memory.ofBytes [0x21]).len = (Memory.ofBits (stream [0,0,1,0,0,0,0,1])).len ∧
      (∀ a < (Memory.ofBytes [0x21]).len,
        (Memory.ofBytes [0x21]).bitAt a = (Memory.ofBits (stream [0,0,1,0,0,0,0,1])).bitAt a) ∧
      (Memory.ofBytes []).len = (Memory.ofBits []).len := by decide

theorem witness_CapturedSpanIsWellNested :
    insideIf.capture 16 22 = .ok { start := 16, stop := 19 } ∧
      (demo [1,1,0] []).capture 0 3 = .ok { start := 0, stop := 0 } := by decide

end Sys2Proof.Tests
end

section
/-! What the decoder has read when it succeeds: the encoding of the instruction it gives (R82, R83), so that an
instruction lies within its frame (R56), and a captured body with its END in the capturing frame (R175). -/

namespace Sys2Proof

theorem decodeManipulate_ok {bs rest : Bits} {i : Instr} (h : decodeManipulate bs = .ok (i, rest)) :
    i.wf = true ∧ bitsOf 3 1 ++ bs = encode i ++ rest := by
  obtain ⟨⟨mode, r⟩, hmode, h⟩ := bind_eq_ok.mp h
  obtain ⟨⟨a, r'⟩, ha, hsel⟩ := bind_eq_ok.mp h
  obtain ⟨hlt, rfl⟩ := readBits_ok hmode
  rw [readField_ok ha]
  interval_cases mode <;> cases hsel <;> exact ⟨rfl, rfl⟩

theorem decodePage_ok {bs rest : Bits} {i : Instr} (h : decodePage bs = .ok (i, rest)) :
    i.wf = true ∧ bitsOf 3 2 ++ bs = encode i ++ rest := by
  obtain ⟨⟨p, r⟩, hp, h⟩ := bind_eq_ok.mp h
  cases h
  rw [readField_ok hp]
  exact ⟨rfl, rfl⟩

theorem decodeLoadImmediate_ok {bs rest : Bits} {i : Instr} (h : decodeLoadImmediate bs = .ok (i, rest)) :
    i.wf = true ∧ bitsOf 3 3 ++ (bitsOf 3 5 ++ bs) = encode i ++ rest := by
  obtain ⟨⟨w, r⟩, hw, h⟩ := bind_eq_ok.mp h
  obtain ⟨⟨d, r'⟩, hd, hsel⟩ := bind_eq_ok.mp h
  obtain ⟨hlt, rfl⟩ := readBits_ok hw
  rw [readField_ok hd]
  interval_cases w <;>
    (obtain ⟨⟨imm, r''⟩, himm, hend⟩ := bind_eq_ok.mp hsel
     cases hend
     rw [readField_ok himm]
     exact ⟨rfl, rfl⟩)

theorem decodeArithmetic_ok {bs rest : Bits} {i : Instr} (h : decodeArithmetic bs = .ok (i, rest)) :
    i.wf = true ∧ bitsOf 3 3 ++ bs = encode i ++ rest := by
  obtain ⟨⟨mode, r⟩, hmode, hsel⟩ := bind_eq_ok.mp h
  obtain ⟨hlt, rfl⟩ := readBits_ok hmode
  interval_cases mode
  -- goal `k + 1` is selector `k`
  on_goal 6 => exact decodeLoadImmediate_ok hsel
  all_goals
    obtain ⟨a, b, rfl, rfl⟩ := decodeTwoRegisters_ok hsel
    exact ⟨rfl, rfl⟩

theorem decodeDisplay_ok {bs rest : Bits} {i : Instr} (h : decodeDisplay bs = .ok (i, rest)) :
    i.wf = true ∧ bitsOf 3 4 ++ bs = encode i ++ rest := by
  obtain ⟨⟨mode, r⟩, hmode, hsel⟩ := bind_eq_ok.mp h
  obtain ⟨hlt, rfl⟩ := readBits_ok hmode
  interval_cases mode
  -- goal `k + 1` is selector `k`
  on_goal 4 =>
    obtain ⟨⟨lit, r'⟩, hlit, hend⟩ := bind_eq_ok.mp hsel
    cases hend
    rw [readField_ok hlit]
    exact ⟨rfl, rfl⟩
  all_goals
    obtain ⟨a, rfl, rfl⟩ := decodeOneField_ok hsel
    exact ⟨rfl, rfl⟩

theorem decodeForHeader_ok {bs rest : Bits} {i : Instr} (h : decodeForHeader bs = .ok (i, rest)) :
    i.wf = true ∧ bitsOf 3 5 ++ (bitsOf 3 5 ++ bs) = encode i ++ rest := by
  obtain ⟨⟨m, r⟩, hm, h⟩ := bind_eq_ok.mp h
  obtain ⟨⟨a, r'⟩, ha, hsel⟩ := bind_eq_ok.mp h
  obtain ⟨hlt, rfl⟩ := readBits_ok hm
  rw [readField_ok ha]
  interval_cases m <;>
    (obtain ⟨⟨n, r''⟩, hn, hend⟩ := bind_eq_ok.mp hsel
     cases hend
     rw [readField_ok hn]
     exact ⟨rfl, rfl⟩)

/-- The payload's count is read from 16 bits, so it fits them again (R84). -/
theorem decodeLiteralPrint_ok {bs rest : Bits} {i : Instr} (h : decodeLiteralPrint bs = .ok (i, rest)) :
    i.wf = true ∧ bitsOf 3 5 ++ (bitsOf 3 7 ++ bs) = encode i ++ rest := by
  obtain ⟨⟨len, r⟩, hlen, h⟩ := bind_eq_ok.mp h
  obtain ⟨⟨payload, r'⟩, hpayload, h⟩ := bind_eq_ok.mp h
  cases h
  obtain ⟨hlt, rfl⟩ := readBits_ok hlen
  obtain ⟨rfl, rfl⟩ := readBytes_ok hpayload
  exact ⟨decide_eq_true (by omega), by simp [encode]⟩

theorem decodeBlock_ok {bs rest : Bits} {i : Instr} (h : decodeBlock bs = .ok (i, rest)) :
    i.wf = true ∧ bitsOf 3 5 ++ bs = encode i ++ rest := by
  obtain ⟨⟨st, r⟩, hst, hsel⟩ := bind_eq_ok.mp h
  obtain ⟨hlt, rfl⟩ := readBits_ok hst
  interval_cases st
  -- goal `k + 1` is sub-type `k`; taken from the last on, so that none moves up
  on_goal 8 => exact decodeLiteralPrint_ok hsel
  on_goal 7 =>
    obtain ⟨a, c, b, rfl, rfl⟩ := decodeCondHeader_ok hsel
    exact ⟨rfl, by simp [encode, encodeCondHeader]⟩
  on_goal 6 => exact decodeForHeader_ok hsel
  on_goal 1 =>
    obtain ⟨a, c, b, rfl, rfl⟩ := decodeCondHeader_ok hsel
    exact ⟨rfl, by simp [encode, encodeCondHeader]⟩
  all_goals
    obtain ⟨a, rfl, rfl⟩ := decodeOneField_ok hsel
    exact ⟨rfl, rfl⟩

theorem decodeIo_ok {bs rest : Bits} {i : Instr} (h : decodeIo bs = .ok (i, rest)) :
    i.wf = true ∧ bitsOf 3 7 ++ bs = encode i ++ rest := by
  obtain ⟨⟨st, r⟩, hst, hsel⟩ := bind_eq_ok.mp h
  obtain ⟨hlt, rfl⟩ := readBits_ok hst
  interval_cases st
  · cases hsel; exact ⟨rfl, rfl⟩
  · cases hsel; exact ⟨rfl, rfl⟩
  all_goals
    obtain ⟨a, rfl, rfl⟩ := decodeOneField_ok hsel
    exact ⟨rfl, rfl⟩

/-- A decoded instruction is well-formed, and what was read is its encoding (R82, R83). -/
theorem decode_ok {bs rest : Bits} {i : Instr} (h : decode bs = .ok (i, rest)) :
    i.wf = true ∧ bs = encode i ++ rest := by
  obtain ⟨⟨tag, r⟩, htag, hsel⟩ := bind_eq_ok.mp h
  obtain ⟨hlt, rfl⟩ := readBits_ok htag
  interval_cases tag
  · cases hsel; exact ⟨rfl, rfl⟩
  · exact decodeManipulate_ok hsel
  · exact decodePage_ok hsel
  · exact decodeArithmetic_ok hsel
  · exact decodeDisplay_ok hsel
  · exact decodeBlock_ok hsel
  · cases hsel; exact ⟨rfl, rfl⟩
  · exact decodeIo_ok hsel

/-- Only a DPM's length depends on its operands; the others' rows are computed. -/
theorem encode_length {i : Instr} (h : i.wf = true) : (encode i).length = i.width := by
  cases i with
  | dpm payload => exact Laws.EncodedWidth.dpm payload h
  | _ => rfl

theorem decode_length {bs rest : Bits} {i : Instr} (h : decode bs = .ok (i, rest)) :
    bs.length = i.width + rest.length := by
  obtain ⟨hwf, rfl⟩ := decode_ok h
  rw [List.length_append, encode_length hwf]

/-- Every instruction has at least its class tag. -/
theorem Instr.three_le_width (i : Instr) : 3 ≤ i.width := by
  have : 3 ≤ i.headerBits := by cases i <;> simp [Instr.headerBits]
  exact Nat.le_add_right_of_le this

end Sys2Proof

namespace Sys2Proof.Machine

theorem captureLoop_bounds {fuel depth pos t : Nat} {bs : Bits} (h : captureLoop fuel depth pos bs = .ok t) :
    pos ≤ t ∧ t + 3 ≤ pos + bs.length := by
  induction fuel generalizing depth pos bs with
  | zero => cases h
  | succ fuel ih =>
    rw [captureLoop] at h
    split at h
    · cases h
    next i rest hd =>
      have hlen := decode_length hd
      have hwidth := i.three_le_width
      have behind : ∀ {d}, captureLoop fuel d (pos + i.width) rest = .ok t →
          pos ≤ t ∧ t + 3 ≤ pos + bs.length := fun hrec => by
        have := ih hrec
        omega
      split at h
      · exact behind h
      · exact behind h
      · split at h
        · cases h; omega
        · exact behind h

/-- R175: the body starts where the capture did, and it lies with its END inside the frame. -/
theorem State.capture_bounds {s : State} {start stop : Nat} {body : Span} (h : s.capture start stop = .ok body) :
    body.start = start ∧ start ≤ body.stop ∧ body.stop + 3 ≤ stop := by
  obtain ⟨hstart, hloop⟩ := State.capture_ok h
  have hb := captureLoop_bounds hloop
  rw [Memory.bits_length] at hb
  exact ⟨hstart, by omega, by omega⟩

/-- An instruction that the frame's bits decode to lies within the frame (R56). -/
theorem State.decode_remaining_fits {s : State} {f : Frame} {i : Instr} {rest : Bits}
    (h : decode (s.remaining f) = .ok (i, rest)) : f.pc + i.width ≤ f.body.stop := by
  have hlen := decode_length h
  have hwidth := i.three_le_width
  rw [State.remaining, Memory.bits_length] at hlen
  omega

end Sys2Proof.Machine
end

section
/-! What PDEC, PHEX, PLIT and DPM emit are scalar values (R34, R162 to R164, R200). -/

namespace Sys2Proof.Machine

theorem isScalar_iff (v : Nat) : isScalar v = true ↔ v ≤ 0x10FFFF ∧ (v < 0xD800 ∨ 0xDFFF < v) := by
  simp [isScalar]

theorem isScalar_of_lt {v : Nat} (h : v < 0xD800) : isScalar v = true := by
  rw [isScalar_iff]
  omega

theorem digitsFrom_lt {base : Nat} (hbase : 0 < base) {fuel v : Nat} {acc : List Nat} (hacc : ∀ d ∈ acc, d < base) :
    ∀ d ∈ digitsFrom base fuel v acc, d < base := by
  induction fuel generalizing v acc with
  | zero => exact hacc
  | succ fuel ih =>
    rw [digitsFrom]
    split
    · exact List.forall_mem_cons.2 ⟨‹_›, hacc⟩
    · exact ih (List.forall_mem_cons.2 ⟨Nat.mod_lt _ hbase, hacc⟩)

theorem numeral_isScalar {base : Nat} (hpos : 0 < base) (hle : base ≤ 16) (v : Word) :
    ∀ c ∈ numeral base v, isScalar c = true := by
  intro c hc
  obtain ⟨d, hd, rfl⟩ := List.mem_map.1 hc
  have hlt : d < base := digitsFrom_lt hpos (by simp) d hd
  apply isScalar_of_lt
  unfold digitScalar
  split <;> omega

theorem within_iff (lo hi : Nat) (b : Byte) : within lo hi b = true ↔ lo ≤ b.toNat ∧ b.toNat ≤ hi := by
  simp [within]

/-- A unit of three bytes spells no surrogate: after 0xED the second byte is at most 0x9F (R200). -/
theorem isScalar_three {b0 b1 b2 : Byte} (h0 : within 0xE0 0xEF b0 = true) (h1 : secondOfThree b0 b1 = true)
    (h2 : within 0x80 0xBF b2 = true) :
    isScalar ((b0.toNat - 0xE0) * 4096 + (b1.toNat - 0x80) * 64 + (b2.toNat - 0x80)) = true := by
  unfold secondOfThree at h1
  rw [within_iff] at h0 h2
  rw [isScalar_iff]
  split_ifs at h1 <;> rw [within_iff] at h1 <;> omega

/-- A unit of four bytes spells at most 0x10FFFF: after 0xF4 the second byte is at most 0x8F (R200). -/
theorem isScalar_four {b0 b1 b2 b3 : Byte} (h0 : within 0xF0 0xF4 b0 = true) (h1 : secondOfFour b0 b1 = true)
    (h2 : within 0x80 0xBF b2 = true) (h3 : within 0x80 0xBF b3 = true) :
    isScalar ((b0.toNat - 0xF0) * 262144 + (b1.toNat - 0x80) * 4096 + (b2.toNat - 0x80) * 64
      + (b3.toNat - 0x80)) = true := by
  unfold secondOfFour at h1
  rw [within_iff] at h0 h2 h3
  rw [isScalar_iff]
  split_ifs at h1 <;> rw [within_iff] at h1 <;> omega

theorem forall_isScalar_of_map_cons {c : Nat} {tail : Option (List Scalar)} {text : List Scalar}
    (h : tail.map (c :: ·) = some text) (hc : isScalar c = true)
    (htail : ∀ cs, tail = some cs → ∀ d ∈ cs, isScalar d = true) : ∀ d ∈ text, isScalar d = true := by
  obtain ⟨cs, hcs, rfl⟩ := Option.map_eq_some_iff.1 h
  exact List.forall_mem_cons.2 ⟨hc, htail cs hcs⟩

/-- R200: what a payload decodes to are scalar values. -/
theorem utf8Decode_isScalar (payload : List Byte) {text : List Scalar} (h : utf8Decode payload = some text) :
    ∀ c ∈ text, isScalar c = true := by
  fun_induction utf8Decode payload generalizing text with
  | case1 => cases h; simp
  | case2 b0 r0 h0 ih =>
    rw [within_iff] at h0
    exact forall_isScalar_of_map_cons h (isScalar_of_lt (by omega)) fun _ => ih
  | case4 b0 _ b1 r1 h0 h1 ih =>
    rw [within_iff] at h0 h1
    exact forall_isScalar_of_map_cons h (isScalar_of_lt (by omega)) fun _ => ih
  | case7 b0 _ b1 _ b2 r2 h0 h12 ih =>
    obtain ⟨h1, h2⟩ := (Bool.and_eq_true _ _).mp h12
    exact forall_isScalar_of_map_cons h (isScalar_three h0 h1 h2) fun _ => ih
  | case10 b0 _ b1 _ b2 _ b3 r3 h0 h123 ih =>
    obtain ⟨h12, h3⟩ := (Bool.and_eq_true _ _).mp h123
    obtain ⟨h1, h2⟩ := (Bool.and_eq_true _ _).mp h12
    exact forall_isScalar_of_map_cons h (isScalar_four h0 h1 h2 h3) fun _ => ih
  | _ => cases h

end Sys2Proof.Machine
end

section
/-! Everything an instruction can do, said once for all arms of `exec`; later proofs split these cases. -/

namespace Sys2Proof.Machine

/-- What a body-bearing BLOCK can do with the body it captured, from the state `u` behind its END. -/
inductive BodyCase (i : Instr) (u : State) (body : Span) (t : State) : Prop where
  | skips (result : t = u)
  | defines (k : FuncId) (instr : i = .funcDef k) (result : t = u.setFunc k (some body))
  | enters (kind : FrameKind) (notRoot : kind ≠ .root) (good : ∀ len, kind.Good len body)
      (result : t = u.enter kind body)
  | counts (a : RegAddr) (n : Nat) (atLeastOne : 1 ≤ n) (bound : n < 2 ^ 32)
      (result : t = (u.setReg a (toWord 1)).enter (.counts a 1 n) body)

/-- What an instruction can do (R104): every next state of `exec`, by the operations that make it. -/
inductive ExecCase (i : Instr) (s t : State) : Prop where
  | waits (noLine : s.input = []) (result : t = s)
  | moves (result : t = s.advance i.width)
  | writes (a : RegAddr) (v : Word) (result : t = (s.advance i.width).setReg a v)
  | ends (ev : Event) (source : MayRaise ev i) (result : t = s.endRun ev)
  | turnsPage (p : PageNo) (instr : i = .page p) (result : t = (s.advance i.width).setPage p)
  | pushes (a : RegAddr) (instr : i = .push a) (result : t = (s.advance i.width).pushEntry (s.reg a))
  | pops (a : RegAddr) (v w : Word) (below : List Word) (instr : i = .pop a) (newest : s.stack = v :: below)
      (result : t = ({ s with stack := below }.advance i.width).setReg a w)
  | emits (text : List Scalar) (scalars : ∀ c ∈ text, isScalar c = true)
      (result : t = (s.advance i.width).emit text)
  | undefines (k : FuncId) (instr : i = .funcUndef k) (result : t = (s.advance i.width).setFunc k none)
  | calls (k : FuncId) (body : Span) (stored : s.func k = some body)
      (result : t = (s.advance i.width).enter .call body)
  | rejectsLine (a : RegAddr) (line : List Scalar) (later : List (List Scalar))
      (instr : i = .inHex a ∨ i = .inDec a) (delivered : s.input = line :: later)
      (result : t = { s with input := later }.endRun .malformedInput)
  | takesLine (a : RegAddr) (v : Word) (line : List Scalar) (later : List (List Scalar))
      (instr : i = .inHex a ∨ i = .inDec a) (delivered : s.input = line :: later)
      (result : t = ({ s with input := later }.advance i.width).setReg a v)
  | block (f : Frame) (below : List Frame) (body : Span) (top : s.frames = f :: below)
      (captured : s.capture (f.pc + i.width) f.body.stop = .ok body)
      (act : BodyCase i (s.moveTo (body.stop + 3)) body t)
  | endsFrame (instr : i = .blockEnd) (result : (s.advance i.width).frameEnd = .next t)

theorem ExecCase.of_withBody {i : Instr} {s t : State} {act : Span → State → State} (opens : i.nesting = .opens)
    (h : s.withBody i.width act = .next t) (hact : ∀ body u, BodyCase i u body (act body u)) : ExecCase i s t := by
  obtain ⟨f, below, top, ⟨_, rfl⟩ | ⟨body, captured, rfl⟩⟩ := State.withBody_cases h
  · exact .ends .unexpectedEnd opens rfl
  · exact .block f below body top captured (hact body _)

theorem BodyCase.of_forStart {i : Instr} (a : RegAddr) {n : Nat} (bound : n < 2 ^ 32) (body : Span) (u : State) :
    BodyCase i u body (u.forStart a n body) := by
  obtain ⟨_, h⟩ | ⟨atLeastOne, h⟩ := State.forStart_cases u a n body
  · exact .skips h
  · exact .counts a n atLeastOne bound h

theorem BodyCase.of_guard {i : Instr} {kind : FrameKind} (holds : Prop) [Decidable holds] (notRoot : kind ≠ .root)
    (body : Span) (u : State) (good : holds → ∀ len, kind.Good len body) :
    BodyCase i u body (if holds then u.enter kind body else u) := by
  split
  · exact .enters kind notRoot (good ‹_›) rfl
  · exact .skips rfl

theorem ExecCase.of_inputNumber {i : Instr} {s t : State} {radix : Nat} {a : RegAddr} (hw : i.width = 9)
    (instr : i = .inHex a ∨ i = .inDec a) (h : inputNumber radix a s = .next t) : ExecCase i s t := by
  obtain ⟨noLine, rfl⟩ | ⟨line, later, delivered, ⟨_, rfl⟩ | ⟨v, _, rfl⟩⟩ := inputNumber_cases h
  · exact .waits noLine rfl
  · exact .rejectsLine a line later instr delivered rfl
  · exact .takesLine a (toWord v) line later instr delivered (by rw [hw])

theorem execPop_cases {a : RegAddr} {s t : State} (h : execPop a s = .next t) : ExecCase (.pop a) s t := by
  unfold execPop at h
  split at h
  · cases h; exact .ends .stackUnderflow ⟨a, rfl⟩ rfl
  · cases h; exact .pops a _ _ _ rfl ‹_› rfl

theorem execPchr_cases {a : RegAddr} {s t : State} (h : execPchr a s = .next t) : ExecCase (.pchr a) s t := by
  unfold execPchr at h
  split at h
  · cases h; exact .emits _ (by simpa) rfl
  · cases h; exact .ends .invalidCharacter (.inl ⟨a, rfl⟩) rfl

theorem execDpm_cases {payload : List Byte} {s t : State} (h : execDpm payload s = .next t) :
    ExecCase (.dpm payload) s t := by
  unfold execDpm at h
  split at h
  · cases h; exact .ends .invalidCharacter (.inr ⟨payload, rfl⟩) rfl
  · cases h; exact .emits _ (utf8Decode_isScalar payload ‹_›) rfl

theorem execCall_cases {k : FuncId} {s t : State} (h : execCall k s = .next t) : ExecCase (.call k) s t := by
  unfold execCall at h
  split at h
  · cases h; exact .moves rfl
  · split at h
    · cases h; exact .calls k _ ‹_› rfl
    · cases h; exact .moves rfl

theorem execBlockEnd_cases {s t : State} (h : execBlockEnd s = .next t) : ExecCase .blockEnd s t := by
  unfold execBlockEnd at h
  split at h
  · cases h
  · split at h
    · cases h; exact .ends .rootBlockEnd rfl rfl
    all_goals exact .endsFrame rfl h

theorem exec_cases {i : Instr} {s t : State} (h : exec i s = .next t) : ExecCase i s t := by
  cases i with
  | nop => cases h; exact .moves rfl
  | inc a => cases h; exact .writes a _ rfl
  | dec a => cases h; exact .writes a _ rfl
  | clr a => cases h; exact .writes a _ rfl
  | rst a => cases h; exact .writes a _ rfl
  | push a => cases h; exact .pushes a rfl rfl
  | pop a => exact execPop_cases h
  | mres6 a => cases h; exact .moves rfl
  | mres7 a => cases h; exact .moves rfl
  | page p => cases h; exact .turnsPage p rfl rfl
  | add a1 a2 => cases h; exact .writes a1 _ rfl
  | sub a1 a2 => cases h; exact .writes a1 _ rfl
  | mul a1 a2 => cases h; exact .writes a1 _ rfl
  | div a1 a2 => cases h; exact .writes a1 _ rfl
  | mov a1 a2 => cases h; exact .writes a1 _ rfl
  | ldi8 d imm => cases h; exact .writes d _ rfl
  | ldi16 d imm => cases h; exact .writes d _ rfl
  | ldi24 d imm => cases h; exact .writes d _ rfl
  | ldi32 d imm => cases h; exact .writes d _ rfl
  | pow a1 a2 => cases h; exact .writes a1 _ rfl
  | root a1 a2 => cases h; exact .writes a1 _ rfl
  | pchr a => exact execPchr_cases h
  | pdec a => cases h; exact .emits _ (numeral_isScalar (by decide) (by decide) _) rfl
  | phex a => cases h; exact .emits _ (numeral_isScalar (by decide) (by decide) _) rfl
  | plit lit => cases h; exact .emits _ (by simpa using isScalar_of_lt (by omega)) rfl
  | ifBlock a1 c a2 =>
    unfold exec execIf at h
    exact .of_withBody rfl h fun body u => .of_guard _ (kind := .once) nofun body u fun _ _ => trivial
  | repeatBlock a =>
    unfold exec execRepeat at h
    exact .of_withBody rfl h fun body u =>
      .of_guard _ (kind := .repeats (s.reg a).toNat) nofun body u fun hk _ => ⟨hk, (s.reg a).isLt⟩
  | funcDef k =>
    unfold exec execFuncDef at h
    exact .of_withBody rfl h fun _ _ => .defines k rfl rfl
  | funcUndef k => cases h; exact .undefines k rfl rfl
  | call k => exact execCall_cases h
  | forImm a n =>
    unfold exec execForImm at h
    exact .of_withBody rfl h (.of_forStart a (n.isLt.trans (by decide)))
  | forReg a a2 =>
    unfold exec execForReg at h
    exact .of_withBody rfl h (.of_forStart a (s.reg a2).isLt)
  | whileBlock a1 c a2 =>
    unfold exec execWhile at h
    exact .of_withBody rfl h fun body u => .of_guard _ (kind := .loops a1 c a2) nofun body u fun _ _ => trivial
  | dpm payload => exact execDpm_cases h
  | blockEnd => exact execBlockEnd_cases h
  | halt => cases h; exact .ends .haltSuccess rfl rfl
  | fail => cases h; exact .ends .haltFailure rfl rfl
  | inHex a => exact .of_inputNumber rfl (.inl rfl) h
  | inDec a => exact .of_inputNumber rfl (.inr rfl) h

end Sys2Proof.Machine
end

section
/-! What a step does to register 15 (R39) and to the data beside the registers (R20, R26 to R28, R34, R35). -/

namespace Sys2Proof.Machine

/-! ## Register 15 -/

theorem State.Mirrored.of_regs {s t : State} (h : s.Mirrored) (hregs : t.regs = s.regs) : t.Mirrored := by
  unfold State.Mirrored State.regAt at *
  rwa [hregs]

/-- R24: one register write makes register 15 the same on every page, whatever it was before. -/
theorem State.setReg_mirrored (s : State) (a : RegAddr) (v : Word) : (s.setReg a v).Mirrored := fun p => by
  rw [State.setReg_regAt, State.setReg_regAt, if_pos rfl, if_pos rfl]

theorem State.enter_regs (s : State) (kind : FrameKind) (body : Span) : (s.enter kind body).regs = s.regs := by
  obtain ⟨_, h⟩ | ⟨_, h⟩ := s.enter_cases kind body <;> simp [h]

theorem State.pushEntry_regs (s : State) (v : Word) : (s.pushEntry v).regs = s.regs := by
  obtain ⟨_, h⟩ | ⟨_, h⟩ := s.pushEntry_cases v <;> simp [h]

theorem State.frameEnd_mirrored {s t : State} (h : s.Mirrored) (hend : s.frameEnd = .next t) : t.Mirrored := by
  obtain ⟨f, below, _, hcase⟩ := State.frameEnd_cases hend
  cases hcase with
  | endOfStream _ result => exact h.of_regs (result ▸ rfl)
  | pop _ result => exact h.of_regs (result ▸ rfl)
  | again _ _ _ result => exact h.of_regs (result ▸ rfl)
  | next _ _ _ _ _ result => exact result ▸ State.setReg_mirrored _ _ _
  | loop _ _ _ _ _ result => exact h.of_regs (result ▸ rfl)

theorem BodyCase.mirrored {i : Instr} {u t : State} {body : Span} (h : u.Mirrored) (hcase : BodyCase i u body t) :
    t.Mirrored := by
  cases hcase with
  | skips result => exact result ▸ h
  | defines _ _ result => exact h.of_regs (result ▸ rfl)
  | enters _ _ _ result => exact h.of_regs (result ▸ u.enter_regs _ _)
  | counts a _ _ _ result => exact (u.setReg_mirrored a _).of_regs (result ▸ State.enter_regs _ _ _)

theorem exec_mirrored {i : Instr} {s t : State} (h : s.Mirrored) (hexec : exec i s = .next t) : t.Mirrored := by
  cases exec_cases hexec with
  | waits _ result => exact result ▸ h
  | moves result => exact h.of_regs (result ▸ rfl)
  | writes _ _ result => exact result ▸ State.setReg_mirrored _ _ _
  | ends _ _ result => exact h.of_regs (result ▸ rfl)
  | turnsPage _ _ result => exact h.of_regs (result ▸ rfl)
  | pushes _ _ result => exact h.of_regs (result ▸ State.pushEntry_regs _ _)
  | pops _ _ _ _ _ _ result => exact result ▸ State.setReg_mirrored _ _ _
  | emits _ _ result => exact h.of_regs (result ▸ rfl)
  | undefines _ _ result => exact h.of_regs (result ▸ rfl)
  | calls _ _ _ result => exact h.of_regs (result ▸ State.enter_regs _ _ _)
  | rejectsLine _ _ _ _ _ result => exact h.of_regs (result ▸ rfl)
  | takesLine _ _ _ _ _ _ result => exact result ▸ State.setReg_mirrored _ _ _
  | block _ _ _ _ _ act => exact act.mirrored (h.of_regs (s.moveTo_regs _))
  | endsFrame _ result => exact State.frameEnd_mirrored (h.of_regs (s.advance_regs _)) result

/-- Settles O46: a register write restores the mirror on all pages, and nothing else touches a register. -/
theorem mirrorHoldsAfterEveryStep : Obligations.MirrorHoldsAfterEveryStep := by
  intro s t h hstep
  cases step_cases hstep with
  | ended _ result => exact result ▸ h
  | frameEnd _ result => exact State.frameEnd_mirrored h result
  | unexpectedEnd _ result => exact h.of_regs (result ▸ rfl)
  | instruction _ _ _ _ _ _ _ result => exact exec_mirrored h result

/-! ## The data of the machine -/

/-- Everything but the registers, the frame stack and the result is the same. -/
structure SameData (s t : State) : Prop where
  page : t.page = s.page := by rfl
  stack : t.stack = s.stack := by rfl
  funcs : t.funcs = s.funcs := by rfl
  out : t.out = s.out := by rfl
  mem : t.mem = s.mem := by rfl
  input : t.input = s.input := by rfl
  params : t.params = s.params := by rfl

theorem SameData.trans {r s t : State} (h : SameData r s) (h' : SameData s t) : SameData r t where
  page := h'.page.trans h.page
  stack := h'.stack.trans h.stack
  funcs := h'.funcs.trans h.funcs
  out := h'.out.trans h.out
  mem := h'.mem.trans h.mem
  input := h'.input.trans h.input
  params := h'.params.trans h.params

theorem SameData.func {s t : State} (h : SameData s t) (k : FuncId) : t.func k = s.func k := by
  unfold State.func
  simp only [h.funcs]

theorem State.enter_sameData (s : State) (kind : FrameKind) (body : Span) : SameData s (s.enter kind body) := by
  obtain ⟨_, h⟩ | ⟨_, h⟩ := s.enter_cases kind body <;> rw [h] <;> exact {}

theorem State.frameEnd_sameData {s t : State} (h : s.frameEnd = .next t) : SameData s t := by
  obtain ⟨f, below, _, hcase⟩ := State.frameEnd_cases h
  cases hcase <;> subst t <;> exact {}

/-- R26 to R28, R34, R35: the pieces of data beside the registers that an instruction changes, at most one of them. -/
inductive DataCase (i : Instr) (s t : State) : Prop where
  | nothing (same : SameData s t)
  | page (p : PageNo) (instr : i = .page p) (same : SameData (s.setPage p) t)
  | push (a : RegAddr) (instr : i = .push a) (same : SameData { s with stack := s.reg a :: s.stack } t)
  | pop (a : RegAddr) (v : Word) (below : List Word) (instr : i = .pop a) (newest : s.stack = v :: below)
      (same : SameData { s with stack := below } t)
  | define (k : FuncId) (body : Span) (instr : i = .funcDef k) (same : SameData (s.setFunc k (some body)) t)
  | undefine (k : FuncId) (instr : i = .funcUndef k) (same : SameData (s.setFunc k none) t)
  | emit (text : List Scalar) (same : SameData (s.emit text) t)
  | line (a : RegAddr) (line : List Scalar) (later : List (List Scalar)) (instr : i = .inHex a ∨ i = .inDec a)
      (delivered : s.input = line :: later) (same : SameData { s with input := later } t)

theorem BodyCase.data {i : Instr} {s t : State} {body : Span} {target : Nat}
    (h : BodyCase i (s.moveTo target) body t) : DataCase i s t := by
  cases h with
  | skips result => subst result; exact .nothing {}
  | defines k instr result => subst result; exact .define k body instr {}
  | enters kind _ _ result => subst result; exact .nothing (.trans {} (State.enter_sameData _ kind body))
  | counts a n _ _ result => subst result; exact .nothing (.trans {} (State.enter_sameData _ (.counts a 1 n) body))

theorem exec_data {i : Instr} {s t : State} (h : exec i s = .next t) : DataCase i s t := by
  cases exec_cases h with
  | waits _ result => subst result; exact .nothing {}
  | moves result => subst result; exact .nothing {}
  | writes _ _ result => subst result; exact .nothing {}
  | ends _ _ result => subst result; exact .nothing {}
  | turnsPage p instr result => subst result; exact .page p instr {}
  | pushes a instr result =>
    subst result
    obtain ⟨_, hpush⟩ | ⟨_, hpush⟩ := (s.advance i.width).pushEntry_cases (s.reg a) <;> rw [hpush]
    · exact .nothing {}
    · exact .push a instr {}
  | pops a v _ below instr newest result => subst result; exact .pop a v below instr newest {}
  | emits text _ result => subst result; exact .emit text {}
  | undefines k instr result => subst result; exact .undefine k instr {}
  | calls _ body _ result => subst result; exact .nothing (.trans {} (State.enter_sameData _ .call body))
  | rejectsLine a line later instr delivered result => subst result; exact .line a line later instr delivered {}
  | takesLine a _ line later instr delivered result => subst result; exact .line a line later instr delivered {}
  | block _ _ _ _ _ act => exact act.data
  | endsFrame _ result => exact .nothing (.trans {} (State.frameEnd_sameData result))

/-- A step changes data beside the registers only by the instruction it decodes. -/
theorem step_data {s t : State} (h : step s = .next t) : SameData s t ∨ ∃ i, NextInstr s i ∧ DataCase i s t := by
  cases step_cases h with
  | ended _ result => subst result; exact .inl {}
  | frameEnd _ result => exact .inl (State.frameEnd_sameData result)
  | unexpectedEnd _ result => subst result; exact .inl {}
  | instruction f below i rest running top fetched result =>
    exact .inr ⟨i, ⟨running, f, below, rest, top, fetched⟩, exec_data result⟩

/-- Settles O48: of the data cases only PAGE has another page. -/
theorem onlyPageChangesThePage : Obligations.OnlyPageChangesThePage := by
  intro s t hstep hne
  obtain same | ⟨i, hnext, hdata⟩ := step_data hstep
  · exact absurd same.page hne
  cases hdata with
  | page p instr same => exact ⟨p, instr ▸ hnext, same.page⟩
  | _ => rename_i same; exact absurd same.page hne

/-- Settles O49: of the data cases only PUSH and POP have another stack. -/
theorem onlyPushAndPopTouchTheStack : Obligations.OnlyPushAndPopTouchTheStack := by
  intro s t hstep hne
  obtain same | ⟨i, hnext, hdata⟩ := step_data hstep
  · exact absurd same.stack hne
  cases hdata with
  | push a instr same => exact .inl ⟨a, instr ▸ hnext, same.stack⟩
  | pop a v below instr newest same => exact .inr ⟨a, v, instr ▸ hnext, by rw [newest, same.stack]⟩
  | _ => rename_i same; exact absurd same.stack hne

/-- Settles O50: of the data cases only FUNCDEF and FUNCUNDEF write the table, each its own entry. -/
theorem onlyFuncDefAndFuncUndefWriteTheTable : Obligations.OnlyFuncDefAndFuncUndefWriteTheTable := by
  intro s t k hstep hne
  obtain same | ⟨i, hnext, hdata⟩ := step_data hstep
  · exact absurd (same.func k) hne
  cases hdata with
  | define j body instr same =>
    have hk := same.func k
    rw [State.setFunc_func] at hk
    split at hk
    · subst k; exact .inl ⟨body, instr ▸ hnext, hk⟩
    · exact absurd hk hne
  | undefine j instr same =>
    have hk := same.func k
    rw [State.setFunc_func] at hk
    split at hk
    · subst k; exact .inr ⟨instr ▸ hnext, hk⟩
    · exact absurd hk hne
  | _ => rename_i same; exact absurd (same.func k) hne

theorem DataCase.sameImage {i : Instr} {s t : State} (h : DataCase i s t) : SameImage s t := by
  have hmem : t.mem = s.mem := by cases h <;> (rename_i same; exact same.mem)
  exact ⟨hmem, fun x => by rw [hmem]⟩

theorem DataCase.params {i : Instr} {s t : State} (h : DataCase i s t) : t.params = s.params := by
  cases h <;> (rename_i same; exact same.params)

theorem DataCase.out_extends {i : Instr} {s t : State} (h : DataCase i s t) : ∃ text, t.out = s.out ++ text := by
  cases h with
  | emit text same => exact ⟨text, same.out⟩
  | _ => rename_i same; exact ⟨[], by simpa using same.out⟩

theorem DataCase.input_cases {i : Instr} {s t : State} (h : DataCase i s t) :
    t.input = s.input ∨ ∃ a line, (i = .inHex a ∨ i = .inDec a) ∧ s.input = line :: t.input := by
  cases h with
  | line a line later instr delivered same => exact .inr ⟨a, line, instr, by rw [delivered, same.input]⟩
  | _ => rename_i same; exact .inl same.input

/-- Settles O51: the four parts are read off the data cases. -/
theorem imageAndChannelsAreOnlyUsedAsTheSpecSays : Obligations.ImageAndChannelsAreOnlyUsedAsTheSpecSays := by
  intro s t hstep
  obtain same | ⟨i, hnext, hdata⟩ := step_data hstep
  · exact ⟨⟨same.mem, fun x => by rw [same.mem]⟩, same.params, ⟨[], by rw [same.out, List.append_nil]⟩,
      .inl same.input⟩
  refine ⟨hdata.sameImage, hdata.params, hdata.out_extends, hdata.input_cases.imp_right ?_⟩
  rintro ⟨a, line, rfl | rfl, hin⟩
  · exact ⟨a, line, .inl hnext, hin⟩
  · exact ⟨a, line, .inr hnext, hin⟩

end Sys2Proof.Machine
end

section
/-! What a step does to the frame stack (R31, R106, R107, R238). -/

namespace Sys2Proof.Machine

theorem State.advance_frames_cons {s : State} {f : Frame} {below : List Frame} (n : Nat) (h : s.frames = f :: below) :
    (s.advance n).frames = { f with pc := f.pc + n } :: below := by
  rw [State.advance_frames, h, advanceTop_cons]

/-- What becomes of the frames `f :: below` when the top one is advanced, left, restarted, entered from or discarded
with all others: the clauses of R31, R106, R107 and R238. -/
inductive FramesCase (f : Frame) (below : List Frame) (t : State) : Prop where
  | ended (noFrames : t.frames = []) (result : t.res.cls ≠ .running)
  | popped (result : t.frames = below)
  | advanced (pc : Nat) (forward : f.pc ≤ pc) (result : t.frames = { f with pc := pc } :: below)
  | restarted (kind : FrameKind) (result : t.frames = { f with pc := f.body.start, kind := kind } :: below)
  | entered (pc : Nat) (forward : f.pc ≤ pc) (g : Frame) (start : g.pc = g.body.start)
      (result : t.frames = g :: { f with pc := pc } :: below)

theorem FramesCase.of_endRun {f : Frame} {below : List Frame} (s : State) (ev : Event) :
    FramesCase f below (s.endRun ev) :=
  .ended (s.endRun_frames ev) (Event.result_cls_ne ev)

theorem FramesCase.of_enter {f : Frame} {below : List Frame} {u : State} {pc : Nat} (forward : f.pc ≤ pc)
    (top : u.frames = { f with pc := pc } :: below) (kind : FrameKind) (body : Span) :
    FramesCase f below (u.enter kind body) := by
  obtain ⟨_, h⟩ | ⟨_, h⟩ := u.enter_cases kind body <;> rw [h]
  · exact .of_endRun u _
  · exact .entered pc forward _ rfl (congrArg _ top)

theorem State.frameEnd_framesCase {s t : State} {f : Frame} {below : List Frame} {pc : Nat}
    (top : s.frames = { f with pc := pc } :: below) (h : s.frameEnd = .next t) : FramesCase f below t := by
  obtain ⟨f', below', htop, hcase⟩ := State.frameEnd_cases h
  obtain ⟨rfl, rfl⟩ := List.cons.inj (top.symm.trans htop)
  cases hcase with
  | endOfStream _ result => exact result ▸ .of_endRun s _
  | pop _ result => exact .popped (result ▸ rfl)
  | again k _ _ result => exact .restarted (.repeats (k - 1)) (result ▸ rfl)
  | next a i n _ _ result => exact .restarted (.counts a (i + 1) n) (result ▸ rfl)
  | loop a1 c a2 _ _ result => exact .restarted (.loops a1 c a2) (result ▸ rfl)

theorem BodyCase.framesCase {i : Instr} {u t : State} {f : Frame} {below : List Frame} {body : Span} {pc : Nat}
    (forward : f.pc ≤ pc) (top : u.frames = { f with pc := pc } :: below) (h : BodyCase i u body t) :
    FramesCase f below t := by
  cases h with
  | skips result => exact .advanced pc forward (result ▸ top)
  | defines _ _ result => exact .advanced pc forward (result ▸ top)
  | enters kind _ _ result => exact result ▸ .of_enter forward top kind body
  | counts a n _ _ result => exact result ▸ .of_enter (u := u.setReg a _) forward top (.counts a 1 n) body

theorem exec_framesCase {i : Instr} {s t : State} {f : Frame} {below : List Frame} (top : s.frames = f :: below)
    (h : exec i s = .next t) : FramesCase f below t := by
  have moved := State.advance_frames_cons i.width top
  have forward : f.pc ≤ f.pc + i.width := Nat.le_add_right ..
  cases exec_cases h with
  | waits _ result => exact .advanced f.pc le_rfl (result ▸ top)
  | moves result => exact .advanced _ forward (result ▸ moved)
  | writes _ _ result => exact .advanced _ forward (result ▸ moved)
  | ends ev _ result => exact result ▸ .of_endRun s ev
  | turnsPage _ _ result => exact .advanced _ forward (result ▸ moved)
  | pushes a _ result =>
    rw [result]
    obtain ⟨_, hpush⟩ | ⟨_, hpush⟩ := (s.advance i.width).pushEntry_cases (s.reg a) <;> rw [hpush]
    · exact .of_endRun _ _
    · exact .advanced _ forward moved
  | pops _ _ _ _ _ _ result => exact .advanced _ forward (result ▸ moved)
  | emits _ _ result => exact .advanced _ forward (result ▸ moved)
  | undefines _ _ result => exact .advanced _ forward (result ▸ moved)
  | calls _ body _ result => exact result ▸ .of_enter forward moved .call body
  | rejectsLine _ _ _ _ _ result => exact result ▸ .of_endRun _ _
  | takesLine _ _ _ _ _ _ result => exact .advanced _ forward (result ▸ moved)
  | block f' below' body htop captured act =>
    obtain ⟨rfl, rfl⟩ := List.cons.inj (top.symm.trans htop)
    obtain ⟨_, hbody, _⟩ := State.capture_bounds captured
    exact act.framesCase (by omega) (s.moveTo_frames_cons _ top)
  | endsFrame _ result => exact State.frameEnd_framesCase moved result

theorem step_framesCase {s t : State} {f : Frame} {below : List Frame} (top : s.frames = f :: below)
    (h : step s = .next t) : FramesCase f below t := by
  cases step_cases h with
  | ended _ result => exact .advanced f.pc le_rfl (result ▸ top)
  | frameEnd _ result => exact State.frameEnd_framesCase top result
  | unexpectedEnd _ result => exact result ▸ .of_endRun s _
  | instruction _ _ _ _ _ _ _ result => exact exec_framesCase top result

/-- Settles O52: each case of the frame stack is one of the statement's clauses. -/
theorem lowerFramesAreUntouched : Obligations.LowerFramesAreUntouched := by
  intro s t f below hstep top
  cases step_framesCase top hstep with
  | ended noFrames result => exact .inl ⟨noFrames, result⟩
  | popped result => exact .inr (.inl result)
  | advanced pc forward result => exact .inr (.inr ⟨{ f with pc := pc }, rfl, .inl ⟨forward, rfl⟩, .inl result⟩)
  | restarted kind result => exact .inr (.inr ⟨{ f with pc := f.body.start, kind := kind }, rfl, .inr rfl, .inl result⟩)
  | entered pc forward g start result =>
    exact .inr (.inr ⟨{ f with pc := pc }, rfl, .inl ⟨forward, rfl⟩, .inr ⟨g, start, result⟩⟩)

end Sys2Proof.Machine
end

section
/-! A good state has a next state, and every operation on the state keeps the invariant; so does a step. -/

namespace Sys2Proof.Machine

/-! ## Progress -/

theorem State.withBody_next {s : State} {f : Frame} {below : List Frame} (top : s.frames = f :: below) (header : Nat)
    (act : Span → State → State) : ∃ t, s.withBody header act = .next t := by
  rw [State.withBody_eq header act top]
  split <;> exact ⟨_, rfl⟩

theorem inputNumber_next (radix : Nat) (a : RegAddr) (s : State) : ∃ t, inputNumber radix a s = .next t := by
  unfold inputNumber
  split
  · exact ⟨_, rfl⟩
  · split <;> exact ⟨_, rfl⟩

theorem execBlockEnd_next {s : State} {f : Frame} {below : List Frame} (top : s.frames = f :: below) :
    ∃ t, execBlockEnd s = .next t := by
  have hend : ∃ t, (s.advance 3).frameEnd = .next t := State.frameEnd_next (State.advance_frames_cons 3 top)
  unfold execBlockEnd
  simp only [top]
  cases f.kind with
  | root => exact ⟨_, rfl⟩
  | _ => exact hend

/-- Only an END and a body-bearing BLOCK look at whether there is a frame, and then they have a next state. -/
theorem exec_next {s : State} {f : Frame} {below : List Frame} (top : s.frames = f :: below) (i : Instr) :
    ∃ t, exec i s = .next t := by
  cases i with
  | pop a =>
    change ∃ t, execPop a s = .next t
    unfold execPop
    split <;> exact ⟨_, rfl⟩
  | pchr a =>
    change ∃ t, execPchr a s = .next t
    unfold execPchr
    split <;> exact ⟨_, rfl⟩
  | ifBlock a1 c a2 => exact State.withBody_next top 16 _
  | repeatBlock a => exact State.withBody_next top 10 _
  | funcDef k => exact State.withBody_next top 10 fun body t => t.setFunc k (some body)
  | call k =>
    change ∃ t, execCall k s = .next t
    unfold execCall
    split
    · exact ⟨_, rfl⟩
    · split <;> exact ⟨_, rfl⟩
  | forImm a n => exact State.withBody_next top 19 fun body t => t.forStart a n.toNat body
  | forReg a a2 => exact State.withBody_next top 15 fun body t => t.forStart a (s.reg a2).toNat body
  | whileBlock a1 c a2 => exact State.withBody_next top 16 _
  | dpm payload =>
    change ∃ t, execDpm payload s = .next t
    unfold execDpm
    split <;> exact ⟨_, rfl⟩
  | blockEnd => exact execBlockEnd_next top
  | inHex a => exact inputNumber_next 16 a s
  | inDec a => exact inputNumber_next 10 a s
  | _ => exact ⟨_, rfl⟩

/-- A step has a next state when the run has ended or there is a frame (R102). -/
theorem step_next {s : State} (h : s.res.cls = .running → ∃ f below, s.frames = f :: below) :
    ∃ t, step s = .next t := by
  cases hc : s.res.cls with
  | running =>
    obtain ⟨f, below, top⟩ := h hc
    unfold step State.fetch
    simp only [hc, top]
    split_ifs
    · exact State.frameEnd_next top
    · obtain ⟨_, htail⟩ | htail := State.tail_cases s f
      · exact htail ▸ State.frameEnd_next top
      · exact ⟨_, htail⟩
    · cases hd : decode (s.remaining f) with
      | error e => exact ⟨_, rfl⟩
      | ok p => exact exec_next top p.1
  | _ => exact ⟨s, by simp only [step, State.fetch, hc]⟩

/-! ## What keeps the invariant -/

theorem Rooted.ne_nil {fs : List Frame} (h : Rooted fs) : fs ≠ [] := by
  rintro rfl
  exact h

theorem Rooted.push {g : Frame} {fs : List Frame} (h : Rooted fs) (notRoot : g.kind ≠ .root) : Rooted (g :: fs) := by
  cases fs with
  | nil => exact absurd rfl h.ne_nil
  | cons f fs => exact ⟨notRoot, h⟩

theorem Rooted.pop {f : Frame} {below : List Frame} (h : Rooted (f :: below)) (notRoot : f.kind ≠ .root) :
    Rooted below := by
  cases below with
  | nil => exact absurd h notRoot
  | cons g fs => exact h.2

theorem Rooted.replace {f f' : Frame} {below : List Frame} (h : Rooted (f :: below))
    (kind : f'.kind = .root ↔ f.kind = .root) : Rooted (f' :: below) := by
  cases below with
  | nil => exact kind.2 h
  | cons g fs => exact ⟨mt kind.1 h.1, h.2⟩

theorem State.Inv.endRun {s : State} (h : s.Inv) (ev : Event) : (s.endRun ev).Inv :=
  { h with
    frames := nofun
    running := fun hr => absurd hr (Event.result_cls_ne ev)
    ended := fun _ => ⟨rfl, ev, rfl⟩
    frameDepth := fun _ _ => Nat.zero_le _ }

theorem State.Inv.setReg {s : State} (h : s.Inv) (a : RegAddr) (v : Word) : (s.setReg a v).Inv :=
  { h with mirror := s.setReg_mirrored a v }

theorem State.Inv.setPage {s : State} (h : s.Inv) (p : PageNo) : (s.setPage p).Inv := { h with }

theorem State.Inv.withInput {s : State} (h : s.Inv) (lines : List (List Scalar)) : { s with input := lines }.Inv :=
  { h with }

theorem State.Inv.emit {s : State} (h : s.Inv) {text : List Scalar} (scalars : ∀ c ∈ text, isScalar c = true) :
    (s.emit text).Inv :=
  { h with output := List.forall_mem_append.2 ⟨h.output, scalars⟩ }

theorem State.Inv.setFunc {s : State} (h : s.Inv) (k : FuncId) {entry : Option Span}
    (within : ∀ sp, entry = some sp → sp.Within s.mem.len) : (s.setFunc k entry).Inv :=
  { h with
    funcs := fun id sp hsp => by
      rw [State.setFunc_func] at hsp
      split at hsp
      · exact within sp hsp
      · exact h.funcs id sp hsp }

theorem State.Inv.pushEntry {s : State} (h : s.Inv) (v : Word) : (s.pushEntry v).Inv := by
  obtain ⟨_, hpush⟩ | ⟨room, hpush⟩ := s.pushEntry_cases v <;> rw [hpush]
  · exact h.endRun _
  · exact { h with stackDepth := (exhausted_eq_false _ _).1 room }

theorem State.Inv.withStackBelow {s : State} (h : s.Inv) {v : Word} {below : List Word}
    (newest : s.stack = v :: below) : { s with stack := below }.Inv :=
  { h with
    stackDepth := fun d hd => by
      have hle := h.stackDepth d hd
      rw [newest] at hle
      exact Nat.le_of_succ_le hle }

theorem State.Inv.good_top {s : State} (h : s.Inv) {f : Frame} {below : List Frame}
    (top : s.frames = f :: below) : f.Good s.mem.len := h.frames f (top ▸ List.mem_cons_self)

theorem State.Inv.good_below {s : State} (h : s.Inv) {f : Frame} {below : List Frame}
    (top : s.frames = f :: below) : ∀ g ∈ below, g.Good s.mem.len := fun g hg =>
  h.frames g (top ▸ List.mem_cons_of_mem f hg)

section Running

variable {s : State} (h : s.Inv) (running : s.res.cls = .running)

include h running

theorem State.Inv.rooted : Rooted s.frames := (h.running running).2

/-- While the run is in progress, the frame stack is all that the frame operations change. -/
theorem State.Inv.withFrames {fs : List Frame} (good : ∀ f ∈ fs, f.Good s.mem.len) (rooted : Rooted fs)
    (depth : ∀ d, s.params.frameDepth = some d → fs.length ≤ d) : { s with frames := fs }.Inv :=
  { h with
    frames := good
    running := fun hr => ⟨(h.running hr).1, rooted⟩
    ended := fun hne => absurd running hne
    frameDepth := depth }

theorem State.Inv.enter {kind : FrameKind} {body : Span} (notRoot : kind ≠ .root) (good : kind.Good s.mem.len body)
    (within : body.Within s.mem.len) : (s.enter kind body).Inv := by
  obtain ⟨_, henter⟩ | ⟨room, henter⟩ := s.enter_cases kind body <;> rw [henter]
  · exact h.endRun _
  · exact h.withFrames running (List.forall_mem_cons.2 ⟨⟨within, le_rfl, within.1, good⟩, h.frames⟩)
      ((h.rooted running).push notRoot) ((exhausted_eq_false _ _).1 room)

variable {f : Frame} {below : List Frame} (top : s.frames = f :: below)

include top

theorem State.Inv.replaceTop {f' : Frame} (good : f'.Good s.mem.len) (kind : f'.kind = .root ↔ f.kind = .root) :
    { s with frames := f' :: below }.Inv :=
  h.withFrames running (List.forall_mem_cons.2 ⟨good, h.good_below top⟩)
    (Rooted.replace (top ▸ h.rooted running) kind)
    (fun d hd => by simpa [top] using h.frameDepth d hd)

theorem State.Inv.popFrame (notRoot : f.kind ≠ .root) : (s.popFrame below).Inv :=
  h.withFrames running (h.good_below top) (Rooted.pop (top ▸ h.rooted running) notRoot)
    (fun d hd => by
      have hle := h.frameDepth d hd
      rw [top] at hle
      exact Nat.le_of_succ_le hle)

theorem State.Inv.restart {kind : FrameKind} (notRoot : kind ≠ .root) (wasNotRoot : f.kind ≠ .root)
    (good : kind.Good s.mem.len f.body) : (s.restart f kind below).Inv := by
  obtain ⟨within, _, _, _⟩ := h.good_top top
  exact h.replaceTop running top ⟨within, le_rfl, within.1, good⟩ (iff_of_false notRoot wasNotRoot)

theorem State.Inv.moveTo {pc : Nat} (start : f.body.start ≤ pc) (stop : pc ≤ f.body.stop) : (s.moveTo pc).Inv := by
  obtain ⟨within, _, _, good⟩ := h.good_top top
  have hmove : s.moveTo pc = { s with frames := { f with pc := pc } :: below } := by simp [State.moveTo, top]
  exact hmove ▸ h.replaceTop running top ⟨within, start, stop, good⟩ Iff.rfl

theorem State.Inv.advance {n : Nat} (fits : f.pc + n ≤ f.body.stop) : (s.advance n).Inv := by
  obtain ⟨_, start, _, _⟩ := h.good_top top
  have hadvance : s.advance n = s.moveTo (f.pc + n) := by simp [State.moveTo, State.advance, top]
  exact hadvance ▸ h.moveTo running top (Nat.le_add_right_of_le start) fits

end Running

/-- R106: a frame's end keeps the invariant; a count only falls to 1, and an index only rises to its bound. -/
theorem State.Inv.frameEnd {s t : State} (h : s.Inv) (running : s.res.cls = .running) (hend : s.frameEnd = .next t) :
    t.Inv := by
  obtain ⟨f, below, top, hcase⟩ := State.frameEnd_cases hend
  obtain ⟨_, _, _, good⟩ := h.good_top top
  cases hcase with
  | endOfStream _ result => exact result ▸ h.endRun _
  | pop kind result => exact result ▸ h.popFrame running top kind
  | again k kind more result =>
    rw [kind] at good
    obtain ⟨_, bound⟩ := good
    exact result ▸ h.restart running top nofun (by simp [kind]) ⟨by omega, by omega⟩
  | next a i n kind more result =>
    rw [kind] at good
    obtain ⟨_, _, bound⟩ := good
    exact result ▸ (h.restart running top (kind := .counts a (i + 1) n) nofun (by simp [kind])
      ⟨by omega, by omega, bound⟩).setReg a _
  | loop a1 c a2 kind _ result => exact result ▸ h.restart running top nofun (by simp [kind]) trivial

theorem BodyCase.inv {i : Instr} {u t : State} {body : Span} (h : u.Inv) (running : u.res.cls = .running)
    (within : body.Within u.mem.len) (hcase : BodyCase i u body t) : t.Inv := by
  cases hcase with
  | skips result => exact result ▸ h
  | defines k _ result => exact result ▸ h.setFunc k fun _ hsp => Option.some.inj hsp ▸ within
  | enters kind notRoot good result => exact result ▸ h.enter running notRoot (good _) within
  | counts a n atLeastOne bound result =>
    exact result ▸ (h.setReg a _).enter running (kind := .counts a 1 n) nofun ⟨le_rfl, atLeastOne, bound⟩ within

theorem exec_inv {i : Instr} {s t : State} {f : Frame} {below : List Frame} (h : s.Inv)
    (running : s.res.cls = .running) (top : s.frames = f :: below) (fits : f.pc + i.width ≤ f.body.stop)
    (hexec : exec i s = .next t) : t.Inv := by
  have moved : (s.advance i.width).Inv := h.advance running top fits
  cases exec_cases hexec with
  | waits _ result => exact result ▸ h
  | moves result => exact result ▸ moved
  | writes a v result => exact result ▸ moved.setReg a v
  | ends ev _ result => exact result ▸ h.endRun ev
  | turnsPage p _ result => exact result ▸ moved.setPage p
  | pushes a _ result => exact result ▸ moved.pushEntry _
  | pops a v w _ _ newest result => exact result ▸ ((h.withStackBelow newest).advance running top fits).setReg a w
  | emits text scalars result => exact result ▸ moved.emit scalars
  | undefines k _ result => exact result ▸ moved.setFunc k nofun
  | calls k body stored result => exact result ▸ moved.enter running nofun trivial (h.funcs k body stored)
  | rejectsLine _ _ later _ _ result => exact result ▸ (h.withInput later).endRun _
  | takesLine a v _ later _ _ result => exact result ▸ ((h.withInput later).advance running top fits).setReg a v
  | block f' below' body htop captured act =>
    obtain ⟨rfl, rfl⟩ := List.cons.inj (top.symm.trans htop)
    obtain ⟨hstart, hbody, hstop⟩ := State.capture_bounds captured
    obtain ⟨⟨_, hlen⟩, start, _, _⟩ := h.good_top top
    exact act.inv (h.moveTo running top (by omega) hstop) running
      ⟨by omega, show body.stop ≤ s.mem.len by omega⟩
  | endsFrame _ result => exact moved.frameEnd running result

theorem step_inv {s t : State} (h : s.Inv) (hstep : step s = .next t) : t.Inv := by
  cases step_cases hstep with
  | ended _ result => exact result ▸ h
  | frameEnd running result => exact h.frameEnd running result
  | unexpectedEnd _ result => exact result ▸ h.endRun _
  | instruction f below i rest running top fetched result =>
    exact exec_inv h running top (State.decode_remaining_fits fetched) result

/-- Settles O45: a running good state has its root frame, so a step has a next state, and that state is good. -/
theorem everyStepKeepsTheInvariant : Obligations.EveryStepKeepsTheInvariant := by
  intro s h
  obtain ⟨t, hstep⟩ := step_next fun running => List.exists_cons_of_ne_nil (h.rooted running).ne_nil
  exact ⟨t, hstep, step_inv h hstep⟩

end Sys2Proof.Machine
end

section
/-! What the encoder writes, the decoder reads back (R82, R83), so that no instruction that is cut short decodes
(R56, R100). -/

namespace Sys2Proof

/-- The direction of `bind_eq_ok` that runs a sequence of reads, one read at a time. -/
theorem bind_of_ok {α β : Type} {x : Except DecodeError α} {next : α → Except DecodeError β} {a : α} {b : β}
    (read : x = .ok a) (others : next a = .ok b) : (x >>= next) = .ok b :=
  bind_eq_ok.mpr ⟨a, read, others⟩

/-! ## The shared parts of the decoder, on the fields that the encoder writes -/

theorem decodeOneField_fieldBits (mk : BitVec 4 → Instr) (a : BitVec 4) (rest : Bits) :
    decodeOneField mk (fieldBits a ++ rest) = .ok (mk a, rest) :=
  bind_of_ok (readField_fieldBits a rest) rfl

theorem decodeTwoRegisters_fieldBits (mk : RegAddr → RegAddr → Instr) (a1 a2 : RegAddr) (rest : Bits) :
    decodeTwoRegisters mk (fieldBits a1 ++ (fieldBits a2 ++ rest)) = .ok (mk a1 a2, rest) :=
  bind_of_ok (readField_fieldBits a1 _) (bind_of_ok (readField_fieldBits a2 rest) rfl)

theorem decodeCondHeader_fieldBits (mk : RegAddr → Cond → RegAddr → Instr) (a1 : RegAddr) (c : Cond) (a2 : RegAddr)
    (rest : Bits) :
    decodeCondHeader mk (fieldBits a1 ++ (bitsOf 2 c.code ++ (fieldBits a2 ++ rest))) = .ok (mk a1 c a2, rest) :=
  bind_of_ok (readField_fieldBits a1 _) <| bind_of_ok (readCond_code c _) <|
    bind_of_ok (readField_fieldBits a2 rest) rfl

/-- The 16-bit field holds the payload's count without loss (R84). -/
theorem decodeLiteralPrint_payload {payload : List Byte} (short : payload.length ≤ 65535) (rest : Bits) :
    decodeLiteralPrint (bitsOf 16 payload.length ++ (payload.flatMap fieldBits ++ rest)) =
      .ok (.dpm payload, rest) := by
  have count := readBits_bitsOf 16 payload.length (payload.flatMap fieldBits ++ rest)
  rw [Nat.mod_eq_of_lt (by omega)] at count
  exact bind_of_ok count (bind_of_ok (readBytes_flatMap payload rest) rfl)

/-! ## Every instruction -/

/-- R82, R83. The tag and the selectors are numbers, so the decoder computes its way (each `rfl`) to the operands;
one case for each form of operands. -/
theorem decode_encode {i : Instr} (h : i.wf = true) (rest : Bits) : decode (encode i ++ rest) = .ok (i, rest) := by
  cases i with
  | nop | blockEnd | halt | fail => rfl
  | page p => exact bind_of_ok rfl (bind_of_ok (readField_fieldBits p rest) rfl)
  | inc a | dec a | clr a | rst a | push a | pop a | mres6 a | mres7 a | plit a =>
    exact bind_of_ok rfl (bind_of_ok rfl (bind_of_ok (readField_fieldBits a rest) rfl))
  | pchr a | pdec a | phex a | repeatBlock a | funcDef a | funcUndef a | call a | inHex a | inDec a =>
    exact decodeOneField_fieldBits _ a rest
  | add a1 a2 | sub a1 a2 | mul a1 a2 | div a1 a2 | mov a1 a2 | pow a1 a2 | root a1 a2 =>
    exact decodeTwoRegisters_fieldBits _ a1 a2 rest
  | ldi8 d v | ldi16 d v | ldi24 d v | ldi32 d v | forImm d v | forReg d v =>
    exact bind_of_ok rfl <| bind_of_ok rfl <| bind_of_ok rfl <|
      bind_of_ok (readField_fieldBits d (fieldBits v ++ rest)) <| bind_of_ok (readField_fieldBits v rest) rfl
  | ifBlock a1 c a2 | whileBlock a1 c a2 => exact decodeCondHeader_fieldBits _ a1 c a2 rest
  | dpm payload =>
    rw [encode, List.append_assoc, List.append_assoc]
    exact decodeLiteralPrint_payload (of_decide_eq_true h) rest

/-- No encoding is the front of a longer one: the instruction decoded from the front would be decoded again, with
bits left over, from the whole. -/
theorem eq_nil_of_encode_append_eq_encode {i j : Instr} {rest : Bits} (hi : i.wf = true) (hj : j.wf = true)
    (h : encode j ++ rest = encode i) : rest = [] := by
  have whole := decode_encode hi []
  rw [List.append_nil, ← h, decode_encode hj] at whole
  exact (Prod.mk.inj (Except.ok.inj whole)).2

/-- R56, R100: an encoding that is cut short holds no whole instruction. -/
theorem decode_take_encode {i : Instr} {k : Nat} (h : i.wf = true) (cut : k < (encode i).length) :
    decode ((encode i).take k) = .error .unexpectedEnd := by
  cases hdec : decode ((encode i).take k) with
  | error e => rfl
  | ok p =>
    obtain ⟨j, rest⟩ := p
    obtain ⟨hj, hfront⟩ := decode_ok hdec
    have whole : encode j ++ (rest ++ (encode i).drop k) = encode i := by
      rw [← List.append_assoc, ← hfront, List.take_append_drop]
    have nothingLeft := (List.append_eq_nil_iff.mp (eq_nil_of_encode_append_eq_encode h hj whole)).2
    exact absurd (List.drop_eq_nil_iff.mp nothingLeft) (Nat.not_le.mpr cut)

/-- Settles O3: what is left, if it decoded, would begin with a whole instruction, and no encoding is the front of a
longer one. -/
theorem truncatedInstructionIsUnexpectedEnd : Obligations.TruncatedInstructionIsUnexpectedEnd :=
  fun _ _ wf cut => decode_take_encode wf cut

end Sys2Proof
end

section
/-! Images as the host supplies them: how they read (R51, R52), and that the model's one form is a normal form. -/

namespace Sys2Proof.Machine

/-! ## Bits, bytes and fields -/

/-- R51: bit `t` of byte `j` of the image, counted from the byte's most significant bit. -/
theorem Memory.bitAt_byte (m : Memory) (j : Nat) {t : Nat} (ht : t < 8) :
    m.bitAt (8 * j + t) = (byteAt m.cells j).getLsbD (7 - t) := by
  rw [Memory.bitAt, show (8 * j + t) / 8 = j by omega, show (8 * j + t) % 8 = t by omega]

theorem Memory.ofBytes_bitAt {bytes : List Byte} {j t : Nat} {b : Byte} (hb : bytes[j]? = some b) (ht : t < 8) :
    (Memory.ofBytes bytes).bitAt (8 * j + t) = b.getLsbD (7 - t) := by
  rw [Memory.bitAt_byte _ j ht, Memory.ofBytes, byteAt_cellsFrom, if_neg (Nat.not_lt_zero j), Nat.sub_zero, hb,
    Option.getD_some]

/-- R52: each further bit doubles the weight of those in front of it. -/
theorem Memory.read_eq_sum (m : Memory) (a n : Nat) :
    m.read a n = ((List.range n).map fun t => (m.bitAt (a + t)).toNat * 2 ^ (n - 1 - t)).sum := by
  induction n with
  | zero => rfl
  | succ n ih =>
    have doubled : ∀ t ∈ List.range n, (m.bitAt (a + t)).toNat * 2 ^ (n + 1 - 1 - t) =
        2 * ((m.bitAt (a + t)).toNat * 2 ^ (n - 1 - t)) := by
      intro t ht
      have := List.mem_range.mp ht
      rw [show n + 1 - 1 - t = n - 1 - t + 1 by omega, pow_succ']
      ring
    rw [List.sum_range_succ, List.map_congr_left doubled, List.sum_map_mul_left, ← ih, Memory.read]
    simp

/-- Settles O6, by the bytes that an image's cells list and by induction on the field's width. -/
theorem imageReadsAsItWasSupplied : Obligations.ImageReadsAsItWasSupplied := by
  refine ⟨fun bytes => ⟨rfl, fun j b t hb ht => Memory.ofBytes_bitAt hb ht⟩, fun bits => ⟨rfl, fun j b hb => ?_⟩,
    Memory.read_eq_sum⟩
  obtain ⟨hj, rfl⟩ := List.getElem?_eq_some_iff.mp hb
  rw [Memory.ofBits_bitAt bits j hj, List.getD_eq_getElem _ _ hj]

/-! ## Cells in the one form -/

theorem mem_of_byteAt_ne_zero {cells : List Host.Cell} {j : Nat} (h : byteAt cells j ≠ 0) :
    (j, byteAt cells j) ∈ cells := by
  induction cells with
  | nil => exact absurd rfl h
  | cons c cells ih =>
    rw [byteAt] at h ⊢
    split at h
    next here => rw [if_pos here, ← here]; exact List.mem_cons_self
    next elsewhere => rw [if_neg elsewhere]; exact List.mem_cons_of_mem c (ih h)

/-- With rising addresses, no cell hides a later one. -/
theorem byteAt_of_mem {cells : List Host.Cell} (rising : cells.Pairwise fun c d => c.1 < d.1) {c : Host.Cell}
    (hc : c ∈ cells) : byteAt cells c.1 = c.2 := by
  induction rising with
  | nil => cases hc
  | @cons d cells first _ ih =>
    rcases List.mem_cons.mp hc with rfl | later
    · exact if_pos rfl
    · rw [byteAt, if_neg (first c later).ne, ih later]

theorem mem_iff_byteAt {cells : List Host.Cell} (rising : cells.Pairwise fun c d => c.1 < d.1)
    (nonzero : ∀ c ∈ cells, c.2 ≠ 0) (c : Host.Cell) : c ∈ cells ↔ c.2 ≠ 0 ∧ byteAt cells c.1 = c.2 := by
  constructor
  · exact fun hc => ⟨nonzero c hc, byteAt_of_mem rising hc⟩
  · rintro ⟨hne, hbyte⟩
    rw [← hbyte] at hne
    simpa [hbyte] using mem_of_byteAt_ne_zero hne

/-- Cells in rising order without zero bytes are determined by the bytes they hold. -/
theorem cells_eq_of_byteAt_eq {cells cells' : List Host.Cell} (rising : cells.Pairwise fun c d => c.1 < d.1)
    (nonzero : ∀ c ∈ cells, c.2 ≠ 0) (rising' : cells'.Pairwise fun c d => c.1 < d.1)
    (nonzero' : ∀ c ∈ cells', c.2 ≠ 0) (same : ∀ j, byteAt cells j = byteAt cells' j) : cells = cells' := by
  have mem (c : Host.Cell) : c ∈ cells ↔ c ∈ cells' := by
    rw [mem_iff_byteAt rising nonzero, mem_iff_byteAt rising' nonzero', same]
  have distinct {l : List Host.Cell} (h : l.Pairwise fun c d => c.1 < d.1) : l.Nodup :=
    h.imp fun lt eq => lt.ne (congrArg Prod.fst eq)
  exact ((List.perm_ext_iff_of_nodup (distinct rising) (distinct rising')).mpr mem).eq_of_pairwise
    (fun c d _ _ lt gt => absurd lt gt.asymm) rising rising'

/-! ## Images in the one form -/

/-- In the one form every bit past the end reads as zero (assumption 2). -/
theorem Memory.wf.bitAt_eq_false {m : Memory} (h : m.wf) {a : Nat} (past : m.len ≤ a) : m.bitAt a = false := by
  obtain ⟨_, _, within⟩ := h
  by_contra notFalse
  have bit : (byteAt m.cells (a / 8)).getLsbD (7 - a % 8) = true := Bool.eq_true_of_not_eq_false notFalse
  have nonzero : byteAt m.cells (a / 8) ≠ 0 := fun zero => by simp [zero] at bit
  have : 8 * (a / 8) + a % 8 < m.len := within _ (mem_of_byteAt_ne_zero nonzero) (a % 8) (by omega) bit
  omega

theorem Memory.byteAt_eq_of_bitAt_eq {m m' : Memory} (h : ∀ a, m.bitAt a = m'.bitAt a) (j : Nat) :
    byteAt m.cells j = byteAt m'.cells j := by
  refine BitVec.eq_of_getLsbD_eq fun i hi => ?_
  have bit := h (8 * j + (7 - i))
  rwa [Memory.bitAt_byte m j (by omega), Memory.bitAt_byte m' j (by omega), show 7 - (7 - i) = i by omega] at bit

/-- Images of the one form with the same length and the same bits are the same data. -/
theorem Memory.wf.eq_of_bitAt_eq {m m' : Memory} (h : m.wf) (h' : m'.wf) (len : m.len = m'.len)
    (bits : ∀ a < m.len, m.bitAt a = m'.bitAt a) : m = m' := by
  have everywhere (a : Nat) : m.bitAt a = m'.bitAt a := by
    rcases Nat.lt_or_ge a m.len with inside | past
    · exact bits a inside
    · rw [h.bitAt_eq_false past, h'.bitAt_eq_false (len ▸ past)]
  obtain ⟨rising, nonzero, _⟩ := h
  obtain ⟨rising', nonzero', _⟩ := h'
  have cells := cells_eq_of_byteAt_eq rising nonzero rising' nonzero' (Memory.byteAt_eq_of_bitAt_eq everywhere)
  cases m
  cases m'
  exact congrArg₂ Memory.mk len cells

/-- Settles O57: past their length two images of the one form both read as zero, so their bits agree everywhere. -/
theorem suppliedImagesHaveTheOneForm : Obligations.SuppliedImagesHaveTheOneForm :=
  ⟨Memory.ofBytes_wf, Memory.ofBits_wf, fun _ _ h h' => h.eq_of_bitAt_eq h'⟩

end Sys2Proof.Machine
end

section
/-! The decoder and the encoder are inverse to each other (R82, R83), and the decoder refuses no bits that are long
enough (R86). -/

namespace Sys2Proof

/-! ## Round trips -/

/-- Settles O1, by the round trip of each form of operands. -/
theorem decodeEncodeGivesTheInstructionBack : Obligations.DecodeEncodeGivesTheInstructionBack :=
  fun _ rest wf => decode_encode wf rest

/-- Settles O2, by what each class's decoder has read when it succeeds. -/
theorem decodedBitsAreTheEncoding : Obligations.DecodedBitsAreTheEncoding := by
  intro bs i rest h
  obtain ⟨wf, bits⟩ := decode_ok h
  exact ⟨wf, bits, decode_length h⟩

/-- A word that the encoder writes decodes, with no bit left over. -/
theorem decode_of_encode_eq {i : Instr} {word : Bits} (wf : i.wf = true) (written : encode i = word) :
    decode word = .ok (i, []) := by
  rw [← written, ← List.append_nil (encode i), decode_encode wf]

/-- Settles O5: the encoder, evaluated at each of the instructions, writes the word of the opcode map (each last
`rfl`). -/
theorem wordsOfEachClassDecode : Obligations.WordsOfEachClassDecode :=
  ⟨decode_of_encode_eq rfl rfl, decode_of_encode_eq rfl rfl, decode_of_encode_eq rfl rfl,
    decode_of_encode_eq rfl rfl, decode_of_encode_eq rfl rfl, decode_of_encode_eq rfl rfl,
    decode_of_encode_eq rfl rfl, decode_of_encode_eq rfl rfl, decode_of_encode_eq rfl rfl⟩

/-! ## Reads that cannot fail -/

/-- A read, or a sequence of reads, gives a value and the bits after it. -/
def Succeeds {α : Type} (x : Except DecodeError (α × Bits)) : Prop := ∃ a rest, x = .ok (a, rest)

theorem succeeds_bind {α β : Type} {x : Except DecodeError (α × Bits)}
    {next : α × Bits → Except DecodeError (β × Bits)} {a : α} {rest : Bits} (read : x = .ok (a, rest))
    (others : Succeeds (next (a, rest))) : Succeeds (x >>= next) := by
  obtain ⟨b, rest', h⟩ := others
  exact ⟨b, rest', bind_of_ok read h⟩

/-- A number is read when its `n` bits are left; it is below `2 ^ n`, so a selector has no further case (R86). -/
theorem succeeds_readBits_bind {α : Type} {n : Nat} {bs : Bits}
    {next : Nat × Bits → Except DecodeError (α × Bits)} (enough : n ≤ bs.length)
    (others : ∀ v < 2 ^ n, ∀ rest : Bits, bs.length = n + rest.length → Succeeds (next (v, rest))) :
    Succeeds (readBits n bs >>= next) := by
  obtain ⟨v, rest, read, len, bound⟩ := readBits_total enough
  exact succeeds_bind read (others v bound rest len)

/-- An operand field is read when its `n` bits are left, whatever they are (R86). -/
theorem succeeds_readField_bind {α : Type} {n : Nat} {bs : Bits}
    {next : BitVec n × Bits → Except DecodeError (α × Bits)} (enough : n ≤ bs.length)
    (others : ∀ (v : BitVec n) (rest : Bits), bs.length = n + rest.length → Succeeds (next (v, rest))) :
    Succeeds (readField n bs >>= next) := by
  obtain ⟨v, rest, read, len, -⟩ := readBits_total enough
  have field : readField n bs = .ok (BitVec.ofNat n v, rest) := by rw [readField, read]
  exact succeeds_bind field (others _ rest len)

/-- Each of the four values of the condition field is a condition (R79). -/
theorem succeeds_readCond_bind {α : Type} {bs : Bits} {next : Cond × Bits → Except DecodeError (α × Bits)}
    (enough : 2 ≤ bs.length)
    (others : ∀ (c : Cond) (rest : Bits), bs.length = 2 + rest.length → Succeeds (next (c, rest))) :
    Succeeds (readCond bs >>= next) := by
  have cond : Succeeds (readCond bs) := succeeds_readBits_bind enough fun v hv rest _ => by
    interval_cases v <;> exact ⟨_, rest, rfl⟩
  obtain ⟨c, rest, read⟩ := cond
  have len : bs.length = 2 + rest.length := by rw [readCond_ok read, List.length_append, bitsOf_length]
  exact succeeds_bind read (others c rest len)

theorem succeeds_readBytes {k : Nat} {bs : Bits} (enough : 8 * k ≤ bs.length) : Succeeds (readBytes k bs) := by
  induction k generalizing bs with
  | zero => exact ⟨_, bs, rfl⟩
  | succ k ih =>
    refine succeeds_readField_bind (by omega) fun _ rest _ => ?_
    obtain ⟨payload, rest', hpayload⟩ := ih (bs := rest) (by omega)
    exact succeeds_bind hpayload ⟨_, rest', rfl⟩

/-! ## Every class decodes when its longest form fits -/

theorem decodeOneField_succeeds (mk : BitVec 4 → Instr) {bs : Bits} (enough : 4 ≤ bs.length) :
    Succeeds (decodeOneField mk bs) :=
  succeeds_readField_bind enough fun _ rest _ => ⟨_, rest, rfl⟩

theorem decodeTwoRegisters_succeeds (mk : RegAddr → RegAddr → Instr) {bs : Bits} (enough : 8 ≤ bs.length) :
    Succeeds (decodeTwoRegisters mk bs) :=
  succeeds_readField_bind (by omega) fun _ _ _ => succeeds_readField_bind (by omega) fun _ rest _ => ⟨_, rest, rfl⟩

theorem decodeCondHeader_succeeds (mk : RegAddr → Cond → RegAddr → Instr) {bs : Bits} (enough : 10 ≤ bs.length) :
    Succeeds (decodeCondHeader mk bs) :=
  succeeds_readField_bind (by omega) fun _ _ _ => succeeds_readCond_bind (by omega) fun _ _ _ =>
    succeeds_readField_bind (by omega) fun _ rest _ => ⟨_, rest, rfl⟩

theorem decodeManipulate_succeeds {bs : Bits} (enough : 7 ≤ bs.length) : Succeeds (decodeManipulate bs) :=
  succeeds_readBits_bind (by omega) fun mode hmode _ _ => succeeds_readField_bind (by omega) fun _ rest _ => by
    interval_cases mode <;> exact ⟨_, rest, rfl⟩

theorem decodePage_succeeds {bs : Bits} (enough : 3 ≤ bs.length) : Succeeds (decodePage bs) :=
  succeeds_readField_bind enough fun _ rest _ => ⟨_, rest, rfl⟩

theorem decodeLoadImmediate_succeeds {bs : Bits} (enough : 38 ≤ bs.length) : Succeeds (decodeLoadImmediate bs) :=
  succeeds_readBits_bind (by omega) fun w hw _ _ => succeeds_readField_bind (by omega) fun _ _ _ => by
    interval_cases w <;> exact succeeds_readField_bind (by omega) fun _ rest _ => ⟨_, rest, rfl⟩

theorem decodeArithmetic_succeeds {bs : Bits} (enough : 41 ≤ bs.length) : Succeeds (decodeArithmetic bs) :=
  succeeds_readBits_bind (by omega) fun mode hmode _ _ => by
    interval_cases mode
    -- goal `k + 1` is selector `k`
    on_goal 6 => exact decodeLoadImmediate_succeeds (by omega)
    all_goals exact decodeTwoRegisters_succeeds _ (by omega)

theorem decodeDisplay_succeeds {bs : Bits} (enough : 10 ≤ bs.length) : Succeeds (decodeDisplay bs) :=
  succeeds_readBits_bind (by omega) fun mode hmode _ _ => by
    interval_cases mode
    -- goal `k + 1` is selector `k`
    on_goal 4 => exact succeeds_readField_bind (by omega) fun _ rest _ => ⟨_, rest, rfl⟩
    all_goals exact decodeOneField_succeeds _ (by omega)

theorem decodeForHeader_succeeds {bs : Bits} (enough : 13 ≤ bs.length) : Succeeds (decodeForHeader bs) :=
  succeeds_readBits_bind (by omega) fun m hm _ _ => succeeds_readField_bind (by omega) fun _ _ _ => by
    interval_cases m <;> exact succeeds_readField_bind (by omega) fun _ rest _ => ⟨_, rest, rfl⟩

/-- The 16-bit count asks for at most 65535 bytes (R84). -/
theorem decodeLiteralPrint_succeeds {bs : Bits} (enough : 16 + 8 * 65535 ≤ bs.length) :
    Succeeds (decodeLiteralPrint bs) :=
  succeeds_readBits_bind (by omega) fun len hlen r _ => by
    obtain ⟨payload, rest, hpayload⟩ := succeeds_readBytes (k := len) (bs := r) (by omega)
    exact succeeds_bind hpayload ⟨_, rest, rfl⟩

theorem decodeBlock_succeeds {bs : Bits} (enough : 19 + 8 * 65535 ≤ bs.length) : Succeeds (decodeBlock bs) :=
  succeeds_readBits_bind (by omega) fun st hst _ _ => by
    interval_cases st
    -- goal `k + 1` is sub-type `k`; taken from the last on, so that none moves up
    on_goal 8 => exact decodeLiteralPrint_succeeds (by omega)
    on_goal 7 => exact decodeCondHeader_succeeds _ (by omega)
    on_goal 6 => exact decodeForHeader_succeeds (by omega)
    on_goal 1 => exact decodeCondHeader_succeeds _ (by omega)
    all_goals exact decodeOneField_succeeds _ (by omega)

theorem decodeIo_succeeds {bs : Bits} (enough : 6 ≤ bs.length) : Succeeds (decodeIo bs) :=
  succeeds_readBits_bind (by omega) fun s hs rest _ => by
    interval_cases s
    · exact ⟨_, rest, rfl⟩
    · exact ⟨_, rest, rfl⟩
    all_goals exact decodeOneField_succeeds _ (by omega)

theorem decode_succeeds {bs : Bits} (enough : 22 + 8 * 65535 ≤ bs.length) : Succeeds (decode bs) :=
  succeeds_readBits_bind (by omega) fun tag htag rest _ => by
    interval_cases tag
    · exact ⟨_, rest, rfl⟩
    · exact decodeManipulate_succeeds (by omega)
    · exact decodePage_succeeds (by omega)
    · exact decodeArithmetic_succeeds (by omega)
    · exact decodeDisplay_succeeds (by omega)
    · exact decodeBlock_succeeds (by omega)
    · exact ⟨_, rest, rfl⟩
    · exact decodeIo_succeeds (by omega)

/-- Settles O4: no selector value is undefined, and the bits suffice for the longest form of every class. -/
theorem everyBitPatternDecodes : Obligations.EveryBitPatternDecodes :=
  fun _ enough => decode_succeeds enough

end Sys2Proof
end

section
/-! The next step, said once for each way a run goes on (R102, R103, R106), and what NOP is (R109). -/

namespace Sys2Proof.Machine

/-! ## The statements' terms, for the operations that meet them -/

/-- R238, R239: the event's result is recorded, the frames are gone, and nothing else is touched. -/
theorem State.endRun_ended (s : State) (ev : Event) : Ended ev.result.cls ev.result.code s (s.endRun ev) :=
  ⟨rfl, rfl, rfl, rfl, rfl, rfl, rfl, ⟨rfl, fun _ => rfl⟩, rfl, rfl⟩

theorem State.advance_sameState (s : State) (n : Nat) : SameState n s (s.advance n) :=
  ⟨rfl, rfl, rfl, rfl, rfl, rfl, rfl, ⟨rfl, fun _ => rfl⟩, rfl, rfl⟩

theorem State.setReg_writesRegister (s : State) (a : RegAddr) (v : Word) : WritesRegister s (s.setReg a v) a v :=
  s.setReg_regAt a v

theorem State.setReg_sameButRegisters (s : State) (a : RegAddr) (v : Word) : SameButRegisters 0 s (s.setReg a v) := by
  simp [SameButRegisters, SameImage]

theorem condHolds_iff_comparison (c : Cond) (u v : Word) :
    condHolds c u v = true ↔ Comparison c u.toNat v.toNat := by
  cases c <;> exact condHolds_iff _ u v

/-- R82, R100: the word that the encoder writes is the instruction's encoding. -/
theorem encodedAs_of_encode_eq {i : Instr} {row : Bits} (wf : i.wf = true) (written : encode i = row) :
    EncodedAs row i := by
  subst written
  exact ⟨decode_encode wf, fun _ cut => decode_take_encode wf cut⟩

/-- Settles O7: NOP is the tag 000, and its meaning is the advance alone. -/
theorem nopOnlyAdvancesThePc : Obligations.NopOnlyAdvancesThePc := fun s =>
  ⟨encodedAs_of_encode_eq rfl rfl, s.advance 3, rfl, s.advance_sameState 3⟩

/-! ## The end of a frame, by its kind (R106) -/

section FrameEnd

variable {s : State} {f : Frame} {below : List Frame} (top : s.frames = f :: below)

include top

theorem State.frameEnd_root (kind : f.kind = .root) : s.frameEnd = .next (s.endRun .endOfStream) := by
  simp only [State.frameEnd, top, kind]

theorem State.frameEnd_once (kind : f.kind = .once) : s.frameEnd = .next (s.popFrame below) := by
  simp only [State.frameEnd, top, kind]

theorem State.frameEnd_call (kind : f.kind = .call) : s.frameEnd = .next (s.popFrame below) := by
  simp only [State.frameEnd, top, kind]

theorem State.frameEnd_repeats_again {k : Nat} (kind : f.kind = .repeats k) (more : 1 < k) :
    s.frameEnd = .next (s.restart f (.repeats (k - 1)) below) := by
  simp only [State.frameEnd, top, kind, if_pos more]

theorem State.frameEnd_repeats_last {k : Nat} (kind : f.kind = .repeats k) (last : k ≤ 1) :
    s.frameEnd = .next (s.popFrame below) := by
  simp only [State.frameEnd, top, kind, if_neg (Nat.not_lt.mpr last)]

theorem State.frameEnd_counts_next {a : RegAddr} {i n : Nat} (kind : f.kind = .counts a i n) (more : i < n) :
    s.frameEnd = .next ((s.restart f (.counts a (i + 1) n) below).setReg a (toWord (i + 1))) := by
  simp only [State.frameEnd, top, kind, if_pos more]

theorem State.frameEnd_counts_last {a : RegAddr} {i n : Nat} (kind : f.kind = .counts a i n) (last : n ≤ i) :
    s.frameEnd = .next (s.popFrame below) := by
  simp only [State.frameEnd, top, kind, if_neg (Nat.not_lt.mpr last)]

theorem State.frameEnd_loops_again {a1 a2 : RegAddr} {c : Cond} (kind : f.kind = .loops a1 c a2)
    (holds : Comparison c (s.reg a1).toNat (s.reg a2).toNat) :
    s.frameEnd = .next (s.restart f f.kind below) := by
  simp only [State.frameEnd, top, kind, if_pos ((condHolds_iff_comparison ..).mpr holds)]

theorem State.frameEnd_loops_last {a1 a2 : RegAddr} {c : Cond} (kind : f.kind = .loops a1 c a2)
    (fails : ¬ Comparison c (s.reg a1).toNat (s.reg a2).toNat) :
    s.frameEnd = .next (s.popFrame below) := by
  simp only [State.frameEnd, top, kind, if_neg (mt (condHolds_iff_comparison ..).mp fails)]

end FrameEnd

/-! ## The tail rule (R103) -/

/-- What the tail rule peeks at is the field of all the bits that the frame has left (R52, R101). -/
theorem State.peekBits_remaining (s : State) (f : Frame) :
    peekBits (f.body.stop - f.pc) (s.remaining f) = .ok (s.mem.read f.pc (f.body.stop - f.pc)) := by
  have read := s.mem.readBits_bits f.pc (f.body.stop - f.pc) 0
  rw [Nat.add_zero] at read
  rw [peekBits, State.remaining, read]

theorem State.tail_eq (s : State) (f : Frame) :
    s.tail f =
      if s.params.tailPolicy = .zeroPad ∧ f.kind = .root ∧ s.mem.read f.pc (f.body.stop - f.pc) = 0 then s.frameEnd
      else .next (s.endRun .unexpectedEnd) := by
  simp only [State.tail, State.peekBits_remaining, Except.ok.injEq]

/-! ## The step of a run in progress, by how many bits the frame has left (R102) -/

section Step

variable {s : State} {f : Frame} {below : List Frame} (running : s.res.cls = .running) (top : s.frames = f :: below)

include running top

theorem step_of_none_left (noneLeft : f.body.stop - f.pc = 0) : step s = s.frameEnd := by
  simp only [step, State.fetch, running, top, if_pos noneLeft]

theorem step_of_tail_left (someLeft : f.body.stop - f.pc ≠ 0) (few : f.body.stop - f.pc < 3) : step s = s.tail f := by
  simp only [step, State.fetch, running, top, if_neg someLeft, if_pos few]

theorem step_of_decode_error (enough : 3 ≤ f.body.stop - f.pc)
    (fails : decode (s.remaining f) = .error .unexpectedEnd) : step s = .next (s.endRun .unexpectedEnd) := by
  simp only [step, State.fetch, running, top, fails, if_neg (Nat.ne_of_gt (Nat.zero_lt_of_lt enough)),
    if_neg (Nat.not_lt.mpr enough)]

/-- Bits that decode are at least a tag's 3, so neither the frame's end nor the tail rule is due. -/
theorem step_of_decode {i : Instr} {rest : Bits} (fetched : decode (s.remaining f) = .ok (i, rest)) :
    step s = exec i s := by
  have fits := State.decode_remaining_fits fetched
  have tag := i.three_le_width
  have enough : ¬ f.body.stop - f.pc < 3 := by omega
  have someLeft : f.body.stop - f.pc ≠ 0 := by omega
  simp only [step, State.fetch, running, top, fetched, if_neg someLeft, if_neg enough]

end Step

/-- Settles O39: the step of 3 bits or more, decoded or not; what decodes is well-formed. -/
theorem stepRunsTheDecodedInstruction : Obligations.StepRunsTheDecodedInstruction := by
  intro s f below running top
  refine ⟨fun i rest fetched => ?_, fun enough fails => ?_⟩
  · obtain ⟨wf, _⟩ := decode_ok fetched
    exact ⟨wf, step_of_decode running top fetched⟩
  · exact ⟨_, step_of_decode_error running top enough fails, s.endRun_ended .unexpectedEnd⟩

/-- Settles O40: with no bits left the step is the frame's end, which has one equation for each clause. -/
theorem frameEndFollowsTheKind : Obligations.FrameEndFollowsTheKind := by
  intro s f below running top atEnd
  rw [step_of_none_left running top (by omega)]
  refine ⟨fun kind => ⟨_, State.frameEnd_root top kind, s.endRun_ended .endOfStream, rfl⟩,
    State.frameEnd_once top, State.frameEnd_call top,
    fun _ => State.frameEnd_repeats_again top, fun _ => State.frameEnd_repeats_last top,
    fun a _ _ kind more => ?_, fun _ _ _ => State.frameEnd_counts_last top,
    fun _ _ _ => State.frameEnd_loops_again top, fun _ _ _ => State.frameEnd_loops_last top⟩
  exact ⟨_, State.frameEnd_counts_next top kind more, State.setReg_writesRegister _ a _,
    State.setReg_sameButRegisters _ a _⟩

/-- Settles O41: the tail rule's test is the padding clause's hypothesis, and each alternative of the fault clause
breaks it. -/
theorem tailRuleAcceptsZeroPaddingOfTheRootFrame : Obligations.TailRuleAcceptsZeroPaddingOfTheRootFrame := by
  intro s f below rem running top stop atLeastOne atMostTwo
  have left : f.body.stop - f.pc = rem := by omega
  rw [step_of_tail_left running top (by omega) (by omega), State.tail_eq, left]
  refine ⟨fun padding => ?_, fun broken => ?_⟩
  · have ⟨_, root, _⟩ := padding
    rw [if_pos padding]
    exact ⟨_, State.frameEnd_root top root, s.endRun_ended .endOfStream⟩
  · rw [if_neg]
    · exact ⟨_, rfl, s.endRun_ended .unexpectedEnd⟩
    rintro ⟨zeroPad, root, zero⟩
    rcases broken with strict | body | bitSet
    · cases zeroPad.symm.trans strict
    · exact body root
    · exact bitSet zero

end Sys2Proof.Machine
end

section
/-! Entering a frame is all that looks at `FRAME_DEPTH` (R107, R234): every instruction beside what it does with an
infinite one. -/

namespace Sys2Proof.Machine

/-! ## The operations with an infinite `FRAME_DEPTH` -/

@[simp] theorem State.withoutFrameDepth_stack (s : State) : s.withoutFrameDepth.stack = s.stack := rfl
@[simp] theorem State.withoutFrameDepth_input (s : State) : s.withoutFrameDepth.input = s.input := rfl

theorem State.withoutFrameDepth_restore {s t : State} (h : t.params = s.params) :
    { t.withoutFrameDepth with params := s.params } = t := by
  rw [← h]
  rfl

/-- R107: with an infinite depth a frame is always entered. -/
theorem State.withoutFrameDepth_enter (s : State) (kind : FrameKind) (body : Span) :
    s.withoutFrameDepth.enter kind body =
      { s.withoutFrameDepth with frames := { pc := body.start, body := body, kind := kind } :: s.frames } := rfl

theorem State.enter_of_room {s : State} (room : FrameRoom s) (kind : FrameKind) (body : Span) :
    s.enter kind body = { s with frames := { pc := body.start, body := body, kind := kind } :: s.frames } := by
  rw [State.enter, (frameRoom_iff s).mp room, if_neg Bool.false_ne_true]

theorem State.enter_of_full {s : State} (full : FrameFull s) (kind : FrameKind) (body : Span) :
    s.enter kind body = s.endRun .framesExhausted := by
  rw [State.enter, full.exhausted, if_pos rfl]

theorem State.withoutFrameDepth_pushEntry (s : State) (v : Word) :
    s.withoutFrameDepth.pushEntry v = (s.pushEntry v).withoutFrameDepth := by
  rw [State.pushEntry, State.pushEntry, apply_ite State.withoutFrameDepth]
  rfl

theorem State.pushEntry_frames_length (s : State) (v : Word) : (s.pushEntry v).frames.length ≤ s.frames.length := by
  obtain ⟨_, h⟩ | ⟨_, h⟩ := s.pushEntry_cases v <;> simp [h]

theorem State.withoutFrameDepth_frameEnd {s t : State} (h : s.frameEnd = .next t) :
    s.withoutFrameDepth.frameEnd = .next t.withoutFrameDepth := by
  unfold State.frameEnd at h ⊢
  rw [State.withoutFrameDepth_frames]
  cases hf : s.frames with
  | nil => simp [hf] at h
  | cons f below =>
    simp only [hf] at h ⊢
    cases hk : f.kind with
    | root | once | call => rw [hk] at h; cases h; rfl
    | repeats | counts | loops =>
      simp only [hk, State.withoutFrameDepth_reg] at h ⊢
      split_ifs at h ⊢ <;> (cases h; rfl)

/-- R106: the end of a frame adds no frame. -/
theorem State.frameEnd_frames_length {s t : State} (h : s.frameEnd = .next t) :
    t.frames.length ≤ s.frames.length := by
  obtain ⟨f, below, top, hcase⟩ := State.frameEnd_cases h
  cases hcase <;> (subst t; simp [top])

/-! ## The two next states of an instruction -/

/-- How the next state `u` with an infinite `FRAME_DEPTH` stands to the next state `t`: no frame is added and they
agree, or both enter the same frame from the same state. -/
inductive DepthCase (s u t : State) : Prop where
  | same (depth : t.frames.length ≤ s.frames.length) (free : u = t.withoutFrameDepth)
  | enters (v : State) (kind : FrameKind) (body : Span) (depth : v.frames.length = s.frames.length)
      (free : u = v.withoutFrameDepth.enter kind body) (result : t = v.enter kind body)

theorem FrameRoom.congr {s v : State} (room : FrameRoom s) (params : v.params = s.params)
    (depth : v.frames.length = s.frames.length) : FrameRoom v := by
  unfold FrameRoom
  rwa [params, depth]

theorem FrameFull.congr {s v : State} (full : FrameFull s) (params : v.params = s.params)
    (depth : v.frames.length = s.frames.length) : FrameFull v := by
  unfold FrameFull
  rwa [params, depth]

/-- R107: a depth that is not reached is not seen. -/
theorem DepthCase.eq_of_room {s u t : State} (h : DepthCase s u t) (params : t.params = s.params)
    (room : u.frames.length ≤ s.frames.length ∨ FrameRoom s) : t = { u with params := s.params } := by
  cases h with
  | same _ free => rw [free, State.withoutFrameDepth_restore params]
  | enters v kind body depth free result =>
    subst u t
    have vparams : v.params = s.params := (v.enter_sameData kind body).params.symm.trans params
    obtain notDeeper | room := room
    · simp [State.withoutFrameDepth_enter, depth] at notDeeper
    · rw [State.enter_of_room (room.congr vparams depth), ← vparams]
      rfl

/-- R107, R239: a depth that is reached ends the run, with the rest of the effect kept. -/
theorem DepthCase.ended_of_full {s u t : State} (h : DepthCase s u t) (params : t.params = s.params)
    (deeper : s.frames.length < u.frames.length) (full : FrameFull s) :
    Ended .resource 0 { u with params := s.params } t := by
  cases h with
  | same depth free => subst u; exact absurd depth (Nat.not_le.mpr deeper)
  | enters v kind body depth free result =>
    subst u t
    have vparams : v.params = s.params := (v.enter_sameData kind body).params.symm.trans params
    rw [State.enter_of_full (full.congr vparams depth), ← vparams]
    exact v.endRun_ended .framesExhausted

/-! ## Every instruction -/

/-- Of the state before the instruction only the number of frames matters. -/
theorem DepthCase.of_depth {r s u t : State} (h : DepthCase r u t) (depth : r.frames.length = s.frames.length) :
    DepthCase s u t := by
  cases h with
  | same notDeeper free => exact .same (notDeeper.trans depth.le) free
  | enters v kind body same free result => exact .enters v kind body (same.trans depth) free result

/-- An instruction that leaves as many frames as there were, and agrees. -/
theorem DepthCase.of_advance {s u t : State} {n : Nat} (frames : t.frames = advanceTop n s.frames)
    (free : u = t.withoutFrameDepth) : DepthCase s u t :=
  .same (by rw [frames, advanceTop_length]) free

/-- An instruction that ends the run, and agrees. -/
theorem DepthCase.of_ended {s u t : State} (frames : t.frames = []) (free : u = t.withoutFrameDepth) :
    DepthCase s u t :=
  .same (by simp [frames]) free

theorem State.advance_frames_length (s : State) (n : Nat) : (s.advance n).frames.length = s.frames.length :=
  advanceTop_length n s.frames

theorem State.moveTo_frames_length (s : State) (target : Nat) : (s.moveTo target).frames.length = s.frames.length := by
  unfold State.moveTo
  cases s.frames <;> rfl

/-- The capture sees no depth, so that a body-bearing BLOCK differs only in what it does with the body. -/
theorem State.withBody_depthCase {s u : State} {header : Nat} {act : Span → State → State}
    (h : s.withoutFrameDepth.withBody header act = .next u)
    (hact : ∀ (body : Span) (v : State), v.frames.length = s.frames.length →
      DepthCase s (act body v.withoutFrameDepth) (act body v)) :
    ∃ t, s.withBody header act = .next t ∧ DepthCase s u t := by
  obtain ⟨f, below, top, ⟨fails, rfl⟩ | ⟨body, captured, rfl⟩⟩ := State.withBody_cases h
  · rw [State.withoutFrameDepth_capture] at fails
    rw [State.withoutFrameDepth_frames] at top
    exact ⟨s.endRun .unexpectedEnd, by rw [State.withBody_eq header act top, fails], .of_ended rfl rfl⟩
  · rw [State.withoutFrameDepth_capture] at captured
    rw [State.withoutFrameDepth_frames] at top
    exact ⟨act body (s.moveTo (body.stop + 3)), by rw [State.withBody_eq header act top, captured],
      hact body _ (s.moveTo_frames_length _)⟩

theorem State.withBody_enter_depthCase {s u : State} {header : Nat} {holds : Prop} [Decidable holds]
    {kind : FrameKind} (h : s.withoutFrameDepth.withBody header
      (fun body t => if holds then t.enter kind body else t) = .next u) :
    ∃ t, s.withBody header (fun body t => if holds then t.enter kind body else t) = .next t ∧ DepthCase s u t := by
  refine State.withBody_depthCase h fun body v depth => ?_
  split
  · exact .enters v kind body depth rfl rfl
  · exact .same depth.le rfl

theorem State.withBody_forStart_depthCase {s u : State} {header : Nat} {a : RegAddr} {n : Nat}
    (h : s.withoutFrameDepth.withBody header (fun body t => t.forStart a n body) = .next u) :
    ∃ t, s.withBody header (fun body t => t.forStart a n body) = .next t ∧ DepthCase s u t := by
  refine State.withBody_depthCase h fun body v depth => ?_
  unfold State.forStart
  split
  · exact .enters (v.setReg a (toWord 1)) (.counts a 1 n) body depth rfl rfl
  · exact .same depth.le rfl

theorem execPop_depthCase {a : RegAddr} {s u : State} (h : execPop a s.withoutFrameDepth = .next u) :
    ∃ t, execPop a s = .next t ∧ DepthCase s u t := by
  unfold execPop at h ⊢
  rw [State.withoutFrameDepth_stack] at h
  split at h
  · cases h; exact ⟨_, rfl, .of_ended rfl rfl⟩
  · cases h; exact ⟨_, rfl, .of_advance rfl rfl⟩

theorem execPchr_depthCase {a : RegAddr} {s u : State} (h : execPchr a s.withoutFrameDepth = .next u) :
    ∃ t, execPchr a s = .next t ∧ DepthCase s u t := by
  unfold execPchr at h ⊢
  rw [State.withoutFrameDepth_reg] at h
  split at h
  · cases h; exact ⟨_, if_pos ‹_›, .of_advance rfl rfl⟩
  · cases h; exact ⟨_, if_neg ‹_›, .of_ended rfl rfl⟩

theorem execDpm_depthCase {payload : List Byte} {s u : State} (h : execDpm payload s.withoutFrameDepth = .next u) :
    ∃ t, execDpm payload s = .next t ∧ DepthCase s u t := by
  unfold execDpm at h ⊢
  split at h
  · cases h; exact ⟨_, rfl, .of_ended rfl rfl⟩
  · cases h; exact ⟨_, rfl, .of_advance rfl rfl⟩

theorem execCall_depthCase {k : FuncId} {s u : State} (h : execCall k s.withoutFrameDepth = .next u) :
    ∃ t, execCall k s = .next t ∧ DepthCase s u t := by
  unfold execCall at h ⊢
  rw [State.withoutFrameDepth_func] at h
  split at h
  · cases h; exact ⟨_, rfl, .of_advance rfl rfl⟩
  · split at h
    · cases h; exact ⟨_, if_pos ‹_›, .enters (s.advance 10) .call _ (s.advance_frames_length 10) rfl rfl⟩
    · cases h; exact ⟨_, if_neg ‹_›, .of_advance rfl rfl⟩

theorem execBlockEnd_of_root {s : State} {f : Frame} {below : List Frame} (top : s.frames = f :: below)
    (root : f.kind = .root) : execBlockEnd s = .next ((s.advance 3).endRun .rootBlockEnd) := by
  simp only [execBlockEnd, top, root]

/-- R197: an END in a body frame is that frame's end. -/
theorem execBlockEnd_of_not_root {s : State} {f : Frame} {below : List Frame} (top : s.frames = f :: below)
    (notRoot : f.kind ≠ .root) : execBlockEnd s = (s.advance 3).frameEnd := by
  unfold execBlockEnd
  simp only [top]
  split
  · exact absurd ‹_› notRoot
  all_goals rfl

theorem State.frameEnd_depthCase {s u : State} (h : s.withoutFrameDepth.frameEnd = .next u) :
    ∃ t, s.frameEnd = .next t ∧ DepthCase s u t := by
  obtain ⟨f, below, top, _⟩ := State.frameEnd_cases h
  obtain ⟨t, ht⟩ := s.frameEnd_next top
  have free := State.withoutFrameDepth_frameEnd ht
  exact ⟨t, ht, .same (State.frameEnd_frames_length ht) (Host.Outcome.next.inj (h.symm.trans free))⟩

theorem execBlockEnd_depthCase {s u : State} (h : execBlockEnd s.withoutFrameDepth = .next u) :
    ∃ t, execBlockEnd s = .next t ∧ DepthCase s u t := by
  cases top : s.frames with
  | nil => simp [execBlockEnd, top] at h
  | cons f below =>
    have topFree : s.withoutFrameDepth.frames = f :: below := top
    by_cases root : f.kind = .root
    · rw [execBlockEnd_of_root topFree root] at h
      cases h
      exact ⟨_, execBlockEnd_of_root top root, .of_ended rfl rfl⟩
    · rw [execBlockEnd_of_not_root topFree root] at h
      rw [execBlockEnd_of_not_root top root]
      obtain ⟨t, ht, hcase⟩ := State.frameEnd_depthCase (s := s.advance 3) h
      exact ⟨t, ht, hcase.of_depth (s.advance_frames_length 3)⟩

theorem inputNumber_depthCase {radix : Nat} {a : RegAddr} {s u : State}
    (h : inputNumber radix a s.withoutFrameDepth = .next u) :
    ∃ t, inputNumber radix a s = .next t ∧ DepthCase s u t := by
  unfold inputNumber at h ⊢
  rw [State.withoutFrameDepth_input] at h
  split at h
  · cases h; exact ⟨_, rfl, .same le_rfl rfl⟩
  · split at h
    · cases h; exact ⟨_, rfl, .of_ended rfl rfl⟩
    · cases h; exact ⟨_, rfl, .of_advance rfl rfl⟩

/-- R107, R234: what looks at no depth is computed alike on both sides; the blocks and CALL may enter. -/
theorem exec_depthCase {i : Instr} {s u : State} (h : exec i s.withoutFrameDepth = .next u) :
    ∃ t, exec i s = .next t ∧ DepthCase s u t := by
  cases i with
  | push a =>
    cases h
    exact ⟨_, rfl, .same ((State.pushEntry_frames_length _ _).trans (s.advance_frames_length 10).le)
      ((s.advance 10).withoutFrameDepth_pushEntry _)⟩
  | pop a => exact execPop_depthCase h
  | pchr a => exact execPchr_depthCase h
  | dpm payload => exact execDpm_depthCase h
  | call k => exact execCall_depthCase h
  | blockEnd => exact execBlockEnd_depthCase h
  | inHex a | inDec a => exact inputNumber_depthCase h
  | ifBlock a1 c a2 | repeatBlock a | whileBlock a1 c a2 => exact State.withBody_enter_depthCase h
  | forImm a n | forReg a a2 => exact State.withBody_forStart_depthCase h
  | funcDef k =>
    exact State.withBody_depthCase (act := fun body t => t.setFunc k (some body)) h
      fun _ _ depth => .same depth.le rfl
  | halt | fail => cases h; exact ⟨_, rfl, .of_ended rfl rfl⟩
  | _ => exact ⟨_, rfl, .of_advance rfl (Host.Outcome.next.inj h).symm⟩

/-- Settles O58: beside its next state with an infinite depth, an instruction agrees or enters the same frame. -/
theorem onlyEnteringLooksAtTheFrameDepth : Obligations.OnlyEnteringLooksAtTheFrameDepth := by
  intro i s u h
  obtain ⟨t, hexec, hcase⟩ := exec_depthCase h
  have params : t.params = s.params := (exec_data hexec).params
  exact ⟨fun room => by rw [hexec, hcase.eq_of_room params room],
    fun deeper full => ⟨t, hexec, hcase.ended_of_full params deeper full⟩⟩

end Sys2Proof.Machine
end

section
/-! The classes MANIPULATE (R121 to R127) and PAGE-SELECT (R128): each instruction's encoding, what it writes, and
what it leaves as it was. -/

namespace Sys2Proof.Machine

/-! ## A register write behind the advance -/

theorem State.setReg_advance_writesRegister (s : State) (n : Nat) (a : RegAddr) (v : Word) :
    WritesRegister s ((s.advance n).setReg a v) a v :=
  (s.advance n).setReg_writesRegister a v

theorem State.setReg_advance_sameButRegisters (s : State) (n : Nat) (a : RegAddr) (v : Word) :
    SameButRegisters n s ((s.advance n).setReg a v) := by
  simp [SameButRegisters, SameImage]

/-- The shape of R121 to R124: register `a` takes `f` of its value, 10 bits on. -/
theorem manipulateRegister_writes (a : RegAddr) (f : Word → Word) (s : State) :
    ∃ t, manipulateRegister a f s = .next t ∧ SameButRegisters 10 s t ∧ WritesRegister s t a (f (s.reg a)) :=
  ⟨_, rfl, s.setReg_advance_sameButRegisters 10 a _, s.setReg_advance_writesRegister 10 a _⟩

/-! ## The values written -/

/-- R122: 256 added first does not change the residue, and makes the difference a natural number. -/
theorem decValue_eq (u : Word) : decValue u = BitVec.ofNat 32 ((u.toNat + 256 - 1) % 256) := by
  have residue : (((u.toNat : Int) - 1) % 256).toNat % 256 = (u.toNat + 256 - 1) % 256 := by omega
  rw [decValue, lowByte, toWord, residue]

theorem popValue_low8 (v : Word) : popValue .low8 v = BitVec.ofNat 32 (v.toNat % 2 ^ 8) := rfl

/-- R126 with `POP_MASK = 32`: a 32-bit entry has no bits above those the mask keeps. -/
theorem popValue_full32 (v : Word) : popValue .full32 v = BitVec.ofNat 32 (v.toNat % 2 ^ 32) := by
  rw [Nat.mod_eq_of_lt v.isLt, BitVec.ofNat_toNat, BitVec.setWidth_eq, popValue]

/-- Settles O8: INC is the register write of `incValue`, which is the stated residue. -/
theorem incAddsOneModulo256 : Obligations.IncAddsOneModulo256 := fun a s =>
  ⟨encodedAs_of_encode_eq rfl rfl, manipulateRegister_writes a incValue s⟩

/-- Settles O9: DEC is the register write of `decValue`, whose integer residue is the stated one. -/
theorem decSubtractsOneModulo256 : Obligations.DecSubtractsOneModulo256 := by
  intro a s
  rw [← decValue_eq]
  exact ⟨encodedAs_of_encode_eq rfl rfl, manipulateRegister_writes a decValue s⟩

/-- Settles O10: CLR and RST are register writes of values that do not depend on what the register held. -/
theorem clrAndRstWriteZeroAndTheAddress : Obligations.ClrAndRstWriteZeroAndTheAddress := fun a s =>
  ⟨encodedAs_of_encode_eq rfl rfl, encodedAs_of_encode_eq rfl rfl,
    manipulateRegister_writes a (fun _ => 0) s, manipulateRegister_writes a (fun _ => zext a) s⟩

/-! ## The evaluation stack (R125, R126) -/

theorem State.pushEntry_of_room {s : State} (room : ∀ d, s.params.stackDepth = some d → s.stack.length < d)
    (v : Word) : s.pushEntry v = { s with stack := v :: s.stack } := by
  rw [State.pushEntry, (exhausted_eq_false _ _).2 room, if_neg Bool.false_ne_true]

theorem State.pushEntry_of_full {s : State} (full : s.params.stackDepth = some s.stack.length) (v : Word) :
    s.pushEntry v = s.endRun .stackExhausted := by
  rw [State.pushEntry, (exhausted_eq_true _ _).2 ⟨_, full, le_rfl⟩, if_pos rfl]

theorem execPush_of_room {s : State} (room : ∀ d, s.params.stackDepth = some d → s.stack.length < d) (a : RegAddr) :
    execPush a s = .next { s with stack := s.reg a :: s.stack, frames := advanceTop 10 s.frames } :=
  congrArg Host.Outcome.next (State.pushEntry_of_room (s := s.advance 10) room (s.reg a))

theorem execPush_of_full {s : State} (full : s.params.stackDepth = some s.stack.length) (a : RegAddr) :
    execPush a s = .next (s.endRun .stackExhausted) :=
  congrArg Host.Outcome.next (State.pushEntry_of_full (s := s.advance 10) full (s.reg a))

theorem execPop_of_empty {s : State} (empty : s.stack = []) (a : RegAddr) :
    execPop a s = .next (s.endRun .stackUnderflow) := by
  simp only [execPop, empty]
  rfl

theorem execPop_of_newest {s : State} {v : Word} {below : List Word} (newest : s.stack = v :: below) (a : RegAddr) :
    execPop a s = .next (({ s with stack := below }.advance 10).setReg a (popValue s.params.popMask v)) := by
  simp only [execPop, newest]

/-- Settles O11: the two outcomes of the push, by whether `STACK_DEPTH` is used up. -/
theorem pushAppendsTheWholeRegister : Obligations.PushAppendsTheWholeRegister := fun a s =>
  ⟨encodedAs_of_encode_eq rfl rfl, fun room => execPush_of_room room a,
    fun full => ⟨_, execPush_of_full full a, s.endRun_ended .stackExhausted⟩⟩

/-- Settles O12: underflow, or the register write of the newest entry under each mask from the state without it. -/
theorem popWritesTheMaskedNewestEntry : Obligations.PopWritesTheMaskedNewestEntry := by
  intro a s
  refine ⟨encodedAs_of_encode_eq rfl rfl,
    fun empty => ⟨_, execPop_of_empty empty a, s.endRun_ended .stackUnderflow⟩, fun v below newest => ?_⟩
  have writes : WritesRegister s _ a (popValue s.params.popMask v) :=
    State.setReg_advance_writesRegister { s with stack := below } 10 a _
  refine ⟨_, execPop_of_newest newest a, State.setReg_advance_sameButRegisters _ 10 a _,
    fun low8 => ?_, fun full32 => ?_⟩
  · rwa [low8, popValue_low8] at writes ⊢
  · rwa [full32, popValue_full32] at writes ⊢

/-! ## What writes no register and leaves the stack alone -/

/-- Settles O13: both reserved modes are the advance alone, whatever their address field. -/
theorem reservedModesDoNothing : Obligations.ReservedModesDoNothing := fun _ s =>
  ⟨encodedAs_of_encode_eq rfl rfl, encodedAs_of_encode_eq rfl rfl,
    ⟨_, rfl, s.advance_sameState 10⟩, ⟨_, rfl, s.advance_sameState 10⟩⟩

/-- Settles O14: PAGE is the advance and the store to `PG`. -/
theorem pageSelectsThePageAndWritesNoRegister : Obligations.PageSelectsThePageAndWritesNoRegister := fun _ _ =>
  ⟨encodedAs_of_encode_eq rfl rfl, rfl⟩

end Sys2Proof.Machine
end

section
/-! The class ARITHMETIC (R142 to R149): the law common to its two-register modes (R141) and to the four load
immediates, and the numbers they write; the bitwise search of ROOT finds the greatest integer root. -/

namespace Sys2Proof.Machine

/-! ## What the two shapes of the class write -/

/-- R141: register `a1` takes `f` of what the two registers held before, 14 bits on. -/
theorem arithmetic_writes (f : Word → Word → Word) (a1 a2 : RegAddr) (s : State) :
    ∃ t, arithmetic f a1 a2 s = .next t ∧ SameButRegisters 14 s t ∧
      WritesRegister s t a1 (f (s.reg a1) (s.reg a2)) :=
  ⟨_, rfl, s.setReg_advance_sameButRegisters 14 a1 _, s.setReg_advance_writesRegister 14 a1 _⟩

theorem zext_eq_zeroExtend {n : Nat} (v : BitVec n) : zext v = v.zeroExtend 32 := BitVec.ofNat_toNat 32 v

theorem loadImmediate_writes {n : Nat} (d : RegAddr) (imm : BitVec n) (s : State) :
    ∃ t, loadImmediate d imm s = .next t ∧ SameButRegisters (12 + n) s t ∧
      WritesRegister s t d (imm.zeroExtend 32) :=
  zext_eq_zeroExtend imm ▸
    ⟨_, rfl, s.setReg_advance_sameButRegisters (12 + n) d _, s.setReg_advance_writesRegister (12 + n) d _⟩

/-! ## The values written -/

theorem toWord_eq_ofNat_mod (n : Nat) : toWord n = BitVec.ofNat 32 (n % 2 ^ 32) :=
  BitVec.eq_of_toNat_eq (by simp [toWord])

theorem addValue_eq (u v : Word) : addValue u v = BitVec.ofNat 32 ((u.toNat + v.toNat) % 2 ^ 32) :=
  toWord_eq_ofNat_mod _

theorem mulValue_eq (u v : Word) : mulValue u v = BitVec.ofNat 32 (u.toNat * v.toNat % 2 ^ 32) :=
  toWord_eq_ofNat_mod _

/-- R143: `2^32` added first does not change the residue, and makes the difference a natural number. -/
theorem subValue_eq (u v : Word) :
    subValue u v = BitVec.ofNat 32 ((2 ^ 32 + u.toNat - v.toNat) % 2 ^ 32) := by
  have residue : (((u.toNat : Int) - (v.toNat : Int)) % (2 ^ 32 : Int)).toNat =
      (2 ^ 32 + u.toNat - v.toNat) % 2 ^ 32 := by omega
  rw [subValue, residue, toWord]

/-- R145: division of natural numbers gives 0 for a divisor of 0, as DIV does. -/
theorem divValue_eq (u v : Word) : divValue u v = toWord (u.toNat / v.toNat) := by
  unfold divValue
  split
  next zero => rw [zero, Nat.div_zero]; rfl
  next => rfl

theorem powValue_of_guard {v : Word} (guard : 16 ≤ v.toNat) (u : Word) : powValue u v = 0 := if_pos guard

theorem powValue_of_below_guard {v : Word} (below : v.toNat < 16) (u : Word) :
    powValue u v = BitVec.ofNat 32 (u.toNat ^ v.toNat % 2 ^ 32) := by
  rw [powValue, if_neg (Nat.not_le_of_lt below), toWord_eq_ofNat_mod]

/-! ## The root (R149) -/

/-- Two consecutive powers around `u` single out the greatest integer root. -/
theorem isGreatest_root {u v r : Nat} (low : r ^ v ≤ u) (high : u < (r + 1) ^ v) :
    IsGreatest {q | q ^ v ≤ u} r :=
  ⟨low, fun _ fits => Nat.le_of_lt_succ (lt_of_pow_lt_pow_left₀ v (Nat.zero_le _) (fits.trans_lt high))⟩

/-- The invariant of the search: with `k` bits to go, the greatest root lies in `r` to `r + 2^k - 1`. -/
theorem rootSearch_isGreatest {u v k r : Nat} (low : r ^ v ≤ u) (high : u < (r + 2 ^ k) ^ v) :
    IsGreatest {q | q ^ v ≤ u} (rootSearch u v k r) := by
  induction k generalizing r with
  | zero => exact isGreatest_root low high
  | succ k ih =>
    rw [rootSearch]
    split
    next fits => exact ih fits (by rwa [add_assoc, ← two_mul, ← pow_succ'])
    next exceeds => exact ih low (Nat.lt_of_not_le exceeds)

/-- From degree 32 on, the power of 2 already exceeds every register value. -/
theorem min_one_isGreatest {u v : Nat} (small : u < 2 ^ 32) (large : 32 ≤ v) :
    IsGreatest {q | q ^ v ≤ u} (min u 1) := by
  have positive : v ≠ 0 := by omega
  obtain rfl | one : u = 0 ∨ 1 ≤ u := by omega
  · exact isGreatest_root (by simp [positive]) (by simp)
  · rw [min_eq_right one]
    exact isGreatest_root (by simpa) (small.trans_le (Nat.pow_le_pow_right two_pos large))

theorem integerRoot_isGreatest {u v : Nat} (small : u < 2 ^ 32) (positive : v ≠ 0) :
    IsGreatest {q | q ^ v ≤ u} (integerRoot u v) := by
  unfold integerRoot
  split
  next large => exact min_one_isGreatest small large
  next =>
    refine rootSearch_isGreatest (by simp [positive]) ?_
    rw [Nat.zero_add]
    exact small.trans_le (Nat.le_self_pow positive _)

theorem rootValue_of_zero {v : Word} (zero : v.toNat = 0) (u : Word) : rootValue u v = toWord 0 := if_pos zero

theorem rootValue_of_ne_zero {v : Word} (positive : v.toNat ≠ 0) (u : Word) :
    rootValue u v = toWord (integerRoot u.toNat v.toNat) := if_neg positive

/-! ## The obligations -/

/-- Settles O15: ADD is the arithmetic write of the sum, which a register holds modulo `2^32`. -/
theorem addWrapsModulo2To32 : Obligations.AddWrapsModulo2To32 := by
  intro a1 a2 s
  rw [← addValue_eq]
  exact ⟨encodedAs_of_encode_eq rfl rfl, arithmetic_writes addValue a1 a2 s⟩

/-- Settles O16: SUB is the arithmetic write of the integer difference, whose residue is the stated one. -/
theorem subWrapsModulo2To32 : Obligations.SubWrapsModulo2To32 := by
  intro a1 a2 s
  rw [← subValue_eq]
  exact ⟨encodedAs_of_encode_eq rfl rfl, arithmetic_writes subValue a1 a2 s⟩

/-- Settles O17: MUL is the arithmetic write of the product, which a register holds modulo `2^32`. -/
theorem mulKeepsTheLow32Bits : Obligations.MulKeepsTheLow32Bits := by
  intro a1 a2 s
  rw [← mulValue_eq]
  exact ⟨encodedAs_of_encode_eq rfl rfl, arithmetic_writes mulValue a1 a2 s⟩

/-- Settles O18: DIV is the arithmetic write of the quotient of natural numbers. -/
theorem divIsTheFloorAndZeroByZeroDivisor : Obligations.DivIsTheFloorAndZeroByZeroDivisor := by
  intro a1 a2 s
  obtain ⟨t, result, same, writes⟩ := arithmetic_writes divValue a1 a2 s
  rw [divValue_eq] at writes
  refine ⟨encodedAs_of_encode_eq rfl rfl, t, _, result, same, writes, ?_, fun zero => ?_, fun positive => ⟨?_, ?_⟩⟩
  · exact (Nat.div_le_self _ _).trans_lt (s.reg a1).isLt
  · rw [zero, Nat.div_zero]
  · exact Nat.div_mul_le_self _ _
  · exact (Nat.div_lt_iff_lt_mul (Nat.pos_of_ne_zero positive)).mp (Nat.lt_succ_self _)

/-- Settles O19: MOV is the arithmetic write of its right operand. -/
theorem movCopiesAll32Bits : Obligations.MovCopiesAll32Bits := fun a1 a2 s =>
  ⟨encodedAs_of_encode_eq rfl rfl, arithmetic_writes (fun _ v => v) a1 a2 s⟩

/-- Settles O20: one load of an immediate, at four lengths; zero-extending 32 bits to 32 changes nothing. -/
theorem loadImmediateZeroExtends : Obligations.LoadImmediateZeroExtends := fun d i8 i16 i24 i32 s =>
  ⟨encodedAs_of_encode_eq rfl rfl, encodedAs_of_encode_eq rfl rfl, encodedAs_of_encode_eq rfl rfl,
    encodedAs_of_encode_eq rfl rfl, loadImmediate_writes d i8 s, loadImmediate_writes d i16 s,
    loadImmediate_writes d i24 s, BitVec.setWidth_eq i32 ▸ loadImmediate_writes d i32 s⟩

/-- Settles O21: the two sides of the guard of POW, for the one write. -/
theorem powIsExactBelowTheGuard : Obligations.PowIsExactBelowTheGuard := by
  intro a1 a2 s
  obtain ⟨t, result, same, writes⟩ := arithmetic_writes powValue a1 a2 s
  refine ⟨encodedAs_of_encode_eq rfl rfl, t, result, same, fun guard => ?_, fun below => ?_⟩
  · rwa [powValue_of_guard guard] at writes
  · rwa [powValue_of_below_guard below] at writes

/-- Settles O22: a degree of 0 writes 0; any other writes what the search finds, at most the radicand. -/
theorem rootIsTheGreatestIntegerRoot : Obligations.RootIsTheGreatestIntegerRoot := by
  intro a1 a2 s
  obtain ⟨t, result, same, writes⟩ := arithmetic_writes rootValue a1 a2 s
  refine ⟨encodedAs_of_encode_eq rfl rfl, t, ?_⟩
  by_cases zero : (s.reg a2).toNat = 0
  · rw [rootValue_of_zero zero] at writes
    exact ⟨0, result, same, writes, by decide, fun _ => rfl, absurd zero⟩
  · rw [rootValue_of_ne_zero zero] at writes
    obtain ⟨fits, greatest⟩ := integerRoot_isGreatest (s.reg a1).isLt zero
    exact ⟨_, result, same, writes, ((Nat.le_self_pow zero _).trans fits).trans_lt (s.reg a1).isLt, (absurd · zero),
      fun _ => ⟨fits, fun _ smaller => greatest smaller⟩⟩

end Sys2Proof.Machine
end

section
/-! The class DISPLAY (R161 to R164): the digits that PDEC and PHEX print are the library's digits of the register,
most significant first, and PCHR tells the scalar values from all other register values. -/

namespace Sys2Proof.Machine

/-! ## The digits of a numeral (R162, R163) -/

theorem digitCharacters_getD {d : Nat} (digit : d < 16) : digitCharacters.getD d 0 = digitScalar d := by
  decide +revert

/-- With enough fuel the loop of `dec(v)` and `hex(v)` puts the digits of `v` in front of those it has. -/
theorem digitsFrom_eq_reverse_digits {base fuel v : Nat} (radix : 1 < base) (fits : v < base ^ fuel)
    (positive : v ≠ 0) (acc : List Nat) :
    digitsFrom base fuel v acc = (Nat.digits base v).reverse ++ acc := by
  induction fuel generalizing v acc with
  | zero => exact absurd (Nat.lt_one_iff.mp fits) positive
  | succ fuel ih =>
    rw [digitsFrom]
    split
    next single => rw [Nat.digits_of_lt base v positive single]; rfl
    next several =>
      have quotient_fits : v / base < base ^ fuel := Nat.div_lt_of_lt_mul (pow_succ' base fuel ▸ fits)
      have quotient_positive : v / base ≠ 0 := (Nat.div_pos (Nat.le_of_not_lt several) (by omega)).ne'
      rw [ih quotient_fits quotient_positive, Nat.digits_eq_cons_digits_div radix positive, List.reverse_cons,
        List.append_assoc, List.singleton_append]

/-- Digits read from the most significant on spell what the library's digits, least significant first, do. -/
theorem foldl_reverse_eq_ofDigits (base : Nat) (ds : List Nat) :
    ds.reverse.foldl (fun n d => n * base + d) 0 = Nat.ofDigits base ds := by
  rw [List.foldl_reverse, Nat.ofDigits_eq_foldr]
  simp only [Nat.cast_id, mul_comm, add_comm]

theorem head?_reverse_digits_ne_zero (base : Nat) {n : Nat} (positive : n ≠ 0) :
    (Nat.digits base n).reverse.head? ≠ some 0 := by
  rw [List.head?_reverse, List.getLast?_eq_some_getLast (Nat.digits_ne_nil_iff_ne_zero.mpr positive)]
  exact mt Option.some.inj (Nat.getLast_digit_ne_zero base positive)

/-- The model's characters of the digits are those of the spec's table. -/
theorem isNumeral_map_digitScalar {base n : Nat} {ds : List Nat} (small : base ≤ 16) (nonempty : ds ≠ [])
    (digits : ∀ d ∈ ds, d < base) (spells : ds.foldl (fun n d => n * base + d) 0 = n)
    (shortest : ds.head? = some 0 → ds = [0]) : IsNumeral base n (ds.map digitScalar) :=
  ⟨ds, List.map_congr_left fun d hd => (digitCharacters_getD ((digits d hd).trans_le small)).symm, nonempty, digits,
    spells, shortest⟩

/-! ## The numeral of a register value -/

section Numeral

variable {base : Nat} {v : Word}

theorem numeral_of_zero (radix : 1 < base) (zero : v.toNat = 0) : numeral base v = [0].map digitScalar := by
  rw [numeral, zero, digitsFrom, if_pos (Nat.zero_lt_of_lt radix)]

theorem numeral_of_ne_zero (radix : 1 < base) (positive : v.toNat ≠ 0) :
    numeral base v = (Nat.digits base v.toNat).reverse.map digitScalar := by
  have fits : v.toNat < base ^ 32 := v.isLt.trans_le (Nat.pow_le_pow_left radix 32)
  rw [numeral, digitsFrom_eq_reverse_digits radix fits positive, List.append_nil]

theorem numeral_isNumeral (radix : 1 < base) (small : base ≤ 16) : IsNumeral base v.toNat (numeral base v) := by
  by_cases zero : v.toNat = 0
  · rw [numeral_of_zero radix zero, zero]
    exact isNumeral_map_digitScalar small (by simp) (by simpa using Nat.zero_lt_of_lt radix) (by simp) fun _ => rfl
  · rw [numeral_of_ne_zero radix zero]
    refine isNumeral_map_digitScalar small ?_ (fun d hd => ?_) ?_ (absurd · (head?_reverse_digits_ne_zero base zero))
    · exact List.reverse_ne_nil_iff.mpr (Nat.digits_ne_nil_iff_ne_zero.mpr zero)
    · exact Nat.digits_lt_base radix (List.mem_reverse.mp hd)
    · rw [foldl_reverse_eq_ofDigits, Nat.ofDigits_digits]

theorem numeral_length_le {k : Nat} (radix : 1 < base) (k_pos : 0 < k) (fits : v.toNat < base ^ k) :
    (numeral base v).length ≤ k := by
  by_cases zero : v.toNat = 0
  · rw [numeral_of_zero radix zero]
    exact k_pos
  · rw [numeral_of_ne_zero radix zero, List.length_map, List.length_reverse]
    exact (Nat.digits_length_le_iff radix v.toNat).mpr fits

end Numeral

/-- Settles O24: both print the numeral of the register; `2^32` is less than `10^10` and is `16^8`. -/
theorem pdecAndPhexEmitTheShortestNumeral : Obligations.PdecAndPhexEmitTheShortestNumeral := by
  intro a s
  have decimal_fits : (s.reg a).toNat < 10 ^ 10 := (s.reg a).isLt.trans (by decide)
  have hex_fits : (s.reg a).toNat < 16 ^ 8 := (s.reg a).isLt
  exact ⟨encodedAs_of_encode_eq rfl rfl, encodedAs_of_encode_eq rfl rfl,
    ⟨decText (s.reg a), rfl, numeral_isNumeral (by decide) (by decide),
      numeral_length_le (by decide) (by decide) decimal_fits⟩,
    ⟨hexText (s.reg a), rfl, numeral_isNumeral (by decide) (by decide),
      numeral_length_le (by decide) (by decide) hex_fits⟩⟩

/-! ## Single characters (R161, R164) -/

theorem execPchr_of_scalar {a : RegAddr} {s : State} (scalar : isScalar (s.reg a).toNat = true) :
    execPchr a s = .next ((s.advance 9).emit [(s.reg a).toNat]) := if_pos scalar

theorem execPchr_of_not_scalar {a : RegAddr} {s : State} (other : ¬ isScalar (s.reg a).toNat = true) :
    execPchr a s = .next ((s.advance 9).endRun .invalidCharacter) := if_neg other

/-- Settles O23: the two ranges of R161 are the scalar values and all others; the fault leaves nothing of the
advance, since every frame is discarded. -/
theorem pchrEmitsScalarValuesOnly : Obligations.PchrEmitsScalarValuesOnly := by
  intro a s
  refine ⟨encodedAs_of_encode_eq rfl rfl, fun scalar => ?_, fun other => ?_⟩
  · exact execPchr_of_scalar ((isScalar_iff _).mpr (by omega))
  · have not_scalar : ¬ isScalar (s.reg a).toNat = true := by
      rw [isScalar_iff]
      omega
    exact ⟨_, execPchr_of_not_scalar not_scalar, (s.advance 9).endRun_ended .invalidCharacter⟩

/-- Settles O25: the literal is a byte, and it is itself the character that is emitted. -/
theorem plitEmitsTheLiteral : Obligations.PlitEmitsTheLiteral := fun _ _ =>
  ⟨encodedAs_of_encode_eq rfl rfl, rfl⟩

end Sys2Proof.Machine
end

section
/-! The capture (R170 to R178): it finds exactly the properly nested runs of instructions that an END closes, so that
in a body made of such a run there is always a whole instruction next. -/

namespace Sys2Proof.Machine

/-! ## Nested runs of instructions (R87) -/

/-- How many blocks are open behind an instruction, with `depth` open in front of it (R172, R173). -/
def openAfter : Nesting → Nat → Nat
  | .opens, depth => depth + 1
  | .flat, depth => depth
  | .closes, depth => depth - 1

/-- A block more that is open all the time is a block more afterwards. -/
theorem openAfter_succ {n : Nesting} {depth : Nat} (closable : n = .closes → 0 < depth) :
    openAfter n (depth + 1) = openAfter n depth + 1 := by
  cases n with
  | opens => rfl
  | flat => rfl
  | closes => exact (Nat.succ_pred_eq_of_pos (closable rfl)).symm

/-- The encodings of whole instructions that, with `depth` blocks open in front of them, close every block and
nothing else: what `nestedFrom` tests, without its fuel (`wellNested_iff`). -/
inductive Nested : Nat → Bits → Prop where
  | nil : Nested 0 []
  | cons {depth : Nat} {i : Instr} {rest : Bits} (wf : i.wf = true) (closable : i.nesting = .closes → 0 < depth)
      (tail : Nested (openAfter i.nesting depth) rest) : Nested depth (encode i ++ rest)

theorem eq_blockEnd_of_closes {i : Instr} (h : i.nesting = .closes) : i = .blockEnd := by
  cases i with
  | blockEnd => rfl
  | _ => cases h

theorem nestedFrom_encode {i : Instr} (wf : i.wf = true) (fuel depth : Nat) (rest : Bits) :
    nestedFrom (fuel + 1) depth (encode i ++ rest) =
      (decide (i.nesting = .closes → 0 < depth) && nestedFrom fuel (openAfter i.nesting depth) rest) := by
  have decoded := decode_encode wf rest
  cases hbits : encode i ++ rest with
  | nil => rw [hbits] at decoded; cases decoded
  | cons b bs =>
    rw [hbits] at decoded
    rw [nestedFrom, decoded]
    cases hn : i.nesting <;> simp [hn, openAfter]

theorem Nested.cons_decoded {depth : Nat} {bs rest : Bits} {i : Instr} (decoded : decode bs = .ok (i, rest))
    (closable : i.nesting = .closes → 0 < depth) (tail : Nested (openAfter i.nesting depth) rest) :
    Nested depth bs := by
  obtain ⟨wf, rfl⟩ := decode_ok decoded
  exact .cons wf closable tail

theorem nested_of_nestedFrom {fuel depth : Nat} {bs : Bits} (h : nestedFrom fuel depth bs = true) :
    Nested depth bs := by
  fun_induction nestedFrom fuel depth bs with
  | case1 =>
    obtain rfl := of_decide_eq_true h
    exact .nil
  | case2 | case3 => cases h
  | case4 _ _ _ _ i rest decoded opens ih => exact .cons_decoded decoded (by simp [opens]) (opens ▸ ih h)
  | case5 _ _ _ _ i rest decoded flat ih => exact .cons_decoded decoded (by simp [flat]) (flat ▸ ih h)
  | case6 _ _ _ _ i rest decoded closes ih =>
    obtain ⟨inside, tail⟩ := (Bool.and_eq_true _ _).mp h
    exact .cons_decoded decoded (fun _ => of_decide_eq_true inside) (closes ▸ ih tail)

theorem Nested.nestedFrom_eq_true {depth : Nat} {bs : Bits} (h : Nested depth bs) {fuel : Nat}
    (enough : bs.length ≤ fuel) : nestedFrom fuel depth bs = true := by
  induction h generalizing fuel with
  | nil => cases fuel <;> rfl
  | @cons depth i rest wf closable tail ih =>
    rw [List.length_append, encode_length wf] at enough
    have tag := i.three_le_width
    obtain ⟨fuel, rfl⟩ := Nat.exists_eq_succ_of_ne_zero (n := fuel) (by omega)
    rw [nestedFrom_encode wf, ih (by omega), Bool.and_true, decide_eq_true_iff]
    exact closable

theorem wellNested_iff {bs : Bits} : wellNested bs = true ↔ Nested 0 bs :=
  ⟨nested_of_nestedFrom, fun h => h.nestedFrom_eq_true le_rfl⟩

/-- What is decoded from a nested run is its first instruction, and the rest is nested behind it. -/
theorem Nested.of_decode {depth : Nat} {bs rest : Bits} {i : Instr} (h : Nested depth bs)
    (decoded : decode bs = .ok (i, rest)) :
    (i.nesting = .closes → 0 < depth) ∧ Nested (openAfter i.nesting depth) rest := by
  cases h with
  | nil => cases decoded
  | cons wf closable tail =>
    cases (decode_encode wf _).symm.trans decoded
    exact ⟨closable, tail⟩

/-- With a block open on the outside, a nested run is what is inside of it, its END, and what is behind it. -/
theorem Nested.split {depth : Nat} {bs : Bits} (h : Nested (depth + 1) bs) :
    ∃ inner behind, bs = inner ++ (encode .blockEnd ++ behind) ∧ Nested depth inner ∧ Nested 0 behind := by
  generalize hd : depth + 1 = d at h
  induction h generalizing depth with
  | nil => cases hd
  | @cons _ i rest wf _ tail ih =>
    subst hd
    by_cases closable : i.nesting = .closes → 0 < depth
    · obtain ⟨inner, behind, rfl, hinner, hbehind⟩ := ih (openAfter_succ closable).symm
      exact ⟨encode i ++ inner, behind, (List.append_assoc ..).symm, .cons wf closable hinner, hbehind⟩
    · obtain ⟨closes, atZero⟩ := Classical.not_imp.mp closable
      obtain rfl := Nat.eq_zero_of_not_pos atZero
      obtain rfl := eq_blockEnd_of_closes closes
      exact ⟨[], rest, rfl, .nil, tail⟩

/-! ## The capture (R171, R175) -/

theorem captureLoop_encode {i : Instr} (wf : i.wf = true) (fuel depth pos : Nat) (rest : Bits) :
    captureLoop (fuel + 1) depth pos (encode i ++ rest) =
      if i.nesting = .closes ∧ depth - 1 = 0 then .ok pos
      else captureLoop fuel (openAfter i.nesting depth) (pos + i.width) rest := by
  rw [captureLoop, decode_encode wf]
  cases hn : i.nesting <;> simp [hn, openAfter]

/-- R171 finds an END with a nested run in front of it. -/
theorem nested_of_captureLoop {fuel depth pos t : Nat} {bs : Bits}
    (h : captureLoop fuel (depth + 1) pos bs = .ok t) :
    ∃ inner behind, bs = inner ++ (encode .blockEnd ++ behind) ∧ Nested depth inner ∧ t = pos + inner.length := by
  induction fuel generalizing depth pos bs with
  | zero => cases h
  | succ fuel ih =>
    cases hd : decode bs with
    | error e => simp [captureLoop, hd] at h
    | ok p =>
      obtain ⟨i, rest⟩ := p
      obtain ⟨wf, rfl⟩ := decode_ok hd
      rw [captureLoop_encode wf] at h
      split at h
      next found =>
        obtain ⟨closes, atZero⟩ := found
        obtain rfl := eq_blockEnd_of_closes closes
        obtain rfl : depth = 0 := atZero
        cases h
        exact ⟨[], rest, rfl, .nil, rfl⟩
      next goesOn =>
        have closable : i.nesting = .closes → 0 < depth := fun closes =>
          Nat.pos_of_ne_zero fun zero => goesOn ⟨closes, zero⟩
        rw [openAfter_succ closable] at h
        obtain ⟨inner, behind, rfl, hinner, rfl⟩ := ih h
        refine ⟨encode i ++ inner, behind, (List.append_assoc ..).symm, .cons wf closable hinner, ?_⟩
        rw [List.length_append, encode_length wf, Nat.add_assoc]

/-- R171 finds the END behind a nested run. -/
theorem Nested.captureLoop_eq_ok {depth : Nat} {inner : Bits} (h : Nested depth inner) {fuel : Nat}
    (enough : inner.length < fuel) (pos : Nat) (behind : Bits) :
    captureLoop fuel (depth + 1) pos (inner ++ (encode .blockEnd ++ behind)) = .ok (pos + inner.length) := by
  obtain ⟨fuel, rfl⟩ := Nat.exists_eq_succ_of_ne_zero (Nat.ne_zero_of_lt enough)
  induction h generalizing fuel pos with
  | nil => rw [List.nil_append, captureLoop_encode rfl, if_pos ⟨rfl, rfl⟩]; rfl
  | @cons depth i rest wf closable _ ih =>
    rw [List.length_append, encode_length wf] at enough ⊢
    have tag := i.three_le_width
    have goesOn : ¬ (i.nesting = .closes ∧ depth + 1 - 1 = 0) := fun ⟨closes, zero⟩ =>
      Nat.ne_of_gt (closable closes) zero
    obtain ⟨fuel, rfl⟩ := Nat.exists_eq_succ_of_ne_zero (n := fuel) (by omega)
    rw [List.append_assoc, captureLoop_encode wf, if_neg goesOn, openAfter_succ closable,
      ih _ fuel (by omega), Nat.add_assoc]

theorem State.nested_of_capture {s : State} {start stop : Nat} {body : Span}
    (h : s.capture start stop = .ok body) :
    ∃ inner behind, s.mem.bits start (stop - start) = inner ++ (encode .blockEnd ++ behind) ∧ Nested 0 inner ∧
      body = { start := start, stop := start + inner.length } := by
  obtain ⟨hstart, found⟩ := State.capture_ok h
  obtain ⟨inner, behind, bits, nested, hstop⟩ := nested_of_captureLoop found
  subst hstart
  exact ⟨inner, behind, bits, nested, congrArg (Span.mk body.start) hstop⟩

theorem State.capture_of_nested {s : State} {start stop : Nat} {inner behind : Bits} (nested : Nested 0 inner)
    (bits : s.mem.bits start (stop - start) = inner ++ (encode .blockEnd ++ behind)) :
    s.capture start stop = .ok { start := start, stop := start + inner.length } := by
  obtain ⟨_, _, fits⟩ := s.mem.bits_eq_append _ _ _ _ bits
  rw [State.capture, bits, nested.captureLoop_eq_ok (by omega)]

/-- `item*` of R87 is what the image holds in the span. -/
def Span.Nested (m : Memory) (sp : Span) : Prop := wellNested (m.bits sp.start (sp.stop - sp.start)) = true

theorem Span.nested_iff {m : Memory} {sp : Span} :
    sp.Nested m ↔ Machine.Nested 0 (m.bits sp.start (sp.stop - sp.start)) := wellNested_iff

/-- The nested run that is captured is what the image holds in the span. -/
theorem State.capture_nested {s : State} {start stop : Nat} {body : Span} (h : s.capture start stop = .ok body) :
    body.Nested s.mem := by
  obtain ⟨inner, behind, bits, nested, rfl⟩ := State.nested_of_capture h
  obtain ⟨_, front, _⟩ := s.mem.bits_eq_append _ _ _ _ bits
  rw [Span.nested_iff, Nat.add_sub_cancel_left, ← front]
  exact nested

/-- In a stretch of the image, what stands behind its first bits. -/
theorem Memory.bits_behind {m : Memory} {start stop : Nat} {front behind : Bits}
    (bits : m.bits start (stop - start) = front ++ behind) :
    m.bits (start + front.length) (stop - (start + front.length)) = behind := by
  obtain ⟨rest, _, _⟩ := m.bits_eq_append _ _ _ _ bits
  rw [rest, Nat.sub_sub]

theorem State.capture_end {s : State} {start stop : Nat} {body : Span} (h : s.capture start stop = .ok body) :
    s.mem.bits body.stop 3 = encode .blockEnd := by
  obtain ⟨inner, behind, bits, _, rfl⟩ := State.nested_of_capture h
  obtain ⟨_, front, _⟩ := s.mem.bits_eq_append _ _ _ _ (Memory.bits_behind bits)
  exact front.symm

/-- Settles O54: the capture finds the END behind a nested run, and both lie within the stretch. -/
theorem capturedSpanIsWellNested : Obligations.CapturedSpanIsWellNested := by
  intro s start stop body h
  obtain ⟨hstart, hbody, hstop⟩ := State.capture_bounds h
  exact ⟨hstart, hbody, hstop, State.capture_end h, State.capture_nested h⟩

/-! ## Bodies (R178) -/

/-- Only a DPM has bits behind its header, and it opens no block. -/
theorem headerBits_eq_width_of_opens {i : Instr} (opens : i.nesting = .opens) : i.headerBits = i.width := by
  cases i with
  | dpm payload => cases opens
  | _ => rfl

/-- What a frame has left behind the instruction it decodes. -/
theorem State.bits_behind_decoded {s : State} {f : Frame} {i : Instr} {rest : Bits}
    (decoded : decode (s.remaining f) = .ok (i, rest)) :
    s.mem.bits (f.pc + i.width) (f.body.stop - (f.pc + i.width)) = rest := by
  obtain ⟨wf, bits⟩ := decode_ok decoded
  have behind := Memory.bits_behind bits
  rwa [encode_length wf] at behind

/-- R178 (b): a block in a nested run has its END there, and the run goes on behind it. -/
theorem State.capture_of_opens {s : State} {f : Frame} {i : Instr} {rest : Bits}
    (nested : wellNested (s.remaining f) = true) (decoded : decode (s.remaining f) = .ok (i, rest))
    (opens : i.nesting = .opens) :
    ∃ body, s.capture (f.pc + i.width) f.body.stop = .ok body ∧
      Span.Nested s.mem { start := body.stop + 3, stop := f.body.stop } := by
  obtain ⟨_, tail⟩ := (wellNested_iff.mp nested).of_decode decoded
  rw [opens] at tail
  obtain ⟨inner, behind, rfl, hinner, hbehind⟩ := tail.split
  have bits := State.bits_behind_decoded decoded
  refine ⟨_, State.capture_of_nested hinner bits, wellNested_iff.mpr ?_⟩
  rw [← Memory.bits_behind (Memory.bits_behind bits)] at hbehind
  exact hbehind

/-- Settles O55: a nested run that is not empty has a first instruction, and with no block open it is no END. -/
theorem bodiesNeverRunOffTheirEnd : Obligations.BodiesNeverRunOffTheirEnd := by
  intro s f below structured top notRoot left
  obtain ⟨frames, _⟩ := structured
  obtain ⟨nested, _⟩ := frames f (top ▸ List.mem_cons_self) notRoot
  have someLeft : s.remaining f ≠ [] := by
    rw [← List.length_pos_iff, State.remaining, Memory.bits_length]
    omega
  obtain ⟨i, rest, decoded⟩ : ∃ i rest, decode (s.remaining f) = .ok (i, rest) := by
    have run := wellNested_iff.mp nested
    generalize s.remaining f = bs at run someLeft
    cases run with
    | nil => exact absurd rfl someLeft
    | cons wf _ _ => exact ⟨_, _, decode_encode wf _⟩
  refine ⟨i, rest, decoded, ?_, fun opens => ?_⟩
  · rintro rfl
    obtain ⟨closable, _⟩ := (wellNested_iff.mp nested).of_decode decoded
    exact absurd (closable rfl) (Nat.lt_irrefl 0)
  · obtain ⟨body, captured, _⟩ := State.capture_of_opens nested decoded opens
    exact ⟨body, headerBits_eq_width_of_opens opens ▸ captured⟩

end Sys2Proof.Machine
end

section
/-! The algorithm of R171 with its own widths, beside the decoder: each class reads as many bits on both sides. -/

namespace Sys2Proof.Machine

/-! ## Reads -/

/-- `y` moves the cursor to `pos` where `x` reads a value, and both leave the same bits; they fail alike. -/
def MovesAs {α : Type} (pos : Nat) (x : Except DecodeError (α × Bits)) (y : Except DecodeError SkipCursor) : Prop :=
  y = x.map fun p => { pos := pos, left := p.2 }

theorem skipField_readBits (n pos : Nat) (bs : Bits) :
    MovesAs (pos + n) (readBits n bs) (skipField n { pos := pos, left := bs }) := by
  unfold MovesAs skipField skipRead
  cases readBits n bs <;> rfl

theorem skipField_readField (n pos : Nat) (bs : Bits) :
    MovesAs (pos + n) (readField n bs) (skipField n { pos := pos, left := bs }) := by
  unfold MovesAs skipField skipRead readField
  cases readBits n bs <;> rfl

theorem skipField_readCond (pos : Nat) (bs : Bits) :
    MovesAs (pos + 2) (readCond bs) (skipField 2 { pos := pos, left := bs }) := by
  unfold MovesAs skipField skipRead readCond
  cases hr : readBits 2 bs with
  | error e => rfl
  | ok p =>
    obtain ⟨hlt, _⟩ := readBits_ok hr
    obtain ⟨c, rest⟩ := p
    interval_cases c <;> rfl

/-- The payload of a DPM (R174). -/
theorem skipPayload_readBytes (k pos : Nat) (bs : Bits) :
    MovesAs (pos + 8 * k) (readBytes k bs) (skipPayload k { pos := pos, left := bs }) := by
  induction k generalizing pos bs with
  | zero => rfl
  | succ k ih =>
    have byte := skipField_readField 8 pos bs
    unfold MovesAs at byte ih ⊢
    rw [skipPayload, readBytes, byte, show pos + 8 * (k + 1) = pos + 8 + 8 * k by omega]
    cases readField 8 bs with
    | error e => rfl
    | ok p =>
      change skipPayload k { pos := pos + 8, left := p.2 } =
        (readBytes k p.2 >>= fun q => pure (p.1 :: q.1, q.2)).map fun q => { pos := pos + 8 + 8 * k, left := q.2 }
      rw [ih]
      cases readBytes k p.2 with
      | error e => rfl
      | ok q => rfl

/-! ## Sequences of reads that end in an instruction -/

/-- `y` gives what `x` decodes, without its operands: what the instruction is to the block structure, and the cursor
behind it, `x` standing at `pos`. They fail alike. -/
def SkipsAs (pos : Nat) (x : Except DecodeError (Instr × Bits)) (y : Except DecodeError (Nesting × SkipCursor)) :
    Prop :=
  y = x.map fun p => (p.1.nesting, { pos := pos + p.1.width, left := p.2 })

section Sequence

variable {α : Type} {pos mid n : Nat} {bs : Bits} {x : Except DecodeError (α × Bits)}
  {y : Except DecodeError SkipCursor} {decodeRest : α × Bits → Except DecodeError (Instr × Bits)}

/-- A read that moves the cursor alike on both sides, and what follows it. -/
theorem SkipsAs.bind {skipRest : SkipCursor → Except DecodeError (Nesting × SkipCursor)} (read : MovesAs mid x y)
    (others : ∀ a rest, x = .ok (a, rest) →
      SkipsAs pos (decodeRest (a, rest)) (skipRest { pos := mid, left := rest })) :
    SkipsAs pos (x >>= decodeRest) (y >>= skipRest) := by
  unfold MovesAs at read
  subst read
  cases x with
  | error e => rfl
  | ok p => exact others p.1 p.2 rfl

/-- A selector has the same value on both sides, below `2 ^ n`. -/
theorem SkipsAs.select {decodeRest : Nat × Bits → Except DecodeError (Instr × Bits)}
    {skipRest : Nat × SkipCursor → Except DecodeError (Nesting × SkipCursor)}
    (others : ∀ v < 2 ^ n, ∀ rest,
      SkipsAs pos (decodeRest (v, rest)) (skipRest (v, { pos := mid + n, left := rest }))) :
    SkipsAs pos (readBits n bs >>= decodeRest) (skipRead n { pos := mid, left := bs } >>= skipRest) := by
  unfold skipRead
  cases hr : readBits n bs with
  | error e => rfl
  | ok p => exact others p.1 (readBits_ok hr).1 p.2

end Sequence

/-- When all fields are read, the cursor stands behind the instruction. The widths read so far are numerals, so for
every instruction but a DPM `rfl` compares them with the instruction's own. -/
theorem SkipsAs.done {pos q : Nat} {i : Instr} {rest : Bits} (width : q = pos + i.width) :
    SkipsAs pos (pure (i, rest)) (pure (i.nesting, { pos := q, left := rest })) := by
  subst width
  rfl

/-! ## Every instruction -/

section Operands

variable {pos mid : Nat} {bs : Bits}

theorem SkipsAs.oneField {mk : BitVec 4 → Instr} {n : Nesting} (nesting : ∀ a, (mk a).nesting = n)
    (width : ∀ a, mid + 4 = pos + (mk a).width) :
    SkipsAs pos (decodeOneField mk bs) (do
      let k ← skipField 4 { pos := mid, left := bs }
      pure (n, k)) :=
  .bind (skipField_readField ..) fun a _ _ => nesting a ▸ .done (width a)

theorem SkipsAs.twoRegisters {mk : RegAddr → RegAddr → Instr} {n : Nesting} (nesting : ∀ a b, (mk a b).nesting = n)
    (width : ∀ a b, mid + 4 + 4 = pos + (mk a b).width) :
    SkipsAs pos (decodeTwoRegisters mk bs) (do
      let k ← skipField 4 { pos := mid, left := bs }
      let k ← skipField 4 k
      pure (n, k)) :=
  .bind (skipField_readField ..) fun a _ _ =>
    .bind (skipField_readField ..) fun b _ _ => nesting a b ▸ .done (width a b)

theorem SkipsAs.condHeader {mk : RegAddr → Cond → RegAddr → Instr} {n : Nesting}
    (nesting : ∀ a c b, (mk a c b).nesting = n) (width : ∀ a c b, mid + 4 + 2 + 4 = pos + (mk a c b).width) :
    SkipsAs pos (decodeCondHeader mk bs) (do
      let k ← skipField 4 { pos := mid, left := bs }
      let k ← skipField 2 k
      let k ← skipField 4 k
      pure (n, k)) :=
  .bind (skipField_readField ..) fun a _ _ => .bind (skipField_readCond ..) fun c _ _ =>
    .bind (skipField_readField ..) fun b _ _ => nesting a c b ▸ .done (width a c b)

end Operands

theorem skipBlock_decodeBlock (pos : Nat) (bs : Bits) :
    SkipsAs pos (decodeBlock bs) (skipBlock { pos := pos + 3, left := bs }) := by
  refine .select fun st hst rest => ?_
  interval_cases st
  -- goal `k + 1` is sub-type `k`; taken from the last on, so that none moves up
  on_goal 8 =>
    refine .select fun len _ rest => .bind (skipPayload_readBytes ..) fun payload rest' hpayload => ?_
    obtain ⟨rfl, _⟩ := readBytes_ok hpayload
    exact .done (Nat.add_assoc pos 22 (8 * payload.length))
  on_goal 7 => exact .condHeader (fun _ _ _ => rfl) (fun _ _ _ => rfl)
  on_goal 6 =>
    refine .select fun m hm rest => .bind (skipField_readField ..) fun a rest' _ => ?_
    interval_cases m <;> exact .bind (skipField_readField ..) fun _ _ _ => .done rfl
  on_goal 1 => exact .condHeader (fun _ _ _ => rfl) (fun _ _ _ => rfl)
  all_goals exact .oneField (fun _ => rfl) (fun _ => rfl)

/-- R171, R178: the two tables of widths agree on every instruction. -/
theorem skipInstruction_decode (pos : Nat) (bs : Bits) :
    SkipsAs pos (decode bs) (skipInstruction { pos := pos, left := bs }) := by
  refine .select fun tag htag rest => ?_
  interval_cases tag
  -- the tags 0 to 7 in order, each class by its selectors
  · exact .done rfl
  · refine .bind (skipField_readBits ..) fun mode rest hmode =>
      .bind (skipField_readField ..) fun a rest _ => ?_
    obtain ⟨hlt, _⟩ := readBits_ok hmode
    interval_cases mode <;> exact .done rfl
  · exact .bind (skipField_readField ..) fun _ _ _ => .done rfl
  · refine .select fun mode hmode rest => ?_
    interval_cases mode
    -- goal `k + 1` is selector `k`
    on_goal 6 =>
      refine .select fun w hw rest => .bind (skipField_readField ..) fun d rest _ => ?_
      interval_cases w <;> exact .bind (skipField_readField ..) fun _ _ _ => .done rfl
    all_goals exact .twoRegisters (fun _ _ => rfl) (fun _ _ => rfl)
  · refine .select fun mode hmode rest => ?_
    interval_cases mode
    on_goal 4 => exact .bind (skipField_readField ..) fun _ _ _ => .done rfl
    all_goals exact .oneField (fun _ => rfl) (fun _ => rfl)
  · exact skipBlock_decodeBlock pos rest
  · exact .done rfl
  · refine .select fun sc hsc rest => ?_
    interval_cases sc
    · exact .done rfl
    · exact .done rfl
    all_goals exact .oneField (fun _ => rfl) (fun _ => rfl)

/-! ## The loop -/

/-- Each walks over the same instructions, one per unit of fuel. -/
theorem captureLoop_eq_skipLoop (fuel depth pos : Nat) (bs : Bits) :
    captureLoop fuel depth pos bs = skipLoop fuel depth { pos := pos, left := bs } := by
  induction fuel generalizing depth pos bs with
  | zero => rfl
  | succ fuel ih =>
    have agrees := skipInstruction_decode pos bs
    unfold SkipsAs at agrees
    rw [captureLoop, skipLoop, agrees]
    cases decode bs with
    | error e => rfl
    | ok p =>
      obtain ⟨i, rest⟩ := p
      simp only [Except.map]
      cases i.nesting <;> simp only [ih]

/-- An instruction is at least a tag, so more fuel than bits is never used up. -/
theorem captureLoop_fuel {fuel fuel' : Nat} {bs : Bits} (enough : bs.length < fuel) (more : fuel ≤ fuel')
    (depth pos : Nat) : captureLoop fuel' depth pos bs = captureLoop fuel depth pos bs := by
  induction fuel generalizing fuel' depth pos bs with
  | zero => cases enough
  | succ fuel ih =>
    obtain ⟨fuel', rfl⟩ := Nat.exists_eq_succ_of_ne_zero (n := fuel') (by omega)
    cases hd : decode bs with
    | error e => rw [captureLoop, captureLoop, hd]
    | ok p =>
      obtain ⟨i, rest⟩ := p
      obtain ⟨wf, rfl⟩ := decode_ok hd
      rw [List.length_append, encode_length wf] at enough
      have tag := i.three_le_width
      rw [captureLoop_encode wf, captureLoop_encode wf, ih (by omega) (by omega)]

/-- Settles O53: the two loops agree on every instruction, and the capture's fuel is as good as any greater one. -/
theorem captureAgreesWithTheSkipEngine : Obligations.CaptureAgreesWithTheSkipEngine := by
  intro s start stop fuel enough
  rw [← captureLoop_eq_skipLoop, captureLoop_fuel (by rw [Memory.bits_length]; exact Nat.lt_succ_self _) enough]
  rfl

end Sys2Proof.Machine
end

section
/-! The nesting of bodies is kept by every step (R175, R178): what a block captures is nested, and behind each
instruction of a nested run the rest is nested. -/

namespace Sys2Proof.Machine

/-! ## What keeps the nesting -/

/-- The clause of `State.Structured` for one frame of the image `m`. -/
def Frame.Structured (m : Memory) (f : Frame) : Prop :=
  f.kind ≠ .root → Span.Nested m { start := f.pc, stop := f.body.stop } ∧ f.body.Nested m

theorem State.structured_iff {s : State} :
    s.Structured ↔ (∀ f ∈ s.frames, f.Structured s.mem) ∧ ∀ k sp, s.func k = some sp → sp.Nested s.mem :=
  Iff.rfl

/-- A frame that starts on a nested body. -/
theorem Frame.structured_of_body {m : Memory} {body : Span} {kind : FrameKind} (nested : body.Nested m) :
    Frame.Structured m { pc := body.start, body := body, kind := kind } :=
  fun _ => ⟨nested, nested⟩

section Operations

variable {s t : State} (h : s.Structured)

include h

/-- The default proofs are for an update that touches neither the image nor the function table. -/
theorem State.Structured.of_frames (frames : ∀ f ∈ t.frames, f.Structured s.mem) (mem : t.mem = s.mem := by rfl)
    (funcs : ∀ k sp, t.func k = some sp → s.func k = some sp := by exact fun _ _ entry => entry) : t.Structured := by
  obtain ⟨_, stored⟩ := State.structured_iff.mp h
  rw [State.structured_iff, mem]
  exact ⟨frames, fun k sp entry => stored k sp (funcs k sp entry)⟩

theorem State.Structured.endRun (ev : Event) : (s.endRun ev).Structured :=
  h.of_frames nofun

theorem State.Structured.setReg (a : RegAddr) (v : Word) : (s.setReg a v).Structured := h

theorem State.Structured.setFunc (k : FuncId) {body : Span} (nested : body.Nested s.mem) :
    (s.setFunc k (some body)).Structured := by
  obtain ⟨frames, stored⟩ := State.structured_iff.mp h
  refine ⟨frames, fun j sp entry => ?_⟩
  rw [State.setFunc_func] at entry
  split at entry
  · cases entry; exact nested
  · exact stored j sp entry

theorem State.Structured.enter (kind : FrameKind) {body : Span} (nested : body.Nested s.mem) :
    (s.enter kind body).Structured := by
  obtain ⟨_, henter⟩ | ⟨_, henter⟩ := s.enter_cases kind body <;> rw [henter]
  · exact h.endRun _
  · exact ⟨List.forall_mem_cons.2 ⟨Frame.structured_of_body nested, h.1⟩, h.2⟩

variable {f : Frame} {below : List Frame} (top : s.frames = f :: below)

include top

theorem State.Structured.of_top : f.Structured s.mem := h.1 f (top ▸ List.mem_cons_self)

theorem State.Structured.of_below : ∀ g ∈ below, g.Structured s.mem := fun g hg =>
  h.1 g (top ▸ List.mem_cons_of_mem f hg)

theorem State.Structured.replaceTop {f' : Frame} (replaced : f'.Structured s.mem) :
    ∀ g ∈ f' :: below, g.Structured s.mem :=
  List.forall_mem_cons.2 ⟨replaced, h.of_below top⟩

theorem State.Structured.restart {kind : FrameKind} (wasNotRoot : f.kind ≠ .root) :
    (s.restart f kind below).Structured := by
  obtain ⟨_, body⟩ := h.of_top top wasNotRoot
  exact h.of_frames (h.replaceTop top (Frame.structured_of_body body))

end Operations

/-- R106: a body that is executed again starts at its first bit. -/
theorem State.Structured.frameEnd {s t : State} (h : s.Structured) (hend : s.frameEnd = .next t) : t.Structured := by
  obtain ⟨f, below, top, hcase⟩ := State.frameEnd_cases hend
  cases hcase with
  | endOfStream _ result => exact result ▸ h.endRun _
  | pop _ result => exact result ▸ h.of_frames (h.of_below top)
  | again _ kind _ result => exact result ▸ h.restart top (by simp [kind])
  | next a _ _ kind _ result => exact result ▸ (h.restart top (by simp [kind])).setReg a _
  | loop _ _ _ kind _ result => exact result ▸ h.restart top (by simp [kind])

theorem BodyCase.structured {i : Instr} {u t : State} {body : Span} (h : u.Structured)
    (nested : body.Nested u.mem) (hcase : BodyCase i u body t) : t.Structured := by
  cases hcase with
  | skips result => exact result ▸ h
  | defines k _ result => exact result ▸ h.setFunc k nested
  | enters kind _ _ result => exact result ▸ h.enter kind nested
  | counts a n _ _ result => exact result ▸ (h.setReg a _).enter (.counts a 1 n) nested

/-! ## The three kinds of instructions (R173) -/

/-- A body-bearing BLOCK captures its body and acts on it (R185). -/
theorem exec_of_opens {i : Instr} (opens : i.nesting = .opens) (s : State) :
    ∃ act, exec i s = s.withBody i.width act ∧ ∀ body u, BodyCase i u body (act body u) := by
  cases i with
  | ifBlock a1 c a2 =>
    unfold exec execIf
    exact ⟨_, rfl, fun body u => .of_guard _ (kind := .once) nofun body u fun _ _ => trivial⟩
  | repeatBlock a =>
    unfold exec execRepeat
    exact ⟨_, rfl, fun body u =>
      .of_guard _ (kind := .repeats (s.reg a).toNat) nofun body u fun hk _ => ⟨hk, (s.reg a).isLt⟩⟩
  | funcDef k =>
    unfold exec execFuncDef
    exact ⟨_, rfl, fun _ _ => .defines k rfl rfl⟩
  | forImm a n =>
    unfold exec execForImm
    exact ⟨_, rfl, .of_forStart a (n.isLt.trans (by decide))⟩
  | forReg a a2 =>
    unfold exec execForReg
    exact ⟨_, rfl, .of_forStart a (s.reg a2).isLt⟩
  | whileBlock a1 c a2 =>
    unfold exec execWhile
    exact ⟨_, rfl, fun body u => .of_guard _ (kind := .loops a1 c a2) nofun body u fun _ _ => trivial⟩
  | _ => cases opens

/-- What an instruction that is neither a body-bearing BLOCK nor an END does with the frames: a CALL enters a stored
body, and the others do nothing but move past the instruction, wait, or end the run. -/
inductive FlatCase (i : Instr) (s t : State) : Prop where
  | ended (frames : t.frames = [])
  | waits (frames : t.frames = s.frames)
  | advanced (frames : t.frames = advanceTop i.width s.frames)
  | called (k : FuncId) (body : Span) (stored : s.func k = some body)
      (frames : t.frames = { pc := body.start, body := body, kind := .call } :: advanceTop i.width s.frames)

theorem FlatCase.of_inputNumber {i : Instr} {s t : State} {radix : Nat} {a : RegAddr} (hw : i.width = 9)
    (h : inputNumber radix a s = .next t) : FlatCase i s t := by
  obtain ⟨_, rfl⟩ | ⟨_, _, _, ⟨_, rfl⟩ | ⟨_, _, rfl⟩⟩ := inputNumber_cases h
  · exact .waits rfl
  · exact .ended rfl
  · exact .advanced (by rw [hw]; rfl)

theorem execPush_flatCase {a : RegAddr} {s t : State} (h : execPush a s = .next t) : FlatCase (.push a) s t := by
  cases h
  obtain ⟨_, hpush⟩ | ⟨_, hpush⟩ := (s.advance 10).pushEntry_cases (s.reg a) <;> rw [hpush]
  · exact .ended rfl
  · exact .advanced rfl

theorem execPop_flatCase {a : RegAddr} {s t : State} (h : execPop a s = .next t) : FlatCase (.pop a) s t := by
  unfold execPop at h
  split at h <;> cases h
  · exact .ended rfl
  · exact .advanced rfl

theorem execPchr_flatCase {a : RegAddr} {s t : State} (h : execPchr a s = .next t) : FlatCase (.pchr a) s t := by
  unfold execPchr at h
  split at h <;> cases h
  · exact .advanced rfl
  · exact .ended rfl

theorem execDpm_flatCase {payload : List Byte} {s t : State} (h : execDpm payload s = .next t) :
    FlatCase (.dpm payload) s t := by
  unfold execDpm at h
  split at h <;> cases h
  · exact .ended rfl
  · exact .advanced rfl

theorem execCall_flatCase {k : FuncId} {s t : State} (h : execCall k s = .next t) : FlatCase (.call k) s t := by
  unfold execCall at h
  split at h
  · cases h; exact .advanced rfl
  next body stored =>
    split at h
    · cases h
      obtain ⟨_, henter⟩ | ⟨_, henter⟩ := (s.advance 10).enter_cases .call body <;> rw [henter]
      · exact .ended rfl
      · exact .called k body stored rfl
    · cases h; exact .advanced rfl

theorem exec_flatCase {i : Instr} {s t : State} (flat : i.nesting = .flat) (h : exec i s = .next t) :
    FlatCase i s t := by
  cases i with
  | push a => exact execPush_flatCase h
  | pop a => exact execPop_flatCase h
  | pchr a => exact execPchr_flatCase h
  | dpm payload => exact execDpm_flatCase h
  | call k => exact execCall_flatCase h
  | inHex a | inDec a => exact .of_inputNumber rfl h
  | halt | fail => cases h; exact .ended rfl
  | ifBlock | repeatBlock | funcDef | forImm | forReg | whileBlock | blockEnd => cases flat
  | _ => cases h; exact .advanced rfl

/-- Only FUNCDEF, a body-bearing BLOCK, stores a function (R189). -/
theorem DataCase.func_of_flat {i : Instr} {s t : State} (flat : i.nesting = .flat) (h : DataCase i s t) (k : FuncId)
    (sp : Span) (entry : t.func k = some sp) : s.func k = some sp := by
  cases h with
  | define j body instr _ => subst instr; cases flat
  | undefine j instr same =>
    rw [same.func, State.setFunc_func] at entry
    split at entry
    · cases entry
    · exact entry
  | _ => rename_i same; exact same.func k ▸ entry

/-! ## The step -/

section Instruction

variable {s t : State} {f : Frame} {below : List Frame} {i : Instr} {rest : Bits} (h : s.Structured)
  (top : s.frames = f :: below) (decoded : decode (s.remaining f) = .ok (i, rest))

include h top decoded

theorem State.Structured.advance_flat (flat : i.nesting = .flat) :
    ∀ g ∈ advanceTop i.width s.frames, g.Structured s.mem := by
  rw [top]
  refine h.replaceTop top fun notRoot => ?_
  obtain ⟨nested, body⟩ := h.of_top top notRoot
  obtain ⟨_, tail⟩ := (wellNested_iff.mp nested).of_decode decoded
  rw [flat, ← State.bits_behind_decoded decoded] at tail
  exact ⟨wellNested_iff.mpr tail, body⟩

theorem exec_structured_of_flat (flat : i.nesting = .flat) (hexec : exec i s = .next t) : t.Structured := by
  have data := exec_data hexec
  obtain ⟨mem, _⟩ := data.sameImage
  refine h.of_frames ?_ mem (data.func_of_flat flat)
  have moved := h.advance_flat top decoded flat
  cases exec_flatCase flat hexec with
  | ended frames => rw [frames]; nofun
  | waits frames => rw [frames]; exact h.1
  | advanced frames => rw [frames]; exact moved
  | called k body stored frames =>
    rw [frames]
    exact List.forall_mem_cons.2 ⟨Frame.structured_of_body (h.2 k body stored), moved⟩

/-- The capture of the step and the END that the nesting of the frame promises are the same. -/
theorem State.Structured.moveTo_behind {body : Span} (opens : i.nesting = .opens)
    (captured : s.capture (f.pc + i.width) f.body.stop = .ok body) : (s.moveTo (body.stop + 3)).Structured := by
  refine h.of_frames ?_
  rw [s.moveTo_frames_cons _ top]
  refine h.replaceTop top fun notRoot => ?_
  obtain ⟨nested, whole⟩ := h.of_top top notRoot
  obtain ⟨body', captured', behind⟩ := State.capture_of_opens nested decoded opens
  cases captured.symm.trans captured'
  exact ⟨behind, whole⟩

theorem exec_structured_of_opens (opens : i.nesting = .opens) (hexec : exec i s = .next t) : t.Structured := by
  obtain ⟨act, hblock, hact⟩ := exec_of_opens opens s
  rw [hblock, State.withBody_eq _ _ top] at hexec
  cases captured : s.capture (f.pc + i.width) f.body.stop with
  | error e => rw [captured] at hexec; cases hexec; exact h.endRun _
  | ok body =>
    rw [captured] at hexec
    cases hexec
    exact (hact body _).structured (h.moveTo_behind top decoded opens captured) (State.capture_nested captured)

/-- An END ends the run in the root frame; in a body it is never decoded. -/
theorem execBlockEnd_structured (closes : i.nesting = .closes) (hexec : exec i s = .next t) : t.Structured := by
  have root : f.kind = .root := by
    by_contra notRoot
    obtain ⟨nested, _⟩ := h.of_top top notRoot
    obtain ⟨closable, _⟩ := (wellNested_iff.mp nested).of_decode decoded
    exact Nat.lt_irrefl 0 (closable closes)
  obtain rfl := eq_blockEnd_of_closes closes
  rw [exec, execBlockEnd_of_root top root] at hexec
  cases hexec
  exact h.endRun _

theorem exec_structured (hexec : exec i s = .next t) : t.Structured := by
  cases nesting : i.nesting with
  | opens => exact exec_structured_of_opens h top decoded nesting hexec
  | flat => exact exec_structured_of_flat h top decoded nesting hexec
  | closes => exact execBlockEnd_structured h top decoded nesting hexec

end Instruction

/-- Settles O56: a frame's end restarts a nested body, and behind a decoded instruction or block a nested run goes
on. The nesting alone is kept, without the rest of the invariant. -/
theorem everyStepKeepsBodiesNested : Obligations.EveryStepKeepsBodiesNested := by
  intro s t _ h hstep
  cases step_cases hstep with
  | ended _ result => exact result ▸ h
  | frameEnd _ result => exact h.frameEnd result
  | unexpectedEnd _ result => exact result ▸ h.endRun _
  | instruction f below i rest _ top decoded result => exact exec_structured h top decoded result

end Sys2Proof.Machine
end

section
/-! The body-bearing blocks IF, REPEAT, FUNCDEF, FOR and WHILE (R187 to R195): each is the capture of its body and then
one act on the state behind its END. With them FUNCUNDEF, and CALL, which enters a body that was captured before. -/

namespace Sys2Proof.Machine

theorem conditionBits_eq (c : Cond) : conditionBits c = bitsOf 2 c.code := by
  cases c <;> rfl

/-! ## A block behind its header (R105, R176) -/

section Block

variable {s : State} {f : Frame} {below : List Frame} (top : s.frames = f :: below)

include top

theorem State.moveTo_eq (target : Nat) :
    s.moveTo target = { s with frames := { f with pc := target } :: below } := by
  rw [← s.moveTo_frames_cons target top]
  rfl

theorem State.advance_eq (n : Nat) : s.advance n = { s with frames := { f with pc := f.pc + n } :: below } := by
  rw [← advanceTop_cons, ← top]
  rfl

variable {i : Instr} {header : Nat} {body : Span} {act : Span → State → State}

theorem exec_of_captured (block : exec i s = s.withBody header act)
    (captured : s.capture (f.pc + header) f.body.stop = .ok body) :
    exec i s = .next (act body (s.moveTo (body.stop + 3))) := by
  rw [block, State.withBody_eq header act top, captured]

/-- R176: whatever the block does with its body, without one it ends the run. -/
theorem failsUncaptured_of_withBody (block : exec i s = s.withBody header act) : FailsUncaptured header i s f := by
  intro fails
  refine ⟨s.endRun .unexpectedEnd, ?_, s.endRun_ended .unexpectedEnd⟩
  rw [block, State.withBody_eq header act top, fails]

theorem skipped_of_idle (result : exec i s = .next (s.moveTo (body.stop + 3))) : Skipped i s f below body := by
  rw [Skipped, result, State.moveTo_eq top]

/-- R107: `r` is the state with the block's register write, from which the frame is entered. -/
theorem entered_of_enter {r : State} {kind : FrameKind} (frames : r.frames = s.frames) (params : r.params = s.params)
    (result : exec i s = .next ((r.moveTo (body.stop + 3)).enter kind body)) : Entered i s r f below body kind := by
  have depth : (r.moveTo (body.stop + 3)).frames.length = s.frames.length :=
    (r.moveTo_frames_length _).trans (congrArg List.length frames)
  refine ⟨fun room => ?_, fun full => ?_⟩
  · rw [result, State.enter_of_room (room.congr (v := r.moveTo _) params depth), State.moveTo_eq (frames.trans top)]
  · rw [result, State.enter_of_full (full.congr (v := r.moveTo _) params depth)]
    exact ⟨_, rfl, (r.moveTo _).endRun_ended .framesExhausted⟩

/-- IF, REPEAT and WHILE: a body entered exactly when the test that the block makes at entry holds. -/
theorem testedBlock_entersExactlyWhen {test : Prop} [Decidable test] {holds : Prop} {kind : FrameKind}
    (test_iff : test ↔ holds)
    (block : exec i s = s.withBody header fun body t => if test then t.enter kind body else t) :
    FailsUncaptured header i s f ∧ ∀ body, s.capture (f.pc + header) f.body.stop = .ok body →
      (¬ holds → Skipped i s f below body) ∧ (holds → Entered i s s f below body kind) := by
  refine ⟨failsUncaptured_of_withBody top block, fun body captured => ?_⟩
  have result := exec_of_captured top block captured
  rw [← test_iff]
  refine ⟨fun fails => ?_, fun passes => ?_⟩
  · rw [if_neg fails] at result
    exact skipped_of_idle top result
  · rw [if_pos passes] at result
    exact entered_of_enter top rfl rfl result

/-- R194: both forms of FOR, for the count that each samples; the index write commutes with the move past the END. -/
theorem forBlock_starts {a : RegAddr} {n : Nat}
    (block : exec i s = s.withBody header fun body t => t.forStart a n body) :
    FailsUncaptured header i s f ∧ ∀ body, s.capture (f.pc + header) f.body.stop = .ok body →
      ForStarts i a n s f below body := by
  refine ⟨failsUncaptured_of_withBody top block, fun body captured => ?_⟩
  have result := exec_of_captured top block captured
  refine ⟨fun zero => ?_, fun positive => ?_⟩
  · rw [State.forStart, if_neg (by omega)] at result
    exact skipped_of_idle top result
  · rw [State.forStart, if_pos positive] at result
    exact ⟨s.setReg a 1, s.setReg_writesRegister a 1, s.setReg_sameButRegisters a 1,
      entered_of_enter top rfl rfl result⟩

end Block

/-! ## The obligations about blocks -/

/-- Settles O26: IF is the tested block of R186's comparison, with a Once frame. -/
theorem ifEntersItsBodyExactlyWhenTheConditionHolds : Obligations.IfEntersItsBodyExactlyWhenTheConditionHolds := by
  intro a1 c a2 s f below top
  rw [conditionBits_eq]
  exact ⟨encodedAs_of_encode_eq rfl rfl, testedBlock_entersExactlyWhen top (condHolds_iff_comparison ..) rfl⟩

/-- Settles O27: REPEAT is the tested block of a count of at least 1; its frame's end looks at the kept count only. -/
theorem repeatSamplesItsCountAtEntry : Obligations.RepeatSamplesItsCountAtEntry := by
  refine ⟨fun a s f below top => ?_, fun k s f below running top kind atEnd => ?_⟩
  · obtain ⟨fails, captures⟩ := testedBlock_entersExactlyWhen (i := .repeatBlock a) top Iff.rfl rfl
    refine ⟨encodedAs_of_encode_eq rfl rfl, fails, fun body captured => ?_⟩
    obtain ⟨skips, enters⟩ := captures body captured
    exact ⟨fun zero => skips (by omega), enters⟩
  · rw [step_of_none_left running top (by omega)]
    exact ⟨State.frameEnd_repeats_again top kind, State.frameEnd_repeats_last top kind⟩

/-- Settles O28: both are the one store to the function table, FUNCDEF behind the END and FUNCUNDEF 10 bits on. -/
theorem funcDefAndFuncUndefWriteOneEntry : Obligations.FuncDefAndFuncUndefWriteOneEntry := by
  intro id s f below top
  have block : exec (.funcDef id) s = s.withBody 10 fun body t => t.setFunc id (some body) := rfl
  refine ⟨encodedAs_of_encode_eq rfl rfl, encodedAs_of_encode_eq rfl rfl, failsUncaptured_of_withBody top block,
    fun body captured => ?_, ?_⟩
  · refine ⟨_, exec_of_captured top block captured, State.setFunc_func _ id _, ?_⟩
    rw [State.moveTo_eq top]
    rfl
  · refine ⟨(s.advance 10).setFunc id none, rfl, State.setFunc_func _ id _, ?_⟩
    rw [State.advance_eq top]
    rfl

/-- Settles O30: both forms start alike, each with its own count; a later index write is the end of a For frame. -/
theorem forWritesTheIterationNumberAndEntersItsBody : Obligations.ForWritesTheIterationNumberAndEntersItsBody := by
  refine ⟨fun a a2 n s f below top => ?_, fun a i n s f below running top kind atEnd => ?_⟩
  · obtain ⟨immFails, immStarts⟩ := forBlock_starts (i := .forImm a n) top rfl
    obtain ⟨regFails, regStarts⟩ := forBlock_starts (i := .forReg a a2) top rfl
    exact ⟨encodedAs_of_encode_eq rfl rfl, encodedAs_of_encode_eq rfl rfl, immFails, regFails, immStarts, regStarts⟩
  · rw [step_of_none_left running top (by omega)]
    exact ⟨fun more => ⟨_, State.frameEnd_counts_next top kind more, State.setReg_writesRegister _ a _,
      State.setReg_sameButRegisters _ a _⟩, State.frameEnd_counts_last top kind⟩

/-- Settles O31: WHILE is the tested block of R186's comparison, which the end of its frame makes again. -/
theorem whileEntersItsBodyExactlyWhenTheConditionHolds :
    Obligations.WhileEntersItsBodyExactlyWhenTheConditionHolds := by
  refine ⟨fun a1 c a2 s f below top => ?_, fun a1 c a2 s f below running top kind atEnd => ?_⟩
  · rw [conditionBits_eq]
    exact ⟨encodedAs_of_encode_eq rfl rfl, testedBlock_entersExactlyWhen top (condHolds_iff_comparison ..) rfl⟩
  · rw [step_of_none_left running top (by omega)]
    exact ⟨State.frameEnd_loops_again top kind, State.frameEnd_loops_last top kind⟩

/-! ## CALL (R191) -/

theorem execCall_of_absent {id : FuncId} {s : State} (absent : s.func id = none) :
    execCall id s = .next (s.advance 10) := by
  simp only [execCall, absent]

theorem execCall_of_empty {id : FuncId} {s : State} {body : Span} (stored : s.func id = some body)
    (empty : ¬ body.start < body.stop) : execCall id s = .next (s.advance 10) := by
  simp only [execCall, stored, if_neg empty]

theorem execCall_of_nonempty {id : FuncId} {s : State} {body : Span} (stored : s.func id = some body)
    (nonempty : body.start < body.stop) : execCall id s = .next ((s.advance 10).enter .call body) := by
  simp only [execCall, stored, if_pos nonempty]

/-- Settles O29: the three cases of the entry; the advance leaves the number of frames that R107 tests. -/
theorem callEntersNonEmptyBodiesOnly : Obligations.CallEntersNonEmptyBodiesOnly := by
  intro id s f below top
  refine ⟨encodedAs_of_encode_eq rfl rfl, fun nothing => ?_, fun body stored nonempty => ?_⟩
  · rw [← State.advance_eq top]
    rcases nothing with absent | ⟨e, stored⟩
    · exact execCall_of_absent absent
    · exact execCall_of_empty stored (Nat.lt_irrefl e)
  · have depth := s.advance_frames_length 10
    rw [show exec (.call id) s = _ from execCall_of_nonempty stored nonempty]
    refine ⟨fun room => ?_, fun full => ?_⟩
    · rw [State.enter_of_room (room.congr (v := s.advance 10) rfl depth), State.advance_eq top]
    · rw [State.enter_of_full (full.congr (v := s.advance 10) rfl depth)]
      exact ⟨_, rfl, (s.advance 10).endRun_ended .framesExhausted⟩

end Sys2Proof.Machine
end

section
/-! DPM (R196) and the UTF-8 of its payload (R200): the decoder takes exactly the units of the table. -/

namespace Sys2Proof.Machine

theorem execDpm_of_text {payload : List Byte} {text : List Scalar} (decodes : utf8Decode payload = some text)
    (s : State) : execDpm payload s = .next ((s.advance (22 + 8 * payload.length)).emit text) := by
  simp only [execDpm, decodes]

theorem execDpm_of_no_text {payload : List Byte} (malformed : utf8Decode payload = none) (s : State) :
    execDpm payload s = .next ((s.advance (22 + 8 * payload.length)).endRun .invalidCharacter) := by
  simp only [execDpm, malformed]

/-- Settles O32: the two outcomes of decoding the payload; the bound on its length is what gives it an encoding. -/
theorem dpmEmitsItsPayloadVerbatim : Obligations.DpmEmitsItsPayloadVerbatim := by
  intro payload s fits
  exact ⟨encodedAs_of_encode_eq (decide_eq_true fits) rfl, fun _ decodes => execDpm_of_text decodes s,
    fun malformed => ⟨_, execDpm_of_no_text malformed s, State.endRun_ended _ .invalidCharacter⟩⟩

/-! ## The rows of the table -/

/-- The third row of R200: the second byte's range, by the first byte. -/
theorem within_and_secondOfThree_iff (b0 b1 : Byte) :
    within 0xE0 0xEF b0 = true ∧ secondOfThree b0 b1 = true ↔
      InRange 0xE0 0xE0 b0 ∧ InRange 0xA0 0xBF b1 ∨ InRange 0xE1 0xEC b0 ∧ InRange 0x80 0xBF b1 ∨
        InRange 0xED 0xED b0 ∧ InRange 0x80 0x9F b1 ∨ InRange 0xEE 0xEF b0 ∧ InRange 0x80 0xBF b1 := by
  unfold secondOfThree InRange
  split_ifs <;> simp only [within_iff] <;> omega

/-- The fourth row of R200. -/
theorem within_and_secondOfFour_iff (b0 b1 : Byte) :
    within 0xF0 0xF4 b0 = true ∧ secondOfFour b0 b1 = true ↔
      InRange 0xF0 0xF0 b0 ∧ InRange 0x90 0xBF b1 ∨ InRange 0xF1 0xF3 b0 ∧ InRange 0x80 0xBF b1 ∨
        InRange 0xF4 0xF4 b0 ∧ InRange 0x80 0x8F b1 := by
  unfold secondOfFour InRange
  split_ifs <;> simp only [within_iff] <;> omega

/-- What tells the rows of R200 apart: a first byte above a row's range is not of that row. -/
theorem not_within_of_lt {lo hi : Nat} {b : Byte} (above : hi < b.toNat) : ¬ within lo hi b = true := by
  rw [within_iff]
  omega

/-! ## A unit in front -/

/-- A unit of the table in front of other bytes gives its scalar value, and the others are decoded for themselves. -/
theorem utf8Decode_unit_append {unit : List Byte} {c : Nat} (isUnit : Utf8Unit unit c) (rest : List Byte) :
    utf8Decode (unit ++ rest) = (utf8Decode rest).map (c :: ·) := by
  match unit, isUnit with
  | [b0], ⟨h0, hc⟩ =>
    rw [hc, List.singleton_append, utf8Decode.eq_def]
    dsimp only
    rw [if_pos ((within_iff ..).mpr h0)]
  | [b0, b1], ⟨h0, h1, hc⟩ =>
    have ⟨above, _⟩ := h0
    rw [hc, List.cons_append, List.singleton_append, utf8Decode.eq_def]
    dsimp only
    rw [if_neg (not_within_of_lt (by omega)), if_pos ((within_iff ..).mpr h0), if_pos ((within_iff ..).mpr h1)]
  | [b0, b1, b2], ⟨h01, h2, hc⟩ =>
    obtain ⟨w0, w1⟩ := (within_and_secondOfThree_iff b0 b1).mpr h01
    have ⟨above, _⟩ := (within_iff ..).mp w0
    rw [hc, List.cons_append, List.cons_append, List.singleton_append, utf8Decode.eq_def]
    dsimp only
    rw [if_neg (not_within_of_lt (by omega)), if_neg (not_within_of_lt (by omega)), if_pos w0, w1,
      (within_iff ..).mpr h2, Bool.and_self, if_pos rfl]
  | [b0, b1, b2, b3], ⟨h01, h2, h3, hc⟩ =>
    obtain ⟨w0, w1⟩ := (within_and_secondOfFour_iff b0 b1).mpr h01
    have ⟨above, _⟩ := (within_iff ..).mp w0
    rw [hc, List.cons_append, List.cons_append, List.cons_append, List.singleton_append, utf8Decode.eq_def]
    dsimp only
    rw [if_neg (not_within_of_lt (by omega)), if_neg (not_within_of_lt (by omega)),
      if_neg (not_within_of_lt (by omega)), if_pos w0, w1, (within_iff ..).mpr h2, (within_iff ..).mpr h3,
      Bool.and_self, Bool.and_self, if_pos rfl]

/-! ## Concatenations of units -/

/-- R200: the bytes are a concatenation of units of the table, whose scalar values are the text. -/
def Utf8Units (bytes : List Byte) (text : List Scalar) : Prop :=
  ∃ units : List (List Byte), bytes = units.flatten ∧ List.Forall₂ Utf8Unit units text

theorem Utf8Units.nil : Utf8Units [] [] := ⟨[], rfl, .nil⟩

theorem Utf8Units.cons {unit rest : List Byte} {c : Nat} {text : List Scalar} (isUnit : Utf8Unit unit c)
    (h : Utf8Units rest text) : Utf8Units (unit ++ rest) (c :: text) := by
  obtain ⟨units, rfl, areUnits⟩ := h
  exact ⟨unit :: units, rfl, .cons isUnit areUnits⟩

/-- Each branch of the decoder that succeeds has this shape: a unit's value in front of what it decodes behind it. -/
theorem Utf8Units.of_map_cons {unit rest : List Byte} {c : Nat} {text : List Scalar} (isUnit : Utf8Unit unit c)
    (decodes : (utf8Decode rest).map (c :: ·) = some text)
    (behind : ∀ cs, utf8Decode rest = some cs → Utf8Units rest cs) : Utf8Units (unit ++ rest) text := by
  obtain ⟨cs, hcs, rfl⟩ := Option.map_eq_some_iff.mp decodes
  exact (behind cs hcs).cons isUnit

theorem Utf8Units.of_utf8Decode {bytes : List Byte} {text : List Scalar} (h : utf8Decode bytes = some text) :
    Utf8Units bytes text := by
  fun_induction utf8Decode bytes generalizing text with
  | case1 => cases h; exact .nil
  | case2 b0 r0 h0 ih => exact .of_map_cons (unit := [b0]) ⟨(within_iff ..).mp h0, rfl⟩ h fun _ => ih
  | case4 b0 _ b1 r1 h0 h1 ih =>
    exact .of_map_cons (unit := [b0, b1]) ⟨(within_iff ..).mp h0, (within_iff ..).mp h1, rfl⟩ h fun _ => ih
  | case7 b0 _ b1 _ b2 r2 h0 h12 ih =>
    obtain ⟨h1, h2⟩ := (Bool.and_eq_true _ _).mp h12
    exact .of_map_cons (unit := [b0, b1, b2])
      ⟨(within_and_secondOfThree_iff b0 b1).mp ⟨h0, h1⟩, (within_iff ..).mp h2, rfl⟩ h fun _ => ih
  | case10 b0 _ b1 _ b2 _ b3 r3 h0 h123 ih =>
    obtain ⟨h12, h3⟩ := (Bool.and_eq_true _ _).mp h123
    obtain ⟨h1, h2⟩ := (Bool.and_eq_true _ _).mp h12
    exact .of_map_cons (unit := [b0, b1, b2, b3])
      ⟨(within_and_secondOfFour_iff b0 b1).mp ⟨h0, h1⟩, (within_iff ..).mp h2, (within_iff ..).mp h3, rfl⟩ h
      fun _ => ih
  | _ => cases h

theorem utf8Decode_flatten {units : List (List Byte)} {text : List Scalar}
    (areUnits : List.Forall₂ Utf8Unit units text) : utf8Decode units.flatten = some text := by
  induction areUnits with
  | nil => rfl
  | cons isUnit _ ih => rw [List.flatten_cons, utf8Decode_unit_append isUnit, ih, Option.map_some]

/-- Settles O33: each branch of the decoder takes a unit of its row, and each unit takes its branch. -/
theorem utf8DecodesExactlyTheUnitsOfTheTable : Obligations.Utf8DecodesExactlyTheUnitsOfTheTable := by
  refine fun bytes text => ⟨Utf8Units.of_utf8Decode, ?_⟩
  rintro ⟨units, rfl, areUnits⟩
  exact utf8Decode_flatten areUnits

end Sys2Proof.Machine
end

section
/-! BLOCK-END (R197): in a body frame it is the frame's end, wherever in the body it stands. -/

namespace Sys2Proof.Machine

/-- R106: what the end of a frame does depends on the frame's kind and body, not on where its cursor stands. -/
theorem State.frameEnd_of_pc {s : State} {f : Frame} {below : List Frame} (top : s.frames = f :: below) (pc : Nat) :
    { s with frames := { f with pc := pc } :: below }.frameEnd = s.frameEnd := by
  unfold State.frameEnd
  simp only [top]
  cases f.kind <;> rfl

/-- Settles O34: in a body both the END and the step at the body's end are the frame's end, at two cursors. -/
theorem blockEndEndsTheCurrentFrame : Obligations.BlockEndEndsTheCurrentFrame := by
  intro s f below top
  refine ⟨encodedAs_of_encode_eq rfl rfl, fun root => ?_, fun notRoot => ?_⟩
  · exact ⟨_, execBlockEnd_of_root top root, (s.advance 3).endRun_ended .rootBlockEnd, rfl⟩
  · have ends : exec .blockEnd s = s.frameEnd := by
      rw [← State.frameEnd_of_pc top (f.pc + 3), ← State.advance_eq top]
      exact execBlockEnd_of_not_root top notRoot
    rw [ends]
    refine ⟨State.frameEnd_next top, fun running => ?_⟩
    rw [step_of_none_left (s := { s with frames := { f with pc := f.body.stop } :: below }) running rfl
      (Nat.sub_self _), State.frameEnd_of_pc top]

end Sys2Proof.Machine
end

section
/-! The class IO (R215 to R221): the halts, and the numbers that the input instructions read. -/

namespace Sys2Proof.Machine

/-! ## The input grammar (R220) -/

/-- The ranges of the digits are disjoint, so that their order in the model does not matter. -/
theorem digitValue_eq_some_iff {radix c d : Nat} : digitValue radix c = some d ↔ IsDigit radix c d := by
  unfold digitValue IsDigit
  split_ifs
  case neg =>
    rw [false_iff]
    omega
  all_goals
    rw [Option.some.injEq]
    omega

theorem digitsValueFrom_cons_eq_some_iff {radix w c v : Nat} {cs : List Scalar} :
    digitsValueFrom radix w (c :: cs) = some v ↔
      ∃ d, IsDigit radix c d ∧ digitsValueFrom radix (w * radix + d) cs = some v := by
  rw [digitsValueFrom]
  simp only [← digitValue_eq_some_iff]
  cases digitValue radix c <;> simp

/-- Behind digits that spell `w`, the loop of `value(line, radix)` succeeds on digits only, and with what they spell. -/
theorem digitsValueFrom_eq_some_iff {radix w v : Nat} {cs : List Scalar} :
    digitsValueFrom radix w cs = some v ↔
      ∃ ds : List Nat, List.Forall₂ (IsDigit radix) cs ds ∧ ds.foldl (fun n d => n * radix + d) w = v := by
  induction cs generalizing w with
  | nil => simp [digitsValueFrom]
  | cons c cs ih =>
    rw [digitsValueFrom_cons_eq_some_iff]
    constructor
    · rintro ⟨d, digit, value⟩
      obtain ⟨ds, digits, spells⟩ := ih.mp value
      exact ⟨d :: ds, .cons digit digits, spells⟩
    · rintro ⟨_, digit | ⟨digit, digits⟩, spells⟩
      exact ⟨_, digit, ih.mpr ⟨_, digits, spells⟩⟩

theorem parseLine_eq_some_iff {radix v : Nat} {line : List Scalar} :
    parseLine radix line = some v ↔ line ≠ [] ∧ digitsValueFrom radix 0 line = some v := by
  cases line <;> simp [parseLine]

/-- Settles O38: by induction on the line, for the value of the digits read before it; it holds in every radix. -/
theorem inputGrammarIsStrictDigits : Obligations.InputGrammarIsStrictDigits := fun _ _ _ _ =>
  parseLine_eq_some_iff.trans (and_congr_right fun _ => digitsValueFrom_eq_some_iff)

/-! ## Reading a line (R218 to R221) -/

theorem inputNumber_of_no_line {s : State} (noLine : s.input = []) (radix : Nat) (a : RegAddr) :
    inputNumber radix a s = .next s := by
  simp only [inputNumber, noLine]

section Line

variable {s : State} {line : List Scalar} {later : List (List Scalar)} (delivered : s.input = line :: later)
  {radix : Nat} (a : RegAddr)

include delivered

theorem inputNumber_of_malformed (malformed : parseLine radix line = none) :
    inputNumber radix a s = .next (({ s with input := later }.advance 9).endRun .malformedInput) := by
  simp only [inputNumber, delivered, malformed]

theorem inputNumber_of_number {v : Nat} (number : parseLine radix line = some v) :
    inputNumber radix a s = .next (({ s with input := later }.advance 9).setReg a (toWord v)) := by
  simp only [inputNumber, delivered, number]

theorem inputNumber_rejects (malformed : parseLine radix line = none) :
    ∃ t, inputNumber radix a s = .next t ∧ Ended .isaFault 2 { s with input := later } t :=
  ⟨_, inputNumber_of_malformed delivered a malformed, State.endRun_ended _ .malformedInput⟩

theorem inputNumber_writes (v : Nat) (number : parseLine radix line = some v) :
    ∃ t, inputNumber radix a s = .next t ∧ SameButRegisters 9 { s with input := later } t ∧
      WritesRegister s t a (BitVec.ofNat 32 (v % 2 ^ 32)) := by
  rw [← toWord_eq_ofNat_mod]
  exact ⟨_, inputNumber_of_number delivered a number, State.setReg_advance_sameButRegisters _ 9 a _,
    State.setReg_advance_writesRegister { s with input := later } 9 a _⟩

end Line

/-! ## The obligations about instructions -/

/-- Settles O35: the two halts are the ends of the run by their events, after an advance of which nothing is left. -/
theorem haltAndFailEndTheWholeRun : Obligations.HaltAndFailEndTheWholeRun := fun s =>
  ⟨encodedAs_of_encode_eq rfl rfl, encodedAs_of_encode_eq rfl rfl,
    ⟨_, rfl, (s.advance 5).endRun_ended .haltSuccess, rfl⟩, ⟨_, rfl, (s.advance 5).endRun_ended .haltFailure, rfl⟩⟩

/-- Settles O36: both instructions are the one reading of a line, in radix 16 and in radix 10. -/
theorem inputInstructionsReadOneLine : Obligations.InputInstructionsReadOneLine := fun a _ _ _ delivered =>
  ⟨encodedAs_of_encode_eq rfl rfl, encodedAs_of_encode_eq rfl rfl, inputNumber_writes delivered a,
    inputNumber_rejects delivered a, inputNumber_writes delivered a, inputNumber_rejects delivered a⟩

/-- Settles O37: without a line the reading answers the state it was given, in either radix. -/
theorem inputWaitsForALineUnchanged : Obligations.InputWaitsForALineUnchanged := fun a _ noLine =>
  ⟨inputNumber_of_no_line noLine 16 a, inputNumber_of_no_line noLine 10 a⟩

end Sys2Proof.Machine
end

section
/-! Exceptions (R230 to R238): an instruction keeps the result, or ends the run with an event it may raise; an ended
run stays as it is. -/

namespace Sys2Proof.Machine

/-- R230, R238: an instruction that ends the run does so by an event that it may raise, and every other one leaves the
result alone. -/
inductive ResultCase (i : Instr) (s t : State) : Prop where
  | kept (result : t.res = s.res)
  | raised (ev : Event) (source : MayRaise ev i) (result : t.res = ev.result) (noFrames : t.frames = [])

section Operations

variable {i : Instr} {s : State}

theorem ResultCase.of_endRun {u : State} {ev : Event} (source : MayRaise ev i) : ResultCase i s (u.endRun ev) :=
  .raised ev source (u.endRun_res ev) (u.endRun_frames ev)

/-- `enter` raises FramesExhausted or nothing (R107, R234). -/
theorem ResultCase.of_enter {u : State} {kind : FrameKind} {body : Span} (source : MayRaise .framesExhausted i)
    (same : u.res = s.res) : ResultCase i s (u.enter kind body) := by
  obtain ⟨_, henter⟩ | ⟨_, henter⟩ := u.enter_cases kind body <;> rw [henter]
  · exact .of_endRun source
  · exact .kept same

/-- `push` raises StackExhausted or nothing (R27, R235). -/
theorem ResultCase.of_pushEntry {u : State} {v : Word} (source : MayRaise .stackExhausted i)
    (same : u.res = s.res) : ResultCase i s (u.pushEntry v) := by
  obtain ⟨_, hpush⟩ | ⟨_, hpush⟩ := u.pushEntry_cases v <;> rw [hpush]
  · exact .of_endRun source
  · exact .kept same

/-- Of the ends of a frame only the root's has an event (R106). -/
theorem State.frameEnd_res_of_not_root {t : State} {f : Frame} {below : List Frame} (top : s.frames = f :: below)
    (notRoot : f.kind ≠ .root) (h : s.frameEnd = .next t) : t.res = s.res := by
  obtain ⟨g, rest, htop, hcase⟩ := State.frameEnd_cases h
  obtain ⟨rfl, rfl⟩ := List.cons.inj (top.symm.trans htop)
  cases hcase with
  | endOfStream kind _ => exact absurd kind notRoot
  | pop _ result | again _ _ _ result | next _ _ _ _ _ result | loop _ _ _ _ _ result => rw [result]; rfl

end Operations

/-! ## The instructions that can raise an event -/

section Instruction

variable {i : Instr} {s t : State}

theorem execPop_resultCase {a : RegAddr} (h : execPop a s = .next t) : ResultCase (.pop a) s t := by
  cases entries : s.stack with
  | nil =>
    rw [execPop_of_empty entries a] at h
    cases h
    exact .of_endRun ⟨a, rfl⟩
  | cons v below =>
    rw [execPop_of_newest entries a] at h
    cases h
    exact .kept rfl

theorem execPchr_resultCase {a : RegAddr} (h : execPchr a s = .next t) : ResultCase (.pchr a) s t := by
  by_cases scalar : isScalar (s.reg a).toNat = true
  · rw [execPchr_of_scalar scalar] at h
    cases h
    exact .kept rfl
  · rw [execPchr_of_not_scalar scalar] at h
    cases h
    exact .of_endRun (.inl ⟨a, rfl⟩)

theorem execDpm_resultCase {payload : List Byte} (h : execDpm payload s = .next t) :
    ResultCase (.dpm payload) s t := by
  cases decodes : utf8Decode payload with
  | none =>
    rw [execDpm_of_no_text decodes] at h
    cases h
    exact .of_endRun (.inr ⟨payload, rfl⟩)
  | some text =>
    rw [execDpm_of_text decodes] at h
    cases h
    exact .kept rfl

theorem execCall_resultCase {k : FuncId} (h : execCall k s = .next t) : ResultCase (.call k) s t := by
  cases stored : s.func k with
  | none =>
    rw [execCall_of_absent stored] at h
    cases h
    exact .kept rfl
  | some body =>
    by_cases nonempty : body.start < body.stop
    · rw [execCall_of_nonempty stored nonempty] at h
      cases h
      exact .of_enter (.inr ⟨k, rfl⟩) rfl
    · rw [execCall_of_empty stored nonempty] at h
      cases h
      exact .kept rfl

theorem execBlockEnd_resultCase (h : execBlockEnd s = .next t) : ResultCase .blockEnd s t := by
  cases top : s.frames with
  | nil => simp [execBlockEnd, top] at h
  | cons f below =>
    by_cases root : f.kind = .root
    · rw [execBlockEnd_of_root top root] at h
      cases h
      exact .of_endRun rfl
    · rw [execBlockEnd_of_not_root top root] at h
      exact .kept (State.frameEnd_res_of_not_root (s := s.advance 3) (State.advance_frames_cons 3 top) root h)

theorem ResultCase.of_inputNumber {radix : Nat} {a : RegAddr} (instr : i = .inHex a ∨ i = .inDec a)
    (h : inputNumber radix a s = .next t) : ResultCase i s t := by
  obtain ⟨_, rfl⟩ | ⟨_, _, _, ⟨_, rfl⟩ | ⟨_, _, rfl⟩⟩ := inputNumber_cases h
  · exact .kept rfl
  · exact .of_endRun ⟨a, instr⟩
  · exact .kept rfl

theorem execFuncDef_resultCase {k : FuncId} (h : execFuncDef k s = .next t) : ResultCase (.funcDef k) s t := by
  obtain ⟨_, _, _, ⟨_, rfl⟩ | ⟨_, _, rfl⟩⟩ := State.withBody_cases h
  · exact .of_endRun rfl
  · exact .kept rfl

/-- R176, R234: a body-bearing BLOCK other than FUNCDEF may fail in its capture and may have no room for its frame. -/
theorem exec_resultCase_of_opens (opens : i.nesting = .opens) (notDef : ∀ k, i ≠ .funcDef k)
    (h : exec i s = .next t) : ResultCase i s t := by
  obtain ⟨act, block, hact⟩ := exec_of_opens opens s
  rw [block] at h
  obtain ⟨_, _, _, ⟨_, rfl⟩ | ⟨body, _, rfl⟩⟩ := State.withBody_cases h
  · exact .of_endRun opens
  have source : MayRaise .framesExhausted i := .inl ⟨opens, notDef⟩
  cases hact body (s.moveTo (body.stop + 3)) with
  | skips result => rw [result]; exact .kept rfl
  | defines k instr _ => exact absurd instr (notDef k)
  | enters kind _ _ result => rw [result]; exact .of_enter source rfl
  | counts a n _ _ result => rw [result]; exact .of_enter source rfl

theorem exec_resultCase (h : exec i s = .next t) : ResultCase i s t := by
  cases i with
  | push a => cases h; exact .of_pushEntry ⟨a, rfl⟩ rfl
  | pop a => exact execPop_resultCase h
  | pchr a => exact execPchr_resultCase h
  | dpm payload => exact execDpm_resultCase h
  | call k => exact execCall_resultCase h
  | blockEnd => exact execBlockEnd_resultCase h
  | inHex a => exact .of_inputNumber (.inl rfl) h
  | inDec a => exact .of_inputNumber (.inr rfl) h
  | halt | fail => cases h; exact .of_endRun rfl
  | funcDef k => exact execFuncDef_resultCase h
  | ifBlock | repeatBlock | forImm | forReg | whileBlock => exact exec_resultCase_of_opens rfl nofun h
  | _ => cases h; exact .kept rfl

end Instruction

/-! ## The obligations about exceptions -/

/-- Settles O47: of the two cases of the result only the raised event changes it. -/
theorem eventsComeOnlyFromTheirInstructions : Obligations.EventsComeOnlyFromTheirInstructions := by
  intro i s t hexec changed
  cases exec_resultCase hexec with
  | kept result => exact absurd result changed
  | raised ev source result noFrames => exact ⟨ev, result, noFrames, source⟩

/-- Settles O42: a step that finds the run ended has a next state, and of the cases of a step only the one that
changes nothing is left. -/
theorem endedRunChangesNothing : Obligations.EndedRunChangesNothing := by
  intro s finished
  obtain ⟨t, hstep⟩ := step_next fun running => absurd running finished
  cases step_cases hstep with
  | ended _ result => rw [hstep, result]
  | frameEnd running _ | unexpectedEnd running _ | instruction _ _ _ _ running _ _ _ =>
    exact absurd running finished

end Sys2Proof.Machine
end

section
/-! Reset (R41, R260): what the registers and the function entries hold at the start of a run, and that the invariant
and the nesting of bodies hold there. -/

namespace Sys2Proof.Machine

/-! ## The start of a run -/

/-- R22: register `i` of a page holds `i` at reset. -/
theorem identityPage_getElem (i : RegAddr) : identityPage[i.toNat] = BitVec.ofNat 32 i.toNat := by
  revert i
  decide

theorem Memory.wf_empty : Memory.wf { len := 0, cells := [] } := ⟨.nil, nofun, nofun⟩

theorem Params.initial_wf : Params.initial.wf := ⟨nofun, nofun⟩

/-- R30: the root frame at the first bit of an image of `len` bits. -/
theorem Frame.good_root (len : Nat) : Frame.Good len { pc := 0, body := { start := 0, stop := len }, kind := .root } :=
  ⟨⟨Nat.zero_le _, le_rfl⟩, le_rfl, Nat.zero_le _, rfl⟩

section Start

variable (ps : Params) (m : Memory) (lines : List (List Scalar))

@[simp] theorem State.start_regAt (p : PageNo) (i : RegAddr) :
    (State.start ps m lines).regAt p i = BitVec.ofNat 32 i.toNat := by
  simp only [State.regAt, State.start, Vector.getElem_replicate, identityPage_getElem]

@[simp] theorem State.start_func (id : FuncId) : (State.start ps m lines).func id = none := by
  simp only [State.func, State.start, Vector.getElem_replicate]

/-- R39: every page starts with the same values, so register 15 agrees on all of them. -/
theorem State.start_mirrored : (State.start ps m lines).Mirrored := fun p => by
  rw [State.start_regAt, State.start_regAt]

/-- R28: no entry of the function table holds a span yet, so that whatever is asked of the stored bodies holds. -/
theorem State.start_func_ne_some {id : FuncId} {sp : Span} : (State.start ps m lines).func id ≠ some sp := by
  simp

variable {ps m}

/-- The root frame counts towards `FRAME_DEPTH` (R6), which is at least 1 where it is finite. -/
theorem State.start_inv (params : ps.wf) (image : m.wf) : (State.start ps m lines).Inv where
  image := image
  params := params
  mirror := State.start_mirrored ps m lines
  funcs _ _ entry := absurd entry (State.start_func_ne_some ps m lines)
  frames := List.forall_mem_singleton.2 (Frame.good_root m.len)
  running _ := ⟨rfl, rfl⟩
  ended finished := absurd rfl finished
  frameDepth := params.1
  stackDepth _ _ := Nat.zero_le _
  output := nofun

variable (ps m)

/-- R178: the root frame alone is executed and no function is stored, so there is no body yet. -/
theorem State.start_structured : (State.start ps m lines).Structured :=
  State.structured_iff.2
    ⟨List.forall_mem_singleton.2 fun notRoot => absurd rfl notRoot,
      fun _ _ entry => absurd entry (State.start_func_ne_some ps m lines)⟩

end Start

/-! ## The obligations about reset -/

/-- Settles O43: the registers and the function entries by their own lemmas, every other field as `State.start` sets
it. -/
theorem resetHasTheSpecsValues : Obligations.ResetHasTheSpecsValues := by
  refine ⟨fun ps m lines => ?_, ⟨_, _, _, rfl⟩⟩
  exact ⟨State.start_regAt ps m lines, rfl, rfl, State.start_func ps m lines, rfl, rfl, rfl⟩

/-- Settles O44: reset is the start of a run with legal parameters over the empty image, which has the one form. -/
theorem startMeetsTheInvariant : Obligations.StartMeetsTheInvariant :=
  ⟨fun _ _ lines params image => State.start_inv lines params image, State.start_structured,
    State.start_inv [] Params.initial_wf Memory.wf_empty, State.start_structured _ _ []⟩

end Sys2Proof.Machine
end
